-- ==== Sys2Proof/Word.lean ====
section
/-! DEFINITION. The byte, the byte string and the lane array: the only word types of the block (00_scope R9). -/

namespace Sys2Proof

/-- A byte: 8 bits, an unsigned integer 0 to 255 (00_scope R9). -/
abbrev Byte := BitVec 8

/-- A finite byte string, lowest offset (or first byte) first. -/
abbrev Bytes := List Byte

/-- The 25 lanes of a state, each of `w` bits, in the order of the lane number `x + 5y` (20_memory R52, R53). -/
abbrev Lanes (w : Nat) := List (BitVec w)

end Sys2Proof
end

