-- ==== Sys2Proof/Config.lean ====
section
/-! DEFINITION. The configuration record, the named sets, and the model's one free value. Everything computed
from a configuration stands in Machine/Params.lean and Machine/Admission.lean. -/

namespace Sys2Proof

/-- The configuration record (00_scope R5): the seven parameters `(b, nr, Pi, c, tau, Rs, Ra)` of the static `cfg` port
(10_state R29, 44_host_interface R190), and `Lk`, which 00_scope R5 and R7 put into the same record and which only the
host-side key pack reads (44_host_interface R192; log 28). -/
structure Cfg where
  /-- permutation width in bits -/
  b : Nat
  /-- round count of the reduced permutation -/
  nr : Nat
  /-- number of Pistons -/
  pi : Nat
  /-- capacity in bits -/
  c : Nat
  /-- tag length in bits -/
  tau : Nat
  /-- squeezing rate in bytes -/
  rs : Nat
  /-- absorbing rate in bytes -/
  ra : Nat
  /-- `packedLength`, the length of the key pack in bytes -/
  lk : Nat
  deriving DecidableEq, Repr

/-- The five named parameter sets (00_scope R7). -/
inductive NamedSet where
  | river | lake | sea | ocean | lunar
  deriving DecidableEq, Repr

/-- The parameter that makes a configuration unsupported: the `info` of `ConfigUnsupported` (60_exceptions R210, R221). -/
inductive CfgParam where
  | b | nr | tau | c | pi | ra
  deriving DecidableEq, Repr

/-- FREE VALUE (log 8). What the status port shows as `RESULT` after a command that raised a fault: the spec calls it
undefined (10_state R27, 93 U4), so nothing constrains it. Applied to the number of the fault entry. -/
opaque Config.resultAfterFault : Nat → Bool

end Sys2Proof
end

