-- ==== Sys2Proof/Syntax.lean ====
section
/-! DEFINITION. The operations (30_encoding R84), the streams (20_memory R58, 10_state R32) and the operand lines
(30_encoding R81). One constructor of `Instr` for each row of the opcode table; its arguments are the flag bits of
the word, the only operands a word carries. -/

namespace Sys2Proof

/-- The 19 operations of 30_encoding R84. -/
inductive Instr where
  /-- `F.THETA`, the diffusion step -/
  | fTheta
  /-- `F.RHOPI`, the rotation+permutation step -/
  | fRhoPi
  /-- `F.CHI`, the nonlinear step -/
  | fChi
  /-- `F.IOTA`, the constant injection -/
  | fIota
  /-- `F.ROUND`, one round -/
  | fRound
  /-- `F.APPLY`, the permutation -/
  | fApply
  /-- `P.CRYPT` with `unwrapFlag` -/
  | pCrypt (unwrap : Bool)
  /-- `P.INJECT` with `cryptingFlag` -/
  | pInject (crypting : Bool)
  /-- `P.SPARK` with `finalFlag` -/
  | pSpark (final : Bool)
  /-- `P.GETTAG` -/
  | pGetTag
  /-- `E.CRYPT` with `unwrapFlag` -/
  | eCrypt (unwrap : Bool)
  /-- `E.INJECT` -/
  | eInject
  /-- `E.SPARK` with `finalFlag` -/
  | eSpark (final : Bool)
  /-- `E.GETTAGS` -/
  | eGetTags
  /-- `E.INJCOLL` with `diversifyFlag` -/
  | eInjColl (diversify : Bool)
  /-- `M.START` with `wantTag`, `unwrapFlag`, `forgetFlag` -/
  | mStart (wantTag unwrap forget : Bool)
  /-- `M.WRAP` with `unwrapFlag`, `forgetFlag` -/
  | mWrap (unwrap forget : Bool)
  /-- `M.KNOT`, the ratchet -/
  | mKnot
  /-- `M.HANDLETAG` with `wantTag`, `unwrapFlag` -/
  | mHandleTag (wantTag unwrap : Bool)
  deriving DecidableEq, Repr

/-- The five stream ports shared with the host (20_memory R58). -/
inductive Port where
  /-- `SUV`, session material -/
  | suv
  /-- `I`, plaintext or ciphertext in -/
  | inp
  /-- `A`, associated data -/
  | ad
  /-- `T`, the tag, both directions -/
  | tag
  /-- `O`, ciphertext or plaintext out -/
  | out
  deriving DecidableEq, Repr

/-- A stream an internal operation can be given as an operand: a port, or one of the two internal buffers of 10_state R32. -/
inductive StreamName where
  | port (p : Port)
  /-- `T′`, the internal tag buffer of `M.KNOT` and `M.HANDLETAG` -/
  | tPrime
  /-- `Xt[i]`, Piston `i`'s copy of the broadcast input of `E.INJCOLL` -/
  | xt (i : Nat)
  deriving DecidableEq, Repr

/-- The operand lines beside the word (30_encoding R81): "each one byte wide and holding the plain unsigned value",
with the stream operands and the lane-array operand R84 lists, and the result an internal operation returns. -/
structure Lines where
  /-- Piston index `i` -/
  i : Byte
  /-- start offset `ω` of `P.CRYPT` -/
  ω : Byte
  /-- length `l` of `P.SPARK`, `P.GETTAG` -/
  l : Byte
  /-- round index `r` of `F.IOTA`, `F.ROUND` -/
  r : Byte
  /-- lengths `l[0..Pi−1]` of `E.SPARK`, `E.GETTAGS` -/
  lens : List Byte
  /-- the input stream operand -/
  src : StreamName
  /-- the output stream operand -/
  dst : StreamName
  /-- the lane-array operand of the Permutation operations, as its byte view, and their result (log 7) -/
  state : Bytes
  /-- what `M.HANDLETAG` returns to the operation that issued it (log 26) -/
  ret : Bool
  deriving DecidableEq, Repr

end Sys2Proof
end

