-- ==== Sys2Proof/Decode.lean ====
section
/-! DEFINITION. The operation word (30_encoding R80, R84, R86): decoder and encoder. A decoder always reads exactly
one byte. -/

namespace Sys2Proof

/-- Why bytes are no operation. -/
inductive DecodeError where
  /-- no byte to read -/
  | noByte
  /-- a reserved word (30_encoding R86) -/
  | reserved (word : Byte)
  deriving DecidableEq, Repr

/-- Field `unit`, bits 7:6 (30_encoding R80). -/
def wordUnit (v : Byte) : Nat := (v.extractLsb' 6 2).toNat

/-- Field `op`, bits 5:3 (30_encoding R80). -/
def wordOp (v : Byte) : Nat := (v.extractLsb' 3 3).toNat

/-- The rows of 30_encoding R84 by unit, operation number and the flags `f2 f1 f0`; every other combination is
reserved (R86). -/
def decodeFields (unit op : Nat) (f2 f1 f0 : Bool) : Option Instr :=
  match unit, op, f2, f1, f0 with
  | 0, 0, false, false, false => some .fTheta
  | 0, 1, false, false, false => some .fRhoPi
  | 0, 2, false, false, false => some .fChi
  | 0, 3, false, false, false => some .fIota
  | 0, 4, false, false, false => some .fRound
  | 0, 5, false, false, false => some .fApply
  | 1, 0, false, false, u => some (.pCrypt u)
  | 1, 1, false, false, c => some (.pInject c)
  | 1, 2, false, false, e => some (.pSpark e)
  | 1, 3, false, false, false => some .pGetTag
  | 2, 0, false, false, u => some (.eCrypt u)
  | 2, 1, false, false, false => some .eInject
  | 2, 2, false, false, e => some (.eSpark e)
  | 2, 3, false, false, false => some .eGetTags
  | 2, 4, false, false, d => some (.eInjColl d)
  | 3, 0, t, u, g => some (.mStart t u g)
  | 3, 1, false, u, g => some (.mWrap u g)
  | 3, 2, false, false, false => some .mKnot
  | 3, 3, t, u, false => some (.mHandleTag t u)
  | _, _, _, _, _ => none

/-- The operation a word names, if any. -/
def decodeWord (v : Byte) : Option Instr :=
  decodeFields (wordUnit v) (wordOp v) (v.getLsbD 2) (v.getLsbD 1) (v.getLsbD 0)

/-- The decoder: one byte, then the rest (30_encoding R80). -/
def decode : Bytes → Except DecodeError (Instr × Bytes)
  | [] => .error .noByte
  | v :: rest =>
    match decodeWord v with
    | some i => .ok (i, rest)
    | none => .error (.reserved v)

/-- A word from its fields (30_encoding R80). -/
def packWord (unit : BitVec 2) (op : BitVec 3) (f2 f1 f0 : Bool) : Byte :=
  unit ++ op ++ BitVec.ofBool f2 ++ BitVec.ofBool f1 ++ BitVec.ofBool f0

/-- The word of an operation (30_encoding R84). -/
def encodeWord : Instr → Byte
  | .fTheta => packWord 0 0 false false false
  | .fRhoPi => packWord 0 1 false false false
  | .fChi => packWord 0 2 false false false
  | .fIota => packWord 0 3 false false false
  | .fRound => packWord 0 4 false false false
  | .fApply => packWord 0 5 false false false
  | .pCrypt u => packWord 1 0 false false u
  | .pInject c => packWord 1 1 false false c
  | .pSpark e => packWord 1 2 false false e
  | .pGetTag => packWord 1 3 false false false
  | .eCrypt u => packWord 2 0 false false u
  | .eInject => packWord 2 1 false false false
  | .eSpark e => packWord 2 2 false false e
  | .eGetTags => packWord 2 3 false false false
  | .eInjColl d => packWord 2 4 false false d
  | .mStart t u g => packWord 3 0 t u g
  | .mWrap u g => packWord 3 1 false u g
  | .mKnot => packWord 3 2 false false false
  | .mHandleTag t u => packWord 3 3 t u false

/-- The bytes of an operation: always one (30_encoding R80). -/
def encode (i : Instr) : Bytes := [encodeWord i]

/-- The host may issue only `M.START` and `M.WRAP` (30_encoding R85). -/
def Instr.hostIssuable : Instr → Bool
  | .mStart _ _ _ => true
  | .mWrap _ _ => true
  | .fTheta => false
  | .fRhoPi => false
  | .fChi => false
  | .fIota => false
  | .fRound => false
  | .fApply => false
  | .pCrypt _ => false
  | .pInject _ => false
  | .pSpark _ => false
  | .pGetTag => false
  | .eCrypt _ => false
  | .eInject => false
  | .eSpark _ => false
  | .eGetTags => false
  | .eInjColl _ => false
  | .mKnot => false
  | .mHandleTag _ _ => false

/-- The host's question: the operation read from a word of the opcode table. Every row has one word of 8 bits. -/
def decodeTableWord (nbits w : Nat) : Option Instr :=
  if nbits ≤ 8 then
    match decode [BitVec.ofNat 8 w] with
    | .ok (i, _) => some i
    | .error _ => none
  else none

end Sys2Proof
end

