-- ==== Sys2Proof/Machine/Params.lean ====
section
/-! DEFINITION. What a configuration fixes: the derived quantities (00_scope R6), the named sets and their default
rates (00_scope R7), and the layout's existence (20_memory R52). -/

namespace Sys2Proof

/-- `W = b/25`, the lane bit-width (00_scope R6). -/
def Cfg.w (c : Cfg) : Nat := c.b / 25

/-- `Wb = W/8`, the lane byte-width (00_scope R6). -/
def Cfg.wb (c : Cfg) : Nat := c.w / 8

/-- `stateBytes = ceil(b/8)` (00_scope R6). -/
def Cfg.stateBytes (c : Cfg) : Nat := (c.b + 7) / 8

/-- `N(b)`, the nominal round count of each of the seven widths; 0 for a number that is no width (00_scope R6). -/
def nominalRounds (b : Nat) : Nat :=
  if b = 25 then 12
  else if b = 50 then 14
  else if b = 100 then 16
  else if b = 200 then 18
  else if b = 400 then 20
  else if b = 800 then 22
  else if b = 1600 then 24
  else 0

/-- `s = N(b) − nr`, the start round index of the Pistons' permutation (00_scope R6, 90_conflicts C1). -/
def Cfg.start (c : Cfg) : Nat := nominalRounds c.b - c.nr

/-- The least multiple of `m` that is ≥ `v`. -/
def roundUp (v m : Nat) : Nat := (v + m - 1) / m * m

/-- `c′ = roundUp(c, W)` (00_scope R6, 43_motorist R170). -/
def Cfg.cPrime (c : Cfg) : Nat := roundUp c.c c.w

/-- `c′/8`, the ratchet tag length in bytes per Piston (43_motorist R170). -/
def Cfg.knotBytes (c : Cfg) : Nat := c.cPrime / 8

/-- `tau/8`, the message tag length in bytes (43_motorist R170). -/
def Cfg.tagBytes (c : Cfg) : Nat := c.tau / 8

/-- The reserved offset `EOM = Ra` (00_scope R6). -/
def Cfg.eom (c : Cfg) : Nat := c.ra

/-- The reserved offset `CryptEnd = Ra + 1` (00_scope R6). -/
def Cfg.cryptEnd (c : Cfg) : Nat := c.ra + 1

/-- The reserved offset `InjectStart = Ra + 2` (00_scope R6). -/
def Cfg.injectStart (c : Cfg) : Nat := c.ra + 2

/-- The reserved offset `InjectEnd = Ra + 3` (00_scope R6). -/
def Cfg.injectEnd (c : Cfg) : Nat := c.ra + 3

/-- The widths whose byte layout the spec defines, which are the widths it admits (00_scope R8 item 1, 20_memory R52). -/
def Cfg.hasLayout (c : Cfg) : Bool :=
  c.b == 200 || c.b == 400 || c.b == 800 || c.b == 1600

/-- `Wk = max(W, 8)` of the default formulas (00_scope R7). -/
def defaultUnit (b : Nat) : Nat := max (b / 25) 8

/-- The default squeezing rate (00_scope R7; log 22). -/
def defaultRs (b c : Nat) : Nat := defaultUnit b * ((b - max c 32) / defaultUnit b) / 8

/-- The default absorbing rate (00_scope R7; log 22). -/
def defaultRa (b : Nat) : Nat := defaultUnit b * ((b - 32) / defaultUnit b) / 8

/-- The default key-pack length (00_scope R7; log 22). -/
def defaultLk (b c : Nat) : Nat := defaultUnit b * ((c + 9 + defaultUnit b - 1) / defaultUnit b) / 8

/-- A configuration with the default rates and key-pack length of 00_scope R7. -/
def Cfg.withDefaults (b nr pi c tau : Nat) : Cfg :=
  { b := b, nr := nr, pi := pi, c := c, tau := tau, rs := defaultRs b c, ra := defaultRa b,
    lk := defaultLk b c }

/-- The five named sets (00_scope R7, 30_encoding R94). -/
def NamedSet.cfg : NamedSet → Cfg
  | .river => Cfg.withDefaults 800 12 1 256 128
  | .lake => Cfg.withDefaults 1600 12 1 256 128
  | .sea => Cfg.withDefaults 1600 12 2 256 128
  | .ocean => Cfg.withDefaults 1600 12 4 256 128
  | .lunar => Cfg.withDefaults 1600 12 8 256 128

end Sys2Proof
end

