-- ==== Sys2Proof/Machine/State.lean ====
section
/-! DEFINITION. The state of the block (10_state R20, R33), its closed variants, the fault causes, and the state after
reset (10_state R34). -/

namespace Sys2Proof.Machine

/-- The Engine phase (10_state R24). -/
inductive PhaseE where
  | fresh | crypted | endOfCrypt | endOfMessage
  deriving DecidableEq, Repr

/-- The Motorist phase (10_state R25). Three values: code 3 of the port is never driven (93 U7). -/
inductive PhaseM where
  | ready | riding | failed
  deriving DecidableEq, Repr

/-- The fault causes of 60_exceptions R210; their codes are in Machine/Flags.lean. -/
inductive Cause where
  | none
  | phaseViolation
  | rateOrder
  | absorbRateTooLarge
  | tagTooLong
  | keyPackTooLarge
  | encode8Range
  | stateLengthMismatch
  | illegalCommand
  | configUnsupported
  deriving DecidableEq, Repr

/-- A raised fault with the `info` of 60_exceptions R210, which "is not architecturally stored beyond `CAUSE`". -/
inductive Raise where
  /-- an Engine operation in a phase R158 does not list: the word and the phase found (R211) -/
  | phaseViolationE (word : Byte) (found : PhaseE)
  /-- a Motorist command in a phase R171 does not allow: the word and the phase found (R211) -/
  | phaseViolationM (word : Byte) (found : PhaseM)
  /-- `Rs > Ra` at admission (R213) -/
  | rateOrder (rs ra : Nat)
  /-- `Ra + 4 > stateBytes` at admission (R214) -/
  | absorbRateTooLarge (ra stateBytes : Nat)
  /-- `P.GETTAG` with `l > Rs` (R215) -/
  | tagTooLong (l : Nat)
  /-- host-side `keypack` only (R216) -/
  | keyPackTooLarge (keyLength lk : Nat)
  /-- `enc8` of a number above 255 (R217) -/
  | encode8Range (v : Nat)
  /-- `F.APPLY` on a byte string of another length (R218) -/
  | stateLengthMismatch (length : Nat)
  /-- a word the command port does not accept (R220) -/
  | illegalCommand (word : Byte)
  /-- a configuration not admitted for another reason (R221) -/
  | configUnsupported (param : CfgParam)
  deriving DecidableEq, Repr

/-- A byte stream: a finite byte sequence and a read cursor (20_memory R59). -/
structure ByteStream where
  buf : Bytes
  pos : Nat
  deriving DecidableEq, Repr

/-- The empty stream with its cursor at 0. -/
def ByteStream.empty : ByteStream := { buf := [], pos := 0 }

/-- One move of the host, made between commands (44_host_interface R190, R191, R194; 20_memory R73). -/
inductive HostMove where
  /-- drive the static configuration port (`CONFIG` of 30_encoding R93) -/
  | config (cfg : Cfg)
  /-- apply reset (`RESET` of 30_encoding R93) -/
  | reset
  /-- put a stream's whole content on a port, cursor at 0 -/
  | present (p : Port) (content : Bytes)
  /-- append bytes to a port's stream -/
  | append (p : Port) (content : Bytes)
  /-- present an operation word on `cmd` -/
  | command (word : Byte)
  deriving DecidableEq, Repr

/-- The state of the block. Each field's docstring names the rule that gives it. -/
structure State where
  /-- what the host drives on the static `cfg` port (10_state R29, 44_host_interface R190) -/
  cfgPort : Cfg
  /-- the configuration sampled at the last reset (70_reset R240, 00_scope R5; log 1) -/
  cfg : Cfg
  /-- `S[i]`: one buffer of `stateBytes` bytes for each Piston (10_state R21) -/
  pistons : List Bytes
  /-- `Et[i]`: one byte for each Piston (10_state R23) -/
  et : List Byte
  /-- `phase_E` (10_state R24) -/
  phaseE : PhaseE
  /-- `phase_M` (10_state R25) -/
  phaseM : PhaseM
  /-- `FAULT` (10_state R26) -/
  fault : Bool
  /-- `CAUSE` (10_state R26) -/
  cause : Cause
  /-- `RESULT` (10_state R27) -/
  result : Bool
  /-- `DONE` (10_state R27) -/
  done : Bool
  /-- stream `SUV` (20_memory R58) -/
  suv : ByteStream
  /-- stream `I` -/
  inp : ByteStream
  /-- stream `A` -/
  ad : ByteStream
  /-- stream `T` -/
  tag : ByteStream
  /-- stream `O` -/
  out : ByteStream
  /-- `T′`, the internal tag buffer (10_state R32 b; log 10) -/
  tPrime : ByteStream
  /-- `Xt[i]`, the per-Piston copies of a broadcast (10_state R32 a; log 10) -/
  xt : List ByteStream
  /-- the operand lines of internal operations (30_encoding R81; log 5) -/
  lines : Lines
  /-- the word an owning operation issues next to a unit, if any (30_encoding R85; log 4) -/
  issue : Option Byte
  /-- the moves the host will make, first one first (10_state R30, 44_host_interface R196; log 2) -/
  host : List HostMove
  /-- the optional `trace` port: words of internal operations in execution order (30_encoding R85; log 11) -/
  trace : List Byte
  /-- the MODEL's own counter of fault entries since `State.reset`, which numbers the free values of log 8 and tells a
  faulted run from another (60_exceptions R226; log 3) -/
  faultCount : Nat
  deriving DecidableEq, Repr

/-- A stop of the model. None of these is a fault of the spec, and none can occur on a run from reset in which no internal
word is issued from outside its owner. -/
inductive Stop where
  /-- Raised by every Piston operation when its index names no Piston, or when what stands there is no Piston: a
  buffer of another length, or rates that 41_piston R134 does not build one from. Safe: the machine stops (log 14). -/
  | noSuchPiston (i : Nat)
  /-- Raised by an operation whose stream operand is a copy `Xt[k]` that does not exist. Safe: the machine stops (log 14). -/
  | noSuchStream (x : StreamName)
  /-- Raised by `P.CRYPT` when one stream is named both in and out, and by `E.INJCOLL` in phase `fresh` when its input
  is one of the copies it makes: two roles of 20_memory R58 on one stream, which no operation of the spec issues. Safe (log 6). -/
  | streamClash (x : StreamName)
  /-- Raised by `E.SPARK` and `E.GETTAGS` when there is not one length for each Piston. Safe: the machine stops (log 14). -/
  | noSuchLine (given : Nat)
  /-- Raised by the Permutation operations for a width whose byte layout the spec does not define (20_memory R52);
  such a width is never admitted. Safe: the machine stops (log 15). -/
  | noLaneLayout (b : Nat)
  /-- Raised by `F.THETA`, `F.RHOPI`, `F.CHI`, `F.IOTA`, `F.ROUND` when the operand is not the byte view of 25 lanes
  (20_memory R52). Safe: the machine stops (log 15). -/
  | notALaneArray (length : Nat)
  /-- Raised by the loops of `E.INJCOLL` and `M.WRAP` when they can never end, which only a configuration that is not
  admitted allows (70_reset R252); a block with such a configuration accepts no command (70_reset R240 item 3,
  93_implementation_defined U8). A stuck state; safe (log 13, and `exec_ends` in Laws/Termination.lean). -/
  | endlessLoop
  deriving DecidableEq, Repr

/-- Why a run stops: a fault of the spec, or a stop of the model. -/
inductive Fault where
  /-- Raised by every operation whose rule raises a fault of 60_exceptions R210, by the command port for a word it does not
  accept (R220), and by a reset with a configuration that is not admitted (70_reset R240 item 3): "a fault is a terminal
  outcome of the step function" (R226). It carries the fault with its `info` (R210), and the block after fault entry (R225),
  which ignores words (10_state R26) until a reset (R227). Safe: no behaviour is admitted after a fault (log 3). -/
  | latched (raised : Raise) (entered : State)
  /-- Raised by the operations that `Stop` names, each under its own name there. Safe: the machine stops. -/
  | stopped (why : Stop)
  deriving DecidableEq, Repr

/-- Why an operation has no meaning. -/
inductive Refusal where
  /-- Raised by an arm of `exec` that gives its operation no meaning yet. Safe. -/
  | notModelled (mnemonic : String)
  /-- Raised by a step whose internal issue line holds a reserved word: such a word is "never produced internally"
  (93 U2). Safe (log 24). -/
  | reservedIssue (word : Byte)
  deriving DecidableEq, Repr

/-- The state right after reset with the Lake configuration on the `cfg` port (10_state R34; log 1). Fields the spec
gives no reset value for: log 2, 4, 5, 6, 7, 8, 10, 11, 26. -/
def State.reset : State :=
  { cfgPort := NamedSet.cfg .lake
    cfg := NamedSet.cfg .lake
    pistons := [List.replicate 200 0]
    et := [0]
    phaseE := .fresh
    phaseM := .ready
    fault := false
    cause := .none
    result := false
    done := false
    suv := ByteStream.empty
    inp := ByteStream.empty
    ad := ByteStream.empty
    tag := ByteStream.empty
    out := ByteStream.empty
    tPrime := ByteStream.empty
    xt := []
    lines :=
      { i := 0, ω := 0, l := 0, r := 0, lens := [0], src := .port .inp, dst := .port .out,
        state := List.replicate 200 0, ret := false }
    issue := none
    host := []
    trace := []
    faultCount := 0 }

end Sys2Proof.Machine
end

