-- ==== Sys2Proof/Machine/Ops.lean ====
section
/-! DEFINITION. The named operations over streams, Piston states and the state record; fault entry; the ending of an
operation. -/

namespace Sys2Proof.Machine

/-- How an operation ends early: a fault of the spec with the state at that point (60_exceptions R225), or a stop of
the model. -/
inductive Abort where
  | raised (r : Raise) (s : State)
  | stuck (f : Stop)
  deriving DecidableEq, Repr

/-- What an operation gives: a value, or an early end. `raise` abandons the operation and every operation that invoked
it (00_scope R10). -/
abbrev Result (α : Type) := Except Abort α

/-- `raise F(info)` (00_scope R10). -/
def raise {α : Type} (r : Raise) (s : State) : Result α := .error (.raised r s)

/-- A stop of the model. -/
def stop {α : Type} (f : Stop) : Result α := .error (.stuck f)

/-- The cause of a raised fault (60_exceptions R210). -/
def Raise.cause : Raise → Cause
  | .phaseViolationE _ _ => .phaseViolation
  | .phaseViolationM _ _ => .phaseViolation
  | .rateOrder _ _ => .rateOrder
  | .absorbRateTooLarge _ _ => .absorbRateTooLarge
  | .tagTooLong _ => .tagTooLong
  | .keyPackTooLarge _ _ => .keyPackTooLarge
  | .encode8Range _ => .encode8Range
  | .stateLengthMismatch _ => .stateLengthMismatch
  | .illegalCommand _ => .illegalCommand
  | .configUnsupported _ => .configUnsupported

/-- Fault entry (60_exceptions R225): `FAULT <- 1`, `CAUSE <- code(F)`, `DONE <- 1`; `RESULT` is not written; nothing
else is saved and earlier changes are kept. There is no return but reset (R227). -/
def State.enterFault (s : State) (r : Raise) : State :=
  { s with fault := true, cause := r.cause, done := true, faultCount := s.faultCount + 1 }

/-- The outcome of a raised fault: terminal, with the block after fault entry (60_exceptions R225, R226; log 3). -/
def latch (r : Raise) (s : State) : Host.Outcome State Fault Refusal := .fault (.latched r (s.enterFault r))

/-- The outcome of an operation: its next state, or a fault of the spec, or a stop of the model (60_exceptions R226). -/
def settle : Result State → Host.Outcome State Fault Refusal
  | .ok s => .next s
  | .error (.raised r s) => latch r s
  | .error (.stuck f) => .fault (.stopped f)

/-- `enc8(v)`: the one-byte encoding of a number (00_scope R11); `none` is where it raises `Encode8Range`. -/
def enc8 (v : Nat) : Option Byte := if v ≤ 255 then some (BitVec.ofNat 8 v) else none

/-! Streams (20_memory R59 to R63). -/

/-- `hasMore(X)` (20_memory R60). -/
def ByteStream.hasMore (x : ByteStream) : Bool := decide (x.pos < x.buf.length)

/-- The unread bytes of a stream. -/
def ByteStream.unread (x : ByteStream) : Bytes := x.buf.drop x.pos

/-- `get(X)` (20_memory R61): the byte under the cursor and the stream with its cursor one further; no meaning on an
exhausted stream (93 U6). -/
def ByteStream.get (x : ByteStream) : Option (Byte × ByteStream) :=
  match x.buf[x.pos]? with
  | some v => some (v, { x with pos := x.pos + 1 })
  | none => none

/-- `put(X, v)` (20_memory R62). -/
def ByteStream.put (x : ByteStream) (v : Byte) : ByteStream := { x with buf := x.buf ++ [v] }

/-- `for each byte v of vs in order: put(X, v)`. -/
def ByteStream.putAll (x : ByteStream) (vs : Bytes) : ByteStream := { x with buf := x.buf ++ vs }

/-- `clear(X)` (20_memory R63). -/
def ByteStream.clear (_ : ByteStream) : ByteStream := ByteStream.empty

/-- The stream with every byte consumed: `X.pos <- len(X.buf)`. -/
def ByteStream.consumed (x : ByteStream) : ByteStream := { x with pos := x.buf.length }

/-- A new stream with the given content, cursor at 0. -/
def ByteStream.ofBytes (vs : Bytes) : ByteStream := { buf := vs, pos := 0 }

/-- The stream on a port (20_memory R58). -/
def State.port (s : State) : Port → ByteStream
  | .suv => s.suv
  | .inp => s.inp
  | .ad => s.ad
  | .tag => s.tag
  | .out => s.out

/-- The state with another stream on a port. -/
def State.setPort (s : State) (p : Port) (x : ByteStream) : State :=
  match p with
  | .suv => { s with suv := x }
  | .inp => { s with inp := x }
  | .ad => { s with ad := x }
  | .tag => { s with tag := x }
  | .out => { s with out := x }

/-- The stream a name stands for, if there is one. -/
def State.stream? (s : State) : StreamName → Option ByteStream
  | .port p => some (s.port p)
  | .tPrime => some s.tPrime
  | .xt k => s.xt[k]?

/-- The stream operand of an operation. -/
def State.stream (s : State) (n : StreamName) : Result ByteStream :=
  match s.stream? n with
  | some x => .ok x
  | none => stop (.noSuchStream n)

/-- The state with another stream under a name. -/
def State.setStream (s : State) (n : StreamName) (x : ByteStream) : State :=
  match n with
  | .port p => s.setPort p x
  | .tPrime => { s with tPrime := x }
  | .xt k => { s with xt := s.xt.set k x }

/-! Piston states (20_memory R50, R55, R57): the bytes of one buffer, and the buffers of the block. -/

/-- `S[k]`, one byte of a state. -/
def byteAt (S : Bytes) (k : Nat) : Byte := S.getD k 0

/-- `S[k] <- v`. -/
def storeAt (S : Bytes) (k : Nat) (v : Byte) : Bytes := S.set k v

/-- `S[k] <- S[k] ^ v`. -/
def xorAt (S : Bytes) (k : Nat) (v : Byte) : Bytes := S.set k (byteAt S k ^^^ v)

/-- The construction conditions of a Piston, with its buffer's length (41_piston R134, 10_state R21). -/
def pistonBuilt (c : Cfg) (S : Bytes) : Bool :=
  decide (S.length = c.stateBytes) && decide (c.rs ≤ c.ra) && decide (c.ra + 4 ≤ c.stateBytes)

/-- The state `S[i]` of Piston `i`. -/
def State.piston (s : State) (i : Nat) : Result Bytes :=
  match s.pistons[i]? with
  | some S => if pistonBuilt s.cfg S then .ok S else stop (.noSuchPiston i)
  | none => stop (.noSuchPiston i)

/-- The state with another buffer for Piston `i`; no other Piston changes (10_state R22). -/
def State.setPiston (s : State) (i : Nat) (S : Bytes) : State := { s with pistons := s.pistons.set i S }

/-- `S[i][k] <- S[i][k] ^ v`. -/
def State.xorByte (s : State) (i k : Nat) (v : Byte) : State :=
  s.setPiston i (xorAt (s.pistons.getD i []) k v)

/-- `S[i][k] <- S[i][k] ^ enc8(v)`, which raises `Encode8Range` when `v` has no one-byte encoding (30_encoding R87,
60_exceptions R217). -/
def State.xorEnc8 (s : State) (i k v : Nat) : Result State :=
  match enc8 v with
  | some e => .ok (s.xorByte i k e)
  | none => raise (.encode8Range v) s

/-- The canonical form of the Piston buffers: exactly `Pi` of them, each of exactly `stateBytes` bytes (10_state R21),
so that equal contents are equal data (log 20). -/
def Memory.wf (c : Cfg) (ps : List Bytes) : Bool :=
  decide (ps.length = c.pi) && ps.all fun S => decide (S.length = c.stateBytes)

/-! The rest of the record. -/

/-- A word of an internal operation on the `trace` port (30_encoding R85; log 11). -/
def State.emit (s : State) (i : Instr) : State := { s with trace := s.trace ++ [encodeWord i] }

/-- Words of several internal operations on the `trace` port. -/
def State.emitAll (s : State) (is : List Instr) : State := { s with trace := s.trace ++ is.map encodeWord }

/-- `phase_E <- p`. -/
def State.setPhaseE (s : State) (p : PhaseE) : State := { s with phaseE := p }

/-- `phase_M <- p`. -/
def State.setPhaseM (s : State) (p : PhaseM) : State := { s with phaseM := p }

/-- `Et <- es`. -/
def State.setEt (s : State) (es : List Byte) : State := { s with et := es }

/-- `T′ <- x`. -/
def State.setTPrime (s : State) (x : ByteStream) : State := { s with tPrime := x }

/-- `Xt <- xs`. -/
def State.setXt (s : State) (xs : List ByteStream) : State := { s with xt := xs }

/-- Normal completion of a host command: `RESULT <- res`, `DONE <- 1` (10_state R27, 44_host_interface R191). -/
def State.complete (s : State) (res : Bool) : State := { s with result := res, done := true }

/-- The lane-array result of a Permutation operation (log 7). -/
def State.setArray (s : State) (A : Bytes) : State := { s with lines := { s.lines with state := A } }

/-- What an internal operation returns to its issuer (log 26). -/
def State.setRet (s : State) (b : Bool) : State := { s with lines := { s.lines with ret := b } }

/-- `for i in is: f i`, in order, each complete before the next (20_memory R70, R71). -/
def forEach (f : Nat → State → Result State) : List Nat → State → Result State
  | [], s => .ok s
  | i :: is, s =>
    match f i s with
    | .ok s' => forEach f is s'
    | .error e => .error e

/-- The Piston indices `0 .. Pi−1` in ascending order (20_memory R71). -/
def State.pistonIndices (s : State) : List Nat := List.range s.cfg.pi

/-! Reset (70_reset R240, R241). -/

/-- Everything at its reset value for the configuration on the `cfg` port, which is sampled (10_state R34; 70_reset
R240 items 2 and 4). The host's own pending moves and what it drives on `cfg` are the host's, not the block's. -/
def State.cleared (s : State) : State :=
  { s with
    cfg := s.cfgPort
    pistons := List.replicate s.cfgPort.pi (List.replicate s.cfgPort.stateBytes 0)
    et := List.replicate s.cfgPort.pi 0
    phaseE := .fresh
    phaseM := .ready
    fault := false
    cause := .none
    result := false
    done := false
    suv := ByteStream.empty
    inp := ByteStream.empty
    ad := ByteStream.empty
    tag := ByteStream.empty
    out := ByteStream.empty
    tPrime := ByteStream.empty
    xt := []
    lines :=
      { i := 0, ω := 0, l := 0, r := 0, lens := List.replicate s.cfgPort.pi 0, src := .port .inp, dst := .port .out,
        state := List.replicate s.cfgPort.stateBytes 0, ret := false }
    issue := none
    trace := [] }

end Sys2Proof.Machine
end

