-- ==== Sys2Proof/Machine/Operands.lean ====
section
/-! DEFINITION. Reading the operand lines of an operation issued by itself (30_encoding R81, R84; log 5, 6). The value
of a numeric line is the plain unsigned number. -/

namespace Sys2Proof.Machine

/-- Operand `i`. -/
def State.lineI (s : State) : Nat := s.lines.i.toNat

/-- Operand `ω`. -/
def State.lineOffset (s : State) : Nat := s.lines.ω.toNat

/-- Operand `l`. -/
def State.lineL (s : State) : Nat := s.lines.l.toNat

/-- Operand `r`. -/
def State.lineR (s : State) : Nat := s.lines.r.toNat

/-- Operand `l[0..Pi−1]`. -/
def State.lineLens (s : State) : List Nat := s.lines.lens.map BitVec.toNat

/-- The vector `[0, .., 0]` of `Pi` zeros (42_engine R151, R156). -/
def State.zeroLens (s : State) : List Nat := List.replicate s.cfg.pi 0

/-- The vector `[c′/8, .., c′/8]` (43_motorist R176). -/
def State.knotLens (s : State) : List Nat := List.replicate s.cfg.pi s.cfg.knotBytes

/-- The vector `[tau/8, 0, .., 0]`: Piston 0 only (43_motorist R177). -/
def State.tagLens (s : State) : List Nat :=
  (List.range s.cfg.pi).map fun i => if i = 0 then s.cfg.tagBytes else 0

end Sys2Proof.Machine
end

