-- ==== Sys2Proof/Machine/Permutation.lean ====
section
/-! DEFINITION. The Permutation engine (40_permutation): lane view, round constants, the four steps, the round, the
permutation, and the six operations of the unit. -/

namespace Sys2Proof.Machine

/-! The lane view (20_memory R51, R52). -/

/-- `A[x][y]`, indices taken modulo 5 (00_scope R9, R10). -/
def lane {w : Nat} (A : Lanes w) (x y : Nat) : BitVec w := A.getD (x % 5 + 5 * (y % 5)) 0#w

/-- The lane array with `A[x][y] = f x y`. -/
def mkLanes {w : Nat} (f : Nat → Nat → BitVec w) : Lanes w := (List.range 25).map fun k => f (k % 5) (k / 5)

/-- The lane at offset `o`: the sum of `S[o + k] · 2^(8k)` over its `w/8` bytes (20_memory R52). -/
def loadLane (w : Nat) (S : Bytes) (o : Nat) : BitVec w :=
  (List.range (w / 8)).foldl (fun v k => v ||| ((byteAt S (o + k)).setWidth w <<< (8 * k))) 0#w

/-- The lane view of a state: lane `(x, y)` at offset `Wb·(x + 5y)` (20_memory R52). -/
def lanesOf (w : Nat) (S : Bytes) : Lanes w := mkLanes fun x y => loadLane w S (w / 8 * (x + 5 * y))

/-- The bytes of one lane, bits 7 to 0 first (20_memory R51, R52). -/
def laneBytes {w : Nat} (v : BitVec w) : Bytes := (List.range (w / 8)).map fun k => v.extractLsb' (8 * k) 8

/-- The byte view of a lane array (20_memory R52). -/
def bytesOf {w : Nat} (A : Lanes w) : Bytes := A.flatMap laneBytes

/-! Rotation and round constants (00_scope R9; 40_permutation R102, R111). -/

/-- `rotl_W(v, n)`: left rotation by `n mod W` bits; by 0 it is the identity (00_scope R9, 40_permutation R111). -/
def rotl {w : Nat} (v : BitVec w) (n : Nat) : BitVec w :=
  if n % w = 0 then v else (v <<< (n % w)) ||| (v >>> (w - n % w))

/-- The LFSR of `rc(t)` run for a number of steps (40_permutation R102). -/
def lfsr : Nat → Nat → Nat
  | 0, R => R
  | n + 1, R => lfsr n (if (2 * R).testBit 8 then (2 * R) ^^^ 0x171 else 2 * R)

/-- `rc(t)` (40_permutation R102). -/
def rcBit (t : Nat) : Bool := (lfsr (t % 255) 1).testBit 0

/-- `RC[r]` for lane width `w`: bit `2^j − 1` is `rc(j + 7r)` for `j = 0 .. log2 w` (40_permutation R102). -/
def roundConstant (w r : Nat) : BitVec w :=
  (List.range (Nat.log2 w + 1)).foldl
    (fun v j => if rcBit (j + 7 * r) then v ||| BitVec.ofNat w (2 ^ (2 ^ j - 1)) else v) 0#w

/-! The four steps, the round and the permutation (40_permutation R103 to R110). -/

/-- The column parities `C[x]` (40_permutation R103). -/
def columnParity {w : Nat} (A : Lanes w) : List (BitVec w) :=
  (List.range 5).map fun x => lane A x 0 ^^^ lane A x 1 ^^^ lane A x 2 ^^^ lane A x 3 ^^^ lane A x 4

/-- `D[x] = C[x−1] ^ rotl(C[x+1], 1)` (40_permutation R103). -/
def thetaEffect {w : Nat} (C : List (BitVec w)) : List (BitVec w) :=
  (List.range 5).map fun x => C.getD ((x + 4) % 5) 0#w ^^^ rotl (C.getD ((x + 1) % 5) 0#w) 1

/-- The lanes with `D[x]` added to column `x`. -/
def addColumns {w : Nat} (A : Lanes w) (D : List (BitVec w)) : Lanes w :=
  mkLanes fun x y => lane A x y ^^^ D.getD x 0#w

/-- The diffusion step (40_permutation R103). -/
def theta {w : Nat} (A : Lanes w) : Lanes w := addColumns A (thetaEffect (columnParity A))

/-- The walk of the rotation+permutation step from position `(x, y)` at step `t`: the input `A` is read, `A'` is
written (40_permutation R105). -/
def rhoPiWalk {w : Nat} (A : Lanes w) : Nat → Nat → Nat → Nat → BitVec w → Lanes w → Lanes w
  | 0, _, _, _, _, A' => A'
  | n + 1, t, x, y, current, A' =>
    rhoPiWalk A n (t + 1) y ((2 * x + 3 * y) % 5) (lane A y ((2 * x + 3 * y) % 5))
      (A'.set (y + 5 * ((2 * x + 3 * y) % 5)) (rotl current ((t + 1) * (t + 2) / 2)))

/-- The rotation+permutation step: 24 steps from lane `(1,0)`; lane `(0,0)` is not on the cycle (40_permutation R105). -/
def rhoPi {w : Nat} (A : Lanes w) : Lanes w := rhoPiWalk A 24 0 1 0 (lane A 1 0) A

/-- The nonlinear step (40_permutation R107). -/
def chi {w : Nat} (A : Lanes w) : Lanes w :=
  mkLanes fun x y => lane A x y ^^^ (~~~ lane A (x + 1) y &&& lane A (x + 2) y)

/-- The constant injection (40_permutation R108). -/
def iota {w : Nat} (r : Nat) (A : Lanes w) : Lanes w := A.set 0 (lane A 0 0 ^^^ roundConstant w r)

/-- One round (40_permutation R104, R109). -/
def permRound {w : Nat} (r : Nat) (A : Lanes w) : Lanes w := iota r (chi (rhoPi (theta A)))

/-- `n` rounds in ascending order from round `r` (40_permutation R110). -/
def permRounds {w : Nat} : Nat → Nat → Lanes w → Lanes w
  | _, 0, A => A
  | r, n + 1, A => permRounds (r + 1) n (permRound r A)

/-- The permutation with lane width `w`, `n` rounds from round `s`, on a byte string of the right length
(40_permutation R100, R110). -/
def permute (w n s : Nat) (S : Bytes) : Bytes := bytesOf (permRounds s n (lanesOf w S))

/-! The operations of the unit. Each takes a byte string and returns the byte string that results, and puts the words it
executes on the trace. -/

/-- The words of one round's steps, in the order they run (40_permutation R104). -/
def roundTrace : List Instr := [.fTheta, .fRhoPi, .fChi, .fIota]

/-- The words of `n` rounds (40_permutation R109, R110). -/
def applyTrace (n : Nat) : List Instr := (List.replicate n (.fRound :: roundTrace)).flatten

/-- The lane view exists: the width has a layout, and there is one byte for each byte of a state (20_memory R52). -/
def State.lanesExist (s : State) (A : Bytes) : Result Unit :=
  if !s.cfg.hasLayout then stop (.noLaneLayout s.cfg.b)
  else if A.length ≠ s.cfg.stateBytes then stop (.notALaneArray A.length)
  else .ok ()

/-- One step of the unit applied to the byte view of a lane array. -/
def onLanes (f : {w : Nat} → Lanes w → Lanes w) (A : Bytes) (s : State) : Result (Bytes × State) :=
  match s.lanesExist A with
  | .ok () => .ok (bytesOf (f (lanesOf s.cfg.w A)), s)
  | .error e => .error e

/-- `F.THETA` (40_permutation R103). -/
def fTheta (A : Bytes) (s : State) : Result (Bytes × State) := onLanes theta A (s.emit .fTheta)

/-- `F.RHOPI` (40_permutation R105). -/
def fRhoPi (A : Bytes) (s : State) : Result (Bytes × State) := onLanes rhoPi A (s.emit .fRhoPi)

/-- `F.CHI` (40_permutation R107). -/
def fChi (A : Bytes) (s : State) : Result (Bytes × State) := onLanes chi A (s.emit .fChi)

/-- `F.IOTA` (40_permutation R108). -/
def fIota (r : Nat) (A : Bytes) (s : State) : Result (Bytes × State) := onLanes (iota r) A (s.emit .fIota)

/-- `F.ROUND` (40_permutation R109). -/
def fRound (r : Nat) (A : Bytes) (s : State) : Result (Bytes × State) :=
  onLanes (permRound r) A ((s.emit .fRound).emitAll roundTrace)

/-- `F.APPLY` with the block's instance `(b, nr, N(b) − nr)` (40_permutation R100, R110). -/
def fApply (A : Bytes) (s : State) : Result (Bytes × State) :=
  if A.length ≠ s.cfg.stateBytes then raise (.stateLengthMismatch A.length) (s.emit .fApply)
  else if !s.cfg.hasLayout then stop (.noLaneLayout s.cfg.b)
  else .ok (permute s.cfg.w s.cfg.nr s.cfg.start A, (s.emit .fApply).emitAll (applyTrace s.cfg.nr))

/-- A Permutation operation issued by itself: operand and result on the lines (30_encoding R81, R84; log 7). -/
def withArray (f : Bytes → State → Result (Bytes × State)) (s : State) : Result State :=
  match f s.lines.state s with
  | .ok (A, s') => .ok (s'.setArray A)
  | .error e => .error e

/-- The meaning of `F.THETA`. -/
def execFTheta (s : State) : Host.Outcome State Fault Refusal := settle (withArray fTheta s)

/-- The meaning of `F.RHOPI`. -/
def execFRhoPi (s : State) : Host.Outcome State Fault Refusal := settle (withArray fRhoPi s)

/-- The meaning of `F.CHI`. -/
def execFChi (s : State) : Host.Outcome State Fault Refusal := settle (withArray fChi s)

/-- The meaning of `F.IOTA`. -/
def execFIota (s : State) : Host.Outcome State Fault Refusal := settle (withArray (fIota s.lineR) s)

/-- The meaning of `F.ROUND`. -/
def execFRound (s : State) : Host.Outcome State Fault Refusal := settle (withArray (fRound s.lineR) s)

/-- The meaning of `F.APPLY`. -/
def execFApply (s : State) : Host.Outcome State Fault Refusal := settle (withArray fApply s)

end Sys2Proof.Machine
end

