-- ==== Sys2Proof/Machine/Piston.lean ====
section
/-! DEFINITION. The Piston operations (41_piston R130 to R133). Each acts on the state of one Piston and on nothing
else of the block's state but its streams and the trace. -/

namespace Sys2Proof.Machine

/-- What a `P.CRYPT` moves: the Piston's state, its two streams and the offset `ω`. -/
structure CryptMove where
  state : Bytes
  inp : ByteStream
  out : ByteStream
  ω : Nat
  deriving DecidableEq, Repr

/-- One byte of `P.CRYPT`: emit `S[ω] ^ x`; store `x` when unwrapping, else `S[ω] ^ x`; `ω <- ω + 1` (41_piston R130). -/
def cryptByte (unwrap : Bool) (m : CryptMove) (x : Byte) (rest : ByteStream) : CryptMove :=
  { state := storeAt m.state m.ω (if unwrap then x else byteAt m.state m.ω ^^^ x)
    inp := rest
    out := m.out.put (byteAt m.state m.ω ^^^ x)
    ω := m.ω + 1 }

/-- `while hasMore(I) and ω < Rs` of `P.CRYPT` (41_piston R130); the count given is `Rs − ω`, positive exactly while
`ω < Rs`. -/
def cryptLoop (unwrap : Bool) : Nat → CryptMove → CryptMove
  | 0, m => m
  | n + 1, m =>
    match m.inp.get with
    | some (x, rest) => cryptLoop unwrap n (cryptByte unwrap m x rest)
    | none => m

/-- `P.CRYPT(I, O, ω, unwrapFlag)` of Piston `i` (41_piston R130). The final offset is XORed into `CryptEnd`
(90_conflicts C3). -/
def pCrypt (i : Nat) (src dst : StreamName) (ω : Nat) (unwrap : Bool) (s : State) : Result State :=
  let s := s.emit (.pCrypt unwrap)
  if src = dst then stop (.streamClash src)
  else
    match s.piston i, s.stream src, s.stream dst with
    | .ok S, .ok x, .ok o =>
      let m := cryptLoop unwrap (s.cfg.rs - ω) { state := S, inp := x, out := o, ω := ω }
      (((s.setPiston i m.state).setStream src m.inp).setStream dst m.out).xorEnc8 i s.cfg.cryptEnd m.ω
    | .error e, _, _ => .error e
    | _, .error e, _ => .error e
    | _, _, .error e => .error e

/-- What a `P.INJECT` moves. -/
structure InjectMove where
  state : Bytes
  inp : ByteStream
  ω : Nat
  deriving DecidableEq, Repr

/-- `while hasMore(X) and ω < Ra` of `P.INJECT` (41_piston R131); the count given is `Ra − ω`. -/
def injectLoop : Nat → InjectMove → InjectMove
  | 0, m => m
  | n + 1, m =>
    match m.inp.get with
    | some (x, rest) => injectLoop n { state := xorAt m.state m.ω x, inp := rest, ω := m.ω + 1 }
    | none => m

/-- The starting offset of `P.INJECT`: `Rs` when crypting, else 0 (41_piston R131). -/
def injectFrom (c : Cfg) (crypting : Bool) : Nat := if crypting then c.rs else 0

/-- The data bytes of `P.INJECT`, between its two offset bytes. -/
def injectData (i : Nat) (src : StreamName) (start : Nat) (s : State) : Result (Nat × State) :=
  match s.piston i, s.stream src with
  | .ok S, .ok x =>
    let m := injectLoop (s.cfg.ra - start) { state := S, inp := x, ω := start }
    .ok (m.ω, (s.setPiston i m.state).setStream src m.inp)
  | .error e, _ => .error e
  | _, .error e => .error e

/-- `P.INJECT(X, cryptingFlag)` of Piston `i` (41_piston R131). -/
def pInject (i : Nat) (src : StreamName) (crypting : Bool) (s : State) : Result State := do
  let s := s.emit (.pInject crypting)
  let _ ← s.piston i
  let s ← s.xorEnc8 i s.cfg.injectStart (injectFrom s.cfg crypting)
  let (ω, s) ← injectData i src (injectFrom s.cfg crypting) s
  s.xorEnc8 i s.cfg.injectEnd ω

/-- The end-of-message byte of `P.SPARK`: the sentinel 255 for a final spark with `l = 0`, `enc8(l)` for another final
spark, 0 for a non-final one (41_piston R132, 30_encoding R87). -/
def State.markEnd (s : State) (i l : Nat) (final : Bool) : Result State :=
  if final then
    if l = 0 then .ok (s.xorByte i s.cfg.eom 0xFF) else s.xorEnc8 i s.cfg.eom l
  else .ok (s.xorByte i s.cfg.eom 0x00)

/-- `P.SPARK(finalFlag, l)` of Piston `i` (41_piston R132): the sole place the permutation is invoked. -/
def pSpark (i l : Nat) (final : Bool) (s : State) : Result State := do
  let s := s.emit (.pSpark final)
  let _ ← s.piston i
  let s ← s.markEnd i l final
  let S ← s.piston i
  let (S', s) ← fApply S s
  .ok (s.setPiston i S')

/-- `P.GETTAG(T, l)` of Piston `i` (41_piston R133): the length is tested first, and the state never changes. -/
def pGetTag (i : Nat) (dst : StreamName) (l : Nat) (s : State) : Result State := do
  let s := s.emit .pGetTag
  let S ← s.piston i
  if s.cfg.rs < l then raise (.tagTooLong l) s
  else
    let t ← s.stream dst
    .ok (s.setStream dst (t.putAll (S.take l)))

/-- The meaning of `P.CRYPT`. -/
def execPCrypt (unwrap : Bool) (s : State) : Host.Outcome State Fault Refusal :=
  settle (pCrypt s.lineI s.lines.src s.lines.dst s.lineOffset unwrap s)

/-- The meaning of `P.INJECT`. -/
def execPInject (crypting : Bool) (s : State) : Host.Outcome State Fault Refusal :=
  settle (pInject s.lineI s.lines.src crypting s)

/-- The meaning of `P.SPARK`. -/
def execPSpark (final : Bool) (s : State) : Host.Outcome State Fault Refusal :=
  settle (pSpark s.lineI s.lineL final s)

/-- The meaning of `P.GETTAG`. -/
def execPGetTag (s : State) : Host.Outcome State Fault Refusal :=
  settle (pGetTag s.lineI s.lines.dst s.lineL s)

end Sys2Proof.Machine
end

