-- ==== Sys2Proof/Machine/Engine.lean ====
section
/-! DEFINITION. The Engine operations (42_engine R150 to R153, R156) over the phase machine of R158. -/

namespace Sys2Proof.Machine

/-- `E.CRYPT(I, O, unwrapFlag)` (42_engine R150). -/
def eCrypt (src dst : StreamName) (unwrap : Bool) (s : State) : Result State := do
  let s := s.emit (.eCrypt unwrap)
  if s.phaseE ≠ .fresh then raise (.phaseViolationE (encodeWord (.eCrypt unwrap)) s.phaseE) s
  else
    let s ← forEach (fun i s => pCrypt i src dst (s.et.getD i 0).toNat unwrap s) s.pistonIndices s
    let x ← s.stream src
    .ok (s.setPhaseE (if x.hasMore then .crypted else .endOfCrypt))

/-- `E.SPARK(finalFlag, l[0..Pi−1])` (42_engine R152): spark every Piston, then record the lengths in `Et`. -/
def eSpark (final : Bool) (l : List Nat) (s : State) : Result State := do
  let s := s.emit (.eSpark final)
  if l.length ≠ s.cfg.pi then stop (.noSuchLine l.length)
  else
    let s ← forEach (fun i s => pSpark i (l.getD i 0) final s) s.pistonIndices s
    .ok (s.setEt (l.map (BitVec.ofNat 8)))

/-- `cryptingFlag` of `E.INJECT`: the phase is `crypted` or `endOfCrypt` (42_engine R151). -/
def PhaseE.crypting (p : PhaseE) : Bool := p == .crypted || p == .endOfCrypt

/-- `E.INJECT(A)` (42_engine R151). The phase tested at the end is the one at entry. -/
def eInject (src : StreamName) (s : State) : Result State := do
  let s := s.emit .eInject
  let entry := s.phaseE
  if entry = .endOfMessage then raise (.phaseViolationE (encodeWord .eInject) entry) s
  else
    let s ← forEach (fun i s => pInject i src entry.crypting s) s.pistonIndices s
    let x ← s.stream src
    if entry = .crypted ∨ x.hasMore = true then
      let s ← eSpark false s.zeroLens s
      .ok (s.setPhaseE .fresh)
    else .ok (s.setPhaseE .endOfMessage)

/-- `E.GETTAGS(T, l[0..Pi−1])` (42_engine R153). The lengths are not tested before the sparks (90_conflicts C8). -/
def eGetTags (dst : StreamName) (l : List Nat) (s : State) : Result State := do
  let s := s.emit .eGetTags
  if s.phaseE ≠ .endOfMessage then raise (.phaseViolationE (encodeWord .eGetTags) s.phaseE) s
  else
    let s ← eSpark true l s
    let s ← forEach (fun i s => pGetTag i dst (l.getD i 0) s) s.pistonIndices s
    .ok (s.setPhaseE .fresh)

/-- The copies `Xt[i]` of `E.INJCOLL` before the diversifiers: the unread bytes of `X`, once for each Piston; `X` is
consumed entirely (42_engine R156). -/
def broadcast (src : StreamName) (x : ByteStream) (s : State) : State :=
  (s.setStream src x.consumed).setXt (List.replicate s.cfg.pi (ByteStream.ofBytes x.unread))

/-- `put(Xt[i], enc8(v))` (42_engine R156). -/
def putCopy (i v : Nat) (s : State) : Result State := do
  match enc8 v with
  | some e =>
    let x ← s.stream (.xt i)
    .ok (s.setStream (.xt i) (x.put e))
  | none => raise (.encode8Range v) s

/-- The diversifier of Piston `i`: `enc8(Pi)` then `enc8(i)` (42_engine R156, 30_encoding R87). -/
def diversify (i : Nat) (s : State) : Result State := do
  let s ← putCopy i s.cfg.pi s
  putCopy i i s

/-- The diversifiers of every copy, when asked (42_engine R156). -/
def diversifyCopies (diversifyFlag : Bool) (s : State) : Result State :=
  if diversifyFlag then forEach diversify s.pistonIndices s else .ok s

/-- The injection groups of `E.INJCOLL`: a non-final spark between groups, not after the last (42_engine R156). The
count given bounds the number of groups (log 13). -/
def injectGroups : Nat → State → Result State
  | 0, _ => stop .endlessLoop
  | n + 1, s => do
    let x ← s.stream (.xt 0)
    if x.hasMore then
      let s ← forEach (fun i s => pInject i (.xt i) false s) s.pistonIndices s
      let x ← s.stream (.xt 0)
      if x.hasMore then
        let s ← eSpark false s.zeroLens s
        injectGroups n s
      else injectGroups n s
    else .ok s

/-- A bound on the groups: one for each byte of `Xt[0]`, and the last test (70_reset R252; log 13). -/
def State.groupBound (s : State) : Nat := ((s.xt.getD 0 ByteStream.empty).unread).length + 1

/-- `E.INJCOLL(X, diversifyFlag)` (42_engine R156). The copies are discarded at its end (10_state R32). -/
def eInjColl (src : StreamName) (diversifyFlag : Bool) (s : State) : Result State := do
  let s := s.emit (.eInjColl diversifyFlag)
  if s.phaseE ≠ .fresh then raise (.phaseViolationE (encodeWord (.eInjColl diversifyFlag)) s.phaseE) s
  else
    let x ← s.stream src
    let s := broadcast src x s
    let s ← diversifyCopies diversifyFlag s
    let s ← injectGroups s.groupBound s
    .ok ((s.setXt []).setPhaseE .endOfMessage)

/-- `E.INJCOLL` issued by itself. An input `Xt[k]` would be a copy that the operation makes and reads at once: it stops
(log 6), after the phase test, which comes first in every Engine operation (60_exceptions R224 item 4). -/
def eInjCollFrom (src : StreamName) (diversifyFlag : Bool) (s : State) : Result State :=
  match src with
  | .xt k => if s.phaseE = .fresh then stop (.streamClash (.xt k)) else eInjColl (.xt k) diversifyFlag s
  | .tPrime => eInjColl .tPrime diversifyFlag s
  | .port p => eInjColl (.port p) diversifyFlag s

/-- The meaning of `E.CRYPT`. -/
def execECrypt (unwrap : Bool) (s : State) : Host.Outcome State Fault Refusal :=
  settle (eCrypt s.lines.src s.lines.dst unwrap s)

/-- The meaning of `E.INJECT`. -/
def execEInject (s : State) : Host.Outcome State Fault Refusal := settle (eInject s.lines.src s)

/-- The meaning of `E.SPARK`. -/
def execESpark (final : Bool) (s : State) : Host.Outcome State Fault Refusal :=
  settle (eSpark final s.lineLens s)

/-- The meaning of `E.GETTAGS`. -/
def execEGetTags (s : State) : Host.Outcome State Fault Refusal :=
  settle (eGetTags s.lines.dst s.lineLens s)

/-- The meaning of `E.INJCOLL`. -/
def execEInjColl (diversifyFlag : Bool) (s : State) : Host.Outcome State Fault Refusal :=
  settle (eInjCollFrom s.lines.src diversifyFlag s)

end Sys2Proof.Machine
end

