-- ==== Sys2Proof/Machine/Flags.lean ====
section
/-! DEFINITION. The flags and the status port (10_state R26, R27; 30_encoding R91, R92), and the one comparison of the
block (43_motorist R179). -/

namespace Sys2Proof.Machine

/-- The code of a cause on the `CAUSE` field (60_exceptions R210). -/
def Cause.code : Cause → BitVec 4
  | .none => 0
  | .phaseViolation => 1
  | .rateOrder => 2
  | .absorbRateTooLarge => 3
  | .tagTooLong => 4
  | .keyPackTooLarge => 5
  | .encode8Range => 6
  | .stateLengthMismatch => 7
  | .illegalCommand => 8
  | .configUnsupported => 9

/-- The code of `phase_E` on the status port (30_encoding R91). -/
def PhaseE.code : PhaseE → BitVec 2
  | .fresh => 0
  | .crypted => 1
  | .endOfCrypt => 2
  | .endOfMessage => 3

/-- The code of `phase_M` on the status port (30_encoding R91). -/
def PhaseM.code : PhaseM → BitVec 2
  | .ready => 0
  | .riding => 1
  | .failed => 2

/-- The status port, all fields read-only to the host (30_encoding R92). -/
structure Status where
  phaseM : BitVec 2
  phaseE : BitVec 2
  fault : Bool
  cause : BitVec 4
  result : Bool
  done : Bool
  et : List Byte
  deriving DecidableEq, Repr

/-- What the host reads on the status port. `RESULT` is undefined after a command that raised a fault (10_state R27,
30_encoding R92): a free value (log 8). -/
def State.status (s : State) : Status :=
  { phaseM := s.phaseM.code
    phaseE := s.phaseE.code
    fault := s.fault
    cause := s.cause.code
    result := if s.fault then Config.resultAfterFault s.faultCount else s.result
    done := s.done
    et := s.et }

/-- The loop of `tag_equal`: every byte pair is examined whether or not an earlier pair differed (43_motorist R179). -/
def tagDiff : Byte → Bytes → Bytes → Byte
  | d, a :: as, b :: bs => tagDiff (d ||| (a ^^^ b)) as bs
  | d, _, _ => d

/-- `tag_equal(a, b)` (43_motorist R179). -/
def tagEqual (a b : Bytes) : Bool :=
  if a.length ≠ b.length then false else tagDiff 0 a b == 0

end Sys2Proof.Machine
end

