-- ==== Sys2Proof/Machine/Motorist.lean ====
section
/-! DEFINITION. The Motorist operations: the two host commands (43_motorist R173, R175) and the two internal protocols
(R176, R177). -/

namespace Sys2Proof.Machine

/-- `M.KNOT()`, the ratchet (43_motorist R176). `T′` is created empty and discarded at the end (10_state R32). -/
def mKnot (s : State) : Result State := do
  let s := (s.emit .mKnot).setTPrime ByteStream.empty
  let s ← eGetTags .tPrime s.knotLens s
  let s ← eInjColl .tPrime false s
  .ok (s.setTPrime ByteStream.empty)

/-- The ratchet when it is asked for. -/
def knotIf (asked : Bool) (s : State) : Result State := if asked then mKnot s else .ok s

/-- The end of the tag protocol once the tag is in `T′`: write it to `T` when wrapping, compare it with the whole of `T`
when unwrapping (43_motorist R177, R179). -/
def settleTag (unwrap : Bool) (s : State) : Bool × State :=
  if !unwrap then (true, s.setPort .tag (s.tag.clear.putAll s.tPrime.buf))
  else if tagEqual s.tPrime.buf s.tag.buf then (true, s)
  else (false, s.setPhaseM .failed)

/-- `M.HANDLETAG(wantTag, T, unwrapFlag)`, the tag protocol (43_motorist R177), with its result. -/
def mHandleTag (wantTag unwrap : Bool) (s : State) : Result (Bool × State) := do
  let s := (s.emit (.mHandleTag wantTag unwrap)).setTPrime ByteStream.empty
  if !wantTag then
    let s ← eGetTags .tPrime s.zeroLens s
    .ok (true, s.setTPrime ByteStream.empty)
  else
    let s ← eGetTags .tPrime s.tagLens s
    .ok ((settleTag unwrap s).1, (settleTag unwrap s).2.setTPrime ByteStream.empty)

/-- The end of `M.START`: on success the phase is `riding`; the command completes (43_motorist R173). -/
def finishStart (r : Bool × State) : State := (if r.1 then r.2.setPhaseM .riding else r.2).complete r.1

/-- `M.START` (43_motorist R173). The block does not parse `SUV` (90_conflicts C5). -/
def mStart (wantTag unwrap forget : Bool) (s : State) : Result State := do
  if s.phaseM ≠ .ready then raise (.phaseViolationM (encodeWord (.mStart wantTag unwrap forget)) s.phaseM) s
  else
    let s ← eInjColl (.port .suv) true s
    let s ← knotIf forget s
    let r ← mHandleTag wantTag unwrap s
    .ok (finishStart r)

/-- `while hasMore(I): E.CRYPT(I, O, u); E.INJECT(A)` (43_motorist R175). The count given bounds the iterations (log 13). -/
def wrapBlocks (unwrap : Bool) : Nat → State → Result State
  | 0, _ => stop .endlessLoop
  | n + 1, s => do
    if s.inp.hasMore then
      let s ← eCrypt (.port .inp) (.port .out) unwrap s
      let s ← eInject (.port .ad) s
      wrapBlocks unwrap n s
    else .ok s

/-- `while hasMore(A): E.INJECT(A)` (43_motorist R175). The count given bounds the iterations (log 13). -/
def wrapRest : Nat → State → Result State
  | 0, _ => stop .endlessLoop
  | n + 1, s => do
    if s.ad.hasMore then
      let s ← eInject (.port .ad) s
      wrapRest n s
    else .ok s

/-- The one injection of nothing for an empty message (43_motorist R175). -/
def wrapEmpty (s : State) : Result State :=
  if !s.inp.hasMore && !s.ad.hasMore then eInject (.port .ad) s else .ok s

/-- The body of `M.WRAP` before the ratchet: one injection of nothing for an empty message, the crypt blocks, the rest of
the associated data. At most one crypt block moves no byte (70_reset R252), and so does at most one injection of the rest:
the first, entered in another phase than `fresh` with `Rs = Ra`. So each loop has two turns more than there are bytes, the
last one for its last test (log 13). -/
def wrapBody (unwrap : Bool) (s : State) : Result State := do
  let s ← wrapEmpty s
  let s ← wrapBlocks unwrap (s.inp.unread.length + 2) s
  wrapRest (s.ad.unread.length + 2) s

/-- The end of `M.WRAP`: `O` is cleared on authentication failure; the command completes (43_motorist R175, R180). -/
def finishWrap (r : Bool × State) : State := (if r.1 then r.2 else r.2.setPort .out r.2.out.clear).complete r.1

/-- `M.WRAP` (43_motorist R175): the ratchet runs when there is more than one Piston or `forgetFlag` is set; the tag
protocol always runs with a tag; `O` is cleared on authentication failure. -/
def mWrap (unwrap forget : Bool) (s : State) : Result State := do
  if s.phaseM ≠ .riding then raise (.phaseViolationM (encodeWord (.mWrap unwrap forget)) s.phaseM) s
  else
    let s ← wrapBody unwrap s
    let s ← knotIf (decide (1 < s.cfg.pi) || forget) s
    let r ← mHandleTag true unwrap s
    .ok (finishWrap r)

/-- `M.HANDLETAG` issued by itself: its result goes to the result line (log 26). -/
def handleTagAlone (wantTag unwrap : Bool) (s : State) : Result State := do
  let r ← mHandleTag wantTag unwrap s
  .ok (r.2.setRet r.1)

/-- The meaning of `M.START`. -/
def execMStart (wantTag unwrap forget : Bool) (s : State) : Host.Outcome State Fault Refusal :=
  settle (mStart wantTag unwrap forget s)

/-- The meaning of `M.WRAP`. -/
def execMWrap (unwrap forget : Bool) (s : State) : Host.Outcome State Fault Refusal :=
  settle (mWrap unwrap forget s)

/-- The meaning of `M.KNOT`. -/
def execMKnot (s : State) : Host.Outcome State Fault Refusal := settle (mKnot s)

/-- The meaning of `M.HANDLETAG`. -/
def execMHandleTag (wantTag unwrap : Bool) (s : State) : Host.Outcome State Fault Refusal :=
  settle (handleTagAlone wantTag unwrap s)

end Sys2Proof.Machine
end

