-- ==== Sys2Proof/Machine/Dispatch.lean ====
section
/-! DEFINITION. The dispatch: one arm for each operation of 30_encoding R84, each a direct call of its meaning. -/

namespace Sys2Proof.Machine

def exec (i : Instr) (s : State) : Host.Outcome State Fault Refusal :=
  match i with
  -- the Permutation (40_permutation)
  | .fTheta => Sys2Proof.Machine.execFTheta s
  | .fRhoPi => Sys2Proof.Machine.execFRhoPi s
  | .fChi => Sys2Proof.Machine.execFChi s
  | .fIota => Sys2Proof.Machine.execFIota s
  | .fRound => Sys2Proof.Machine.execFRound s
  | .fApply => Sys2Proof.Machine.execFApply s
  -- the Piston (41_piston)
  | .pCrypt unwrap => Sys2Proof.Machine.execPCrypt unwrap s
  | .pInject crypting => Sys2Proof.Machine.execPInject crypting s
  | .pSpark final => Sys2Proof.Machine.execPSpark final s
  | .pGetTag => Sys2Proof.Machine.execPGetTag s
  -- the Engine (42_engine)
  | .eCrypt unwrap => Sys2Proof.Machine.execECrypt unwrap s
  | .eInject => Sys2Proof.Machine.execEInject s
  | .eSpark final => Sys2Proof.Machine.execESpark final s
  | .eGetTags => Sys2Proof.Machine.execEGetTags s
  | .eInjColl diversify => Sys2Proof.Machine.execEInjColl diversify s
  -- the Motorist (43_motorist)
  | .mStart wantTag unwrap forget => Sys2Proof.Machine.execMStart wantTag unwrap forget s
  | .mWrap unwrap forget => Sys2Proof.Machine.execMWrap unwrap forget s
  | .mKnot => Sys2Proof.Machine.execMKnot s
  | .mHandleTag wantTag unwrap => Sys2Proof.Machine.execMHandleTag wantTag unwrap s

end Sys2Proof.Machine
end

