-- ==== Sys2Proof/Machine/Admission.lean ====
section
/-! DEFINITION. Configuration admission (00_scope R8) and reset (70_reset R240). -/

namespace Sys2Proof

/-- The first admission item a configuration fails, in the order of 60_exceptions R224 item 1 (the order of 00_scope
R8), as the fault it raises; `none` when the configuration is admitted. The last test is `c > 0`, the legal value of
00_scope R5 (log 12). `info` is "the offending parameter" (R210): where a test compares `tau/8` or `c′/8` with `Rs`, the
spec does not say which of the two it is; DESIGN CHOICE, `tau` and `c` (log 27). -/
def Cfg.refusal (c : Cfg) : Option Machine.Raise :=
  if !c.hasLayout then some (.configUnsupported .b)
  else if c.nr = 0 ∨ nominalRounds c.b < c.nr then some (.configUnsupported .nr)
  else if c.ra < c.rs then some (.rateOrder c.rs c.ra)
  else if c.stateBytes < c.ra + 4 then some (.absorbRateTooLarge c.ra c.stateBytes)
  else if c.tau % 8 ≠ 0 then some (.configUnsupported .tau)
  else if c.rs < c.tagBytes then some (.configUnsupported .tau)
  else if c.rs < c.knotBytes then some (.configUnsupported .c)
  else if c.pi = 0 ∨ 255 < c.pi then some (.configUnsupported .pi)
  else if 255 < c.ra then some (.configUnsupported .ra)
  else if c.c = 0 then some (.configUnsupported .c)
  else none

/-- The configuration is admitted (00_scope R8). -/
def Cfg.admitted (c : Cfg) : Bool := c.refusal.isNone

end Sys2Proof

namespace Sys2Proof.Machine

/-- Reset (70_reset R240): sample `cfg`, test admission; every piece of state at its reset value; when the
configuration is not admitted, `FAULT <- 1` and `CAUSE` the fault's code, "every other state at its reset value". -/
def State.applyReset (s : State) : State :=
  match s.cfgPort.refusal with
  | none => s.cleared
  | some r => { s.cleared with fault := true, cause := r.cause, faultCount := s.faultCount + 1 }

/-- The outcome of a reset: the block after it, or the fault admission raises (60_exceptions R224 item 1, R226; log 3). -/
def resetOutcome (s : State) : Host.Outcome State Fault Refusal :=
  match s.cfgPort.refusal with
  | none => .next s.applyReset
  | some r => .fault (.latched r s.applyReset)

end Sys2Proof.Machine
end

