-- ==== Sys2Proof/Machine/Fetch.lean ====
section
/-! DEFINITION. What the block does next (10_state R30): the word an owning operation issues, else the host's next move;
command acceptance (44_host_interface R191, 60_exceptions R224); where the host's question puts a word. -/

namespace Sys2Proof.Machine

/-- What comes next: an operation to run on a state, or an outcome reached without running one. -/
inductive Fetched where
  | run (i : Instr) (s : State)
  | answer (o : Host.Outcome State Fault Refusal)
  deriving Repr

/-- Acceptance of the word on `cmd` (44_host_interface R191 item 2; 60_exceptions R224 item 2): ignored while
`FAULT = 1`; `IllegalCommand` for a reserved or internal word, with no other state changed (R220); else `DONE` is
cleared and the command runs. -/
def acceptCommand (word : Byte) (s : State) : Fetched :=
  if s.fault then .answer (.next s)
  else
    match decode [word] with
    | .ok (i, _) =>
      if i.hostIssuable then .run i { s with done := false }
      else .answer (latch (.illegalCommand word) s)
    | .error _ => .answer (latch (.illegalCommand word) s)

/-- An internal word on the issue line (30_encoding R85; log 4): nothing happens while `FAULT = 1` (10_state R26); a
reserved word is never produced internally (93 U2). -/
def acceptIssue (word : Byte) (s : State) : Fetched :=
  if s.fault then .answer (.next s)
  else
    match decode [word] with
    | .ok (i, _) => .run i s
    | .error _ => .answer (.refused (.reservedIssue word))

/-- One move of the host (44_host_interface R190, R194). -/
def hostMove (m : HostMove) (s : State) : Fetched :=
  match m with
  | .config c => .answer (.next { s with cfgPort := c })
  | .reset => .answer (resetOutcome s)
  | .present p content => .answer (.next (s.setPort p (ByteStream.ofBytes content)))
  | .append p content => .answer (.next (s.setPort p ((s.port p).putAll content)))
  | .command word => acceptCommand word s

/-- The next action: an issued internal word first, then the host's next move; idle when there is neither (10_state R30,
60_exceptions R233; log 23). -/
def fetch (s : State) : Fetched :=
  match s.issue with
  | some word => acceptIssue word { s with issue := none }
  | none =>
    match s.host with
    | [] => .answer (.next s)
    | m :: rest => hostMove m { s with host := rest }

/-- The operation word placed where the next step fetches it: a word the host may issue, or a reserved one, as the host's
next command; an internal word on the issue line. -/
def placeWord (word : Byte) (s : State) : State :=
  match decodeWord word with
  | some i =>
    if i.hostIssuable then { s with issue := none, host := .command word :: s.host }
    else { s with issue := some word }
  | none => { s with issue := none, host := .command word :: s.host }

end Sys2Proof.Machine
end

