-- ==== Sys2Proof/Machine/Step.lean ====
section
/-! DEFINITION. One step: what `fetch` says comes next, and the operation it names run by `exec`. A step takes one host
move, or one issued internal operation, to its end (44_host_interface R191). -/

namespace Sys2Proof.Machine

/-- One step of the block (44_host_interface R191: a command is one step). -/
def step (s : State) : Host.Outcome State Fault Refusal :=
  match fetch s with
  | .run i s' => exec i s'
  | .answer o => o

/-- The state with an operation word placed where `step` fetches its next instruction. Every word has 8 bits. -/
def State.withFetchWord (s : State) (_nbits w : Nat) : State := placeWord (BitVec.ofNat 8 w) s

end Sys2Proof.Machine
end

