-- ==== Sys2Proof/Machine/HostSide.lean ====
section
/-! DEFINITION. The host's side of the interface: the key pack (44_host_interface R192, R193) and the written syntax of
host programs as lists of host moves (30_encoding R93, R94). -/

namespace Sys2Proof.Machine

/-- `keypack(K, Lk) = enc8(Lk) ∥ K ∥ 0x01 ∥ 0x00^(Lk − len(K) − 2)` with the `Lk` of a configuration (44_host_interface
R192, 00_scope R5), which raises `KeyPackTooLarge` when `len(K) + 2 > Lk` and `Encode8Range` when `Lk > 255` (R193). The
block never runs it. -/
def keypack (c : Cfg) (K : Bytes) : Except Raise Bytes :=
  if c.lk < K.length + 2 then .error (.keyPackTooLarge K.length c.lk)
  else
    match enc8 c.lk with
    | some e => .ok ([e] ++ K ++ [0x01] ++ List.replicate (c.lk - K.length - 2) 0)
    | none => .error (.encode8Range c.lk)

/-- `SUV = keypack(K, Lk) ∥ N` (44_host_interface R192). -/
def sessionMaterial (c : Cfg) (K N : Bytes) : Except Raise Bytes :=
  match keypack c K with
  | .ok pack => .ok (pack ++ N)
  | .error r => .error r

/-- The line `CONFIG b= nr= Pi= c= tau= Rs= Ra=` (30_encoding R93). The line has no `Lk`: it gets the default of
00_scope R7 (log 28). -/
def configLine (b nr pi c tau rs ra : Nat) : List HostMove :=
  [.config { b := b, nr := nr, pi := pi, c := c, tau := tau, rs := rs, ra := ra, lk := defaultLk b c }]

/-- The line `CONFIG <name>` (30_encoding R93, R94). -/
def configNamed (n : NamedSet) : List HostMove := [.config n.cfg]

/-- The line `RESET` (30_encoding R93). -/
def resetLine : List HostMove := [.reset]

/-- The line `START t= u= g= SUV= T=`: the stream arguments, `O` empty, then the word `0xC0 | t<<2 | u<<1 | g`
(30_encoding R93). -/
def startLine (t u g : Bool) (suv tag : Bytes) : List HostMove :=
  [.present .suv suv, .present .tag tag, .present .out [], .command (encodeWord (.mStart t u g))]

/-- The line `WRAP u= g= I= A= T=`: the stream arguments, `O` empty, then the word `0xC8 | u<<1 | g` (30_encoding R93). -/
def wrapLine (u g : Bool) (inp ad tag : Bytes) : List HostMove :=
  [.present .inp inp, .present .ad ad, .present .tag tag, .present .out [], .command (encodeWord (.mWrap u g))]

/-- The pseudo-command `UNWRAP g= I= A= T=` (30_encoding R94). -/
def unwrapLine (g : Bool) (inp ad tag : Bytes) : List HostMove := wrapLine true g inp ad tag

end Sys2Proof.Machine
end

