-- ==== Sys2Proof/Safety.lean ====
section
/-! DEFINITION. The terms claims use: the shape every state keeps, the promise every host-driven state keeps, the end of
a run, and what the block does past a fault. -/

namespace Sys2Proof.Machine

/-- A stream's cursor is inside it (20_memory R59). -/
def ByteStream.ok (x : ByteStream) : Bool := decide (x.pos ≤ x.buf.length)

/-- Every stream of the state has its cursor inside it. -/
def State.streamsOk (s : State) : Bool :=
  s.suv.ok && s.inp.ok && s.ad.ok && s.tag.ok && s.out.ok && s.tPrime.ok && s.xt.all ByteStream.ok

/-- The shape of a state of the block. -/
structure State.Shape (s : State) : Prop where
  /-- `Pi` buffers of `stateBytes` bytes (10_state R21) -/
  memory : Memory.wf s.cfg s.pistons = true
  /-- one offset for each Piston (10_state R23) -/
  offsets : s.et.length = s.cfg.pi
  /-- one length line for each Piston (30_encoding R81) -/
  lengths : s.lines.lens.length = s.cfg.pi
  /-- every cursor is inside its stream (20_memory R59) -/
  streams : s.streamsOk = true
  /-- `FAULT` is set exactly while a cause is recorded (10_state R26) -/
  latch : s.fault = true ↔ s.cause ≠ .none
  /-- a block that has not faulted runs an admitted configuration (00_scope R8, 70_reset R240) -/
  config : s.fault = false → s.cfg.admitted = true

/-- A block that is built: an admitted configuration and its Pistons (00_scope R8, 42_engine R160). Every state of the
shape that has not faulted is built. -/
structure State.Built (s : State) : Prop where
  admitted : s.cfg.admitted = true
  memory : Memory.wf s.cfg s.pistons = true

/-- What a state driven by the host alone keeps between commands: no word is issued from outside its owner, the internal
buffers are discarded, and while there is no fault the Engine is `fresh` (42_engine R159), its offsets are inside the
squeezing rate (10_state R23), and `RESULT` says whether a started session lives (43_motorist R171). -/
structure State.HostDriven (s : State) : Prop where
  issue : s.issue = none
  tPrime : s.tPrime = ByteStream.empty
  xt : s.xt = []
  fresh : s.fault = false → s.phaseE = .fresh
  offsets : s.fault = false → ∀ e ∈ s.et, e.toNat ≤ s.cfg.rs
  riding : s.phaseM = .riding → s.result = true
  failed : s.phaseM = .failed → s.result = false

/-- The end of a run (44_host_interface R196): no move is left, `FAULT = 0`, and no fault was entered before: "a faulted
run is never final" (60_exceptions R226), also when a reset has left the faulted condition since. `phase_M = failed` with
`FAULT = 0` is a legal final state. -/
def State.final (s : State) : Bool := s.host.isEmpty && s.issue.isNone && !s.fault && s.faultCount == 0

/-- The state an outcome leaves the block in: the next one, or the one after fault entry (60_exceptions R225, R226). -/
def Leaves (o : Host.Outcome State Fault Refusal) (t : State) : Prop := o = .next t ∨ ∃ r, o = .fault (.latched r t)

/-- What the block itself does, past a fault too: it is then in the faulted condition, ignores words (10_state R26) and is
left by reset (60_exceptions R227, 70_reset R240). For claims about that; a run of the model ends at the fault (R226). -/
def blockStep (s : State) : Host.Outcome State Fault Refusal :=
  match step s with
  | .fault (.latched _ t) => .next t
  | o => o

/-- The block with `blockStep` for its step (log 3). -/
def blockCore : Host.Core :=
  { State := State, Fault := Fault, Refusal := Refusal, step := blockStep, reset := State.reset }

/-- The stream with its cursor `n` further: `n` bytes consumed. -/
def ByteStream.advance (x : ByteStream) (n : Nat) : ByteStream := { x with pos := x.pos + n }

/-! The duplex functions: what each Piston operation does to one Piston's bytes, as pure functions of the state and the
data. Claims about the Engine and the Motorist are stated with them; claims about `P.CRYPT`, `P.INJECT` and `P.SPARK`
say byte by byte what they are. -/

/-- A state with data XORed in from offset `ω` on (41_piston R131). -/
def xorData : Bytes → Nat → Bytes → Bytes
  | S, _, [] => S
  | S, ω, x :: xs => xorData (xorAt S ω x) (ω + 1) xs

/-- A state after data has been crypted from offset `ω` on: the byte received when unwrapping, else the byte emitted
(41_piston R130). -/
def cryptData (unwrap : Bool) : Bytes → Nat → Bytes → Bytes
  | S, _, [] => S
  | S, ω, x :: xs => cryptData unwrap (storeAt S ω (if unwrap then x else byteAt S ω ^^^ x)) (ω + 1) xs

/-- The bytes a `P.CRYPT` emits (41_piston R130). -/
def duplexOutput (ω : Nat) (S data : Bytes) : Bytes := List.zipWith (fun s x => s ^^^ x) (S.drop ω) data

/-- A Piston's state after `P.CRYPT` has moved `data` from offset `ω` on (41_piston R130). -/
def duplexCrypt (c : Cfg) (unwrap : Bool) (ω : Nat) (S data : Bytes) : Bytes :=
  xorAt (cryptData unwrap S ω data) c.cryptEnd (BitVec.ofNat 8 (ω + data.length))

/-- A Piston's state after `P.INJECT` has moved `data` from its starting offset on (41_piston R131). -/
def duplexInject (c : Cfg) (crypting : Bool) (S data : Bytes) : Bytes :=
  xorAt
    (xorData (xorAt S c.injectStart (BitVec.ofNat 8 (injectFrom c crypting))) (injectFrom c crypting) data)
    c.injectEnd (BitVec.ofNat 8 (injectFrom c crypting + data.length))

/-- The byte `P.SPARK` XORs into `EOM` (41_piston R132, 30_encoding R87). -/
def endByte (final : Bool) (l : Nat) : Byte :=
  if final then (if l = 0 then 0xFF else BitVec.ofNat 8 l) else 0x00

/-- A Piston's state after `P.SPARK` (41_piston R132). -/
def duplexSpark (c : Cfg) (final : Bool) (l : Nat) (S : Bytes) : Bytes :=
  permute c.w c.nr c.start (xorAt S c.eom (endByte final l))

/-- A Piston's state after `E.INJCOLL` has fed it `data` in groups of at most `Ra` bytes, with a non-final spark between
groups and not after the last (42_engine R156). The count bounds the groups. -/
def absorbGroups (c : Cfg) : Nat → Bytes → Bytes → Bytes
  | 0, S, _ => S
  | n + 1, S, data =>
    if data = [] then S
    else if c.ra < data.length then
      absorbGroups c n (duplexSpark c false 0 (duplexInject c false S (data.take c.ra))) (data.drop c.ra)
    else duplexInject c false S data

/-- The same with the count that is always enough: one group for each byte. -/
def duplexAbsorb (c : Cfg) (S data : Bytes) : Bytes := absorbGroups c data.length S data

/-- What Piston `i` is fed by `E.INJCOLL`: the broadcast bytes, and its diversifier when asked (42_engine R156). -/
def collectiveInput (c : Cfg) (diversifyFlag : Bool) (i : Nat) (data : Bytes) : Bytes :=
  if diversifyFlag then data ++ [BitVec.ofNat 8 c.pi, BitVec.ofNat 8 i] else data

/-- The bytes dealt to the Piston before which `done` bytes of room stand: the next `room` bytes (20_memory R71,
42_engine R157 a). -/
def segment (data : Bytes) (done room : Nat) : Bytes := (data.drop done).take room

/-- The room of a Piston in a `P.INJECT`: `Ra` less the starting offset (41_piston R131, 42_engine R157 a). -/
def injectRoom (c : Cfg) (crypting : Bool) : Nat := c.ra - injectFrom c crypting

/-- The room of Piston `i` in an `E.CRYPT`: `Rs − Et[i]` (20_memory R71). -/
def State.cryptRoom (s : State) (i : Nat) : Nat := s.cfg.rs - (s.et.getD i 0).toNat

/-- The room of the Pistons before Piston `i` in an `E.CRYPT`. -/
def State.cryptRoomBefore (s : State) (i : Nat) : Nat := ((List.range i).map s.cryptRoom).sum

/-- The Pistons' buffers after every one has been dealt its segment of `data` and injected it (42_engine R151). -/
def injectAll (c : Cfg) (crypting : Bool) (data : Bytes) (ps : List Bytes) : List Bytes :=
  ps.mapIdx fun i S =>
    duplexInject c crypting S (segment data (i * injectRoom c crypting) (injectRoom c crypting))

/-- The Pistons' buffers after every one has sparked with its own length (42_engine R152). -/
def sparkAll (c : Cfg) (final : Bool) (l : List Nat) (ps : List Bytes) : List Bytes :=
  ps.mapIdx fun i S => duplexSpark c final (l.getD i 0) S

/-- The bytes dealt to Piston `i` in an `E.CRYPT` (20_memory R71). -/
def State.cryptSegment (s : State) (data : Bytes) (i : Nat) : Bytes :=
  segment data (s.cryptRoomBefore i) (s.cryptRoom i)

/-- The Pistons' buffers after an `E.CRYPT` of `data` (42_engine R150). -/
def State.cryptAll (s : State) (unwrap : Bool) (data : Bytes) : List Bytes :=
  s.pistons.mapIdx fun i S => duplexCrypt s.cfg unwrap (s.et.getD i 0).toNat S (s.cryptSegment data i)

/-- The bytes an `E.CRYPT` of `data` emits, in ascending order of Pistons (42_engine R150, R157 a). -/
def State.cryptOut (s : State) (data : Bytes) (n : Nat) : Bytes :=
  (List.range n).flatMap fun i =>
    duplexOutput (s.et.getD i 0).toNat (s.pistons.getD i []) (s.cryptSegment data i)

/-- The tags `E.GETTAGS` gathers, in ascending order of Pistons (42_engine R153, R157 c): `l[i]` bytes of each state. -/
def gatherTags (ps : List Bytes) (l : List Nat) : Bytes :=
  (List.range l.length).flatMap fun i => (ps.getD i []).take (l.getD i 0)

/-- The ratchet tags of all Pistons: `c′/8` bytes of each, in ascending order (43_motorist R176). -/
def knotTags (c : Cfg) (ps : List Bytes) : Bytes :=
  gatherTags (sparkAll c true (List.replicate c.pi c.knotBytes) ps) (List.replicate c.pi c.knotBytes)

/-- The Pistons' buffers after the ratchet: a final spark with lengths `c′/8`, then every Piston absorbs all the ratchet
tags (43_motorist R176). -/
def knotAll (c : Cfg) (ps : List Bytes) : List Bytes :=
  (sparkAll c true (List.replicate c.pi c.knotBytes) ps).map fun S => duplexAbsorb c S (knotTags c ps)

/-- The lengths the tag protocol asks for: `tau/8` of Piston 0 and 0 of the others when a tag is wanted, else 0 of all
(43_motorist R177). -/
def tagRequest (c : Cfg) (wantTag : Bool) : List Nat :=
  (List.range c.pi).map fun i => if wantTag ∧ i = 0 then c.tagBytes else 0

/-- The tag the tag protocol squeezes from buffers it has sparked: the first `tau/8` bytes of Piston 0 (43_motorist R177). -/
def squeezedTag (c : Cfg) (ps : List Bytes) : Bytes := (ps.getD 0 []).take c.tagBytes

/-- The rotation+permutation step, tabulated: source `x`, source `y`, unreduced offset (40_permutation R106). -/
def rotationTable : List (Nat × Nat × Nat) :=
  [(1, 0, 1), (0, 2, 3), (2, 1, 6), (1, 2, 10), (2, 3, 15), (3, 3, 21), (3, 0, 28), (0, 1, 36), (1, 3, 45), (3, 1, 55),
    (1, 4, 66), (4, 4, 78)] ++
  [(4, 0, 91), (0, 3, 105), (3, 4, 120), (4, 3, 136), (3, 2, 153), (2, 2, 171), (2, 0, 190), (0, 4, 210), (4, 2, 231),
    (2, 4, 253), (4, 1, 276), (1, 1, 300)]

/-- The 24 round constants of the 64-bit lanes, as 40_permutation R102 prints them. -/
def roundConstantTable : List (BitVec 64) :=
  [0x0000000000000001, 0x0000000000008082, 0x800000000000808A, 0x8000000080008000, 0x000000000000808B,
    0x0000000080000001, 0x8000000080008081, 0x8000000000008009, 0x000000000000008A, 0x0000000000000088,
    0x0000000080008009, 0x000000008000000A] ++
  [0x000000008000808B, 0x800000000000008B, 0x8000000000008089, 0x8000000000008003, 0x8000000000008002,
    0x8000000000000080, 0x000000000000800A, 0x800000008000000A, 0x8000000080008081, 0x8000000000008080,
    0x0000000080000001, 0x8000000080008008]

/-! The loops of `M.WRAP` as 43_motorist R175 writes them, with no bound on their turns. -/

/-- `while hasMore(I): E.CRYPT(I, O, u); E.INJECT(A)` runs from one state to another (43_motorist R175). -/
inductive BlockLoop (unwrap : Bool) : State → State → Prop where
  | stop {s : State} (h : s.inp.hasMore = false) : BlockLoop unwrap s s
  | turn {s s₁ s₂ t : State} (h : s.inp.hasMore = true)
      (crypt : eCrypt (.port .inp) (.port .out) unwrap s = .ok s₁) (inject : eInject (.port .ad) s₁ = .ok s₂)
      (rest : BlockLoop unwrap s₂ t) : BlockLoop unwrap s t

/-- `while hasMore(A): E.INJECT(A)` runs from one state to another (43_motorist R175). -/
inductive RestLoop : State → State → Prop where
  | stop {s : State} (h : s.ad.hasMore = false) : RestLoop s s
  | turn {s s₁ t : State} (h : s.ad.hasMore = true) (inject : eInject (.port .ad) s = .ok s₁) (rest : RestLoop s₁ t) :
      RestLoop s t

/-! What operations leave alone. -/

/-- The configuration, the host's side, the latch, the operand lines: what no Piston or Engine operation writes. -/
structure State.SameControl (s t : State) : Prop where
  cfg : t.cfg = s.cfg
  cfgPort : t.cfgPort = s.cfgPort
  phaseM : t.phaseM = s.phaseM
  fault : t.fault = s.fault
  cause : t.cause = s.cause
  result : t.result = s.result
  done : t.done = s.done
  lines : t.lines = s.lines
  issue : t.issue = s.issue
  host : t.host = s.host
  faultCount : t.faultCount = s.faultCount

/-- Every stream, port or internal, but those named. -/
def State.SameStreamsBut (s t : State) (ns : List StreamName) : Prop := ∀ n, n ∉ ns → t.stream? n = s.stream? n

/-- Every Piston but one (10_state R22). -/
def State.SamePistonsBut (s t : State) (i : Nat) : Prop := ∀ j, j ≠ i → t.pistons[j]? = s.pistons[j]?

end Sys2Proof.Machine
end

