-- ==== Sys2Proof/WellFormed.lean ====
section
/-! DEFINITION. Well-formedness of an operation together with its operands. The flags of a word are Bools, so every
`Instr` is well formed as a word (93 U10: all flag combinations of the listed words are defined); what can be ill
formed is an operand on the lines. One check for each operand of 30_encoding R84, with the range its rule gives. -/

namespace Sys2Proof

/-- `i` names one of the `Pi` Pistons (10_state R21). -/
def Lines.pistonOk (c : Cfg) (o : Lines) : Bool := decide (o.i.toNat < c.pi)

/-- `0 ≤ ω ≤ Rs` (41_piston R130). -/
def Lines.offsetOk (c : Cfg) (o : Lines) : Bool := decide (o.ω.toNat ≤ c.rs)

/-- `0 ≤ l ≤ Rs` (41_piston R132, R133). -/
def Lines.lengthOk (c : Cfg) (o : Lines) : Bool := decide (o.l.toNat ≤ c.rs)

/-- One length for each Piston, each at most `Rs` (42_engine R152, R153). -/
def Lines.lengthsOk (c : Cfg) (o : Lines) : Bool :=
  decide (o.lens.length = c.pi) && o.lens.all fun l => decide (l.toNat ≤ c.rs)

/-- The lane-array operand has one byte for each byte of a state (20_memory R52, 40_permutation R110). -/
def Lines.arrayOk (c : Cfg) (o : Lines) : Bool := decide (o.state.length = c.stateBytes)

/-- `r` is the index of a nominal round (40_permutation R101, R102). -/
def Lines.roundOk (c : Cfg) (o : Lines) : Bool := decide (o.r.toNat < nominalRounds c.b)

/-- A stream that exists whatever operation runs: a port or `T′`. The copies `Xt[i]` exist only inside `E.INJCOLL`. -/
def StreamName.standing : StreamName → Bool
  | .port _ => true
  | .tPrime => true
  | .xt _ => false

/-- The input and the output stream are two streams (41_piston R130; log 6). -/
def Lines.streamsOk (o : Lines) : Bool := o.src.standing && o.dst.standing && decide (o.src ≠ o.dst)

/-- Well-formedness of an operation's operands under a configuration: exactly the operands 30_encoding R84 lists for it. -/
def Instr.wellFormed (c : Cfg) (o : Lines) : Instr → Bool
  | .fTheta => o.arrayOk c
  | .fRhoPi => o.arrayOk c
  | .fChi => o.arrayOk c
  | .fIota => o.arrayOk c && o.roundOk c
  | .fRound => o.arrayOk c && o.roundOk c
  | .fApply => o.arrayOk c
  | .pCrypt _ => o.pistonOk c && o.offsetOk c && o.streamsOk
  | .pInject _ => o.pistonOk c && o.src.standing
  | .pSpark _ => o.pistonOk c && o.lengthOk c
  | .pGetTag => o.pistonOk c && o.lengthOk c && o.dst.standing
  | .eCrypt _ => o.streamsOk
  | .eInject => o.src.standing
  | .eSpark _ => o.lengthsOk c
  | .eGetTags => o.lengthsOk c && o.dst.standing
  | .eInjColl _ => o.src.standing
  | .mStart _ _ _ => true
  | .mWrap _ _ => true
  | .mKnot => true
  | .mHandleTag _ _ => true

end Sys2Proof
end

