-- ==== Sys2Proof/Certificates/Slice0/Obligations.lean ====
section
/-! DEFINITION. The statements for the provers. The witnesses that meet their hypotheses are in Sys2Proof/Tests/Slice0.lean. -/

open Sys2Proof Sys2Proof.Machine

/-! Encoding and the step -/

/-- 30_encoding R80, R84: one byte always decodes to the operation it encodes, and only that byte does. -/
def Obligations.DecodeEncodeAgree : Prop :=
  (∀ (i : Instr) (rest : Bytes), decode (encode i ++ rest) = .ok (i, rest)) ∧
  ∀ (bs : Bytes) (i : Instr) (rest : Bytes), decode bs = .ok (i, rest) → bs = encode i ++ rest

/-- 30_encoding R86: the reserved words, unit by unit. -/
def Obligations.ReservedWordsDecodeToNothing : Prop :=
  ∀ v : Byte, decodeWord v = none ↔
    (v.extractLsb' 6 2 = 0 ∧ (6 ≤ (v.extractLsb' 3 3).toNat ∨ v.getLsbD 2 ∨ v.getLsbD 1 ∨ v.getLsbD 0)) ∨
    (v.extractLsb' 6 2 = 1 ∧ (4 ≤ (v.extractLsb' 3 3).toNat ∨ v.getLsbD 2 ∨ v.getLsbD 1 ∨
      (v.extractLsb' 3 3 = 3 ∧ v.getLsbD 0))) ∨
    (v.extractLsb' 6 2 = 2 ∧ (5 ≤ (v.extractLsb' 3 3).toNat ∨ v.getLsbD 2 ∨ v.getLsbD 1 ∨
      ((v.extractLsb' 3 3 = 1 ∨ v.extractLsb' 3 3 = 3) ∧ v.getLsbD 0))) ∨
    (v.extractLsb' 6 2 = 3 ∧ (4 ≤ (v.extractLsb' 3 3).toNat ∨ (v.extractLsb' 3 3 = 1 ∧ v.getLsbD 2) ∨
      (v.extractLsb' 3 3 = 2 ∧ (v.getLsbD 2 ∨ v.getLsbD 1 ∨ v.getLsbD 0)) ∨ (v.extractLsb' 3 3 = 3 ∧ v.getLsbD 0)))

/-- 30_encoding R84: words of every unit, written out bit by bit. -/
def Obligations.SampleWordsDecodeRight : Prop :=
  decode [0b00001000] = .ok (.fRhoPi, []) ∧ decode [0b00101000] = .ok (.fApply, []) ∧
  decode [0b01000001] = .ok (.pCrypt true, []) ∧ decode [0b01011000] = .ok (.pGetTag, []) ∧
  decode [0b10010001] = .ok (.eSpark true, []) ∧ decode [0b10100001] = .ok (.eInjColl true, []) ∧
  decode [0b11000100] = .ok (.mStart true false false, []) ∧ decode [0b11001010] = .ok (.mWrap true false, []) ∧
  decode [0b11011100] = .ok (.mHandleTag true false, []) ∧ decode [0b11001100] = .error (.reserved 0b11001100)

/-- 44_host_interface R191, 30_encoding R85: a step runs the decoded operation. A word the host presents, while
`FAULT = 0`, runs with `DONE` cleared (10_state R27) and the move consumed; an issued internal word runs as it is, with
the line consumed (log 4). -/
def Obligations.StepRunsDecoded : Prop :=
  ∀ (s : State) (w : Byte) (i : Instr), s.fault = false → decode [w] = .ok (i, []) →
    (∀ rest, s.issue = none → s.host = .command w :: rest → i.hostIssuable = true →
      step s = exec i { s with host := rest, done := false }) ∧
    (s.issue = some w → step s = exec i { s with issue := none })

/-- 60_exceptions R220: any word but those of `M.START` and `M.WRAP` (0xC0 to 0xCB) on `cmd` is an illegal command: the
fault, with the word for its `info` (R210), is the outcome, terminal as R226 says; it is entered as R225 says, and no other
state of the block changes. The count of fault entries is the model's own (log 8). -/
def Obligations.IllegalCommandRaises : Prop :=
  ∀ (s : State) (w : Byte) (rest : List HostMove), s.fault = false → s.issue = none → s.host = .command w :: rest →
    ¬ (0xC0 ≤ w.toNat ∧ w.toNat ≤ 0xCB) →
    step s = .fault (.latched (.illegalCommand w) { s with
      host := rest, fault := true, cause := .illegalCommand, done := true, faultCount := s.faultCount + 1 })

/-- 44_host_interface R191 item 2, 10_state R26: while `FAULT = 1` a word is ignored and nothing changes. -/
def Obligations.FaultedBlockIgnoresWords : Prop :=
  ∀ (s : State) (w : Byte), s.fault = true →
    (∀ rest, s.issue = none → s.host = .command w :: rest → step s = .next { s with host := rest }) ∧
    (s.issue = some w → step s = .next { s with issue := none })

/-- 60_exceptions R227, 10_state R26: only reset leaves the faulted condition. Whatever else the host does, the latch and
every piece of the block's own state stay. -/
def Obligations.OnlyResetLeavesFault : Prop :=
  ∀ s t : State, s.fault = true → (s.issue ≠ none ∨ ∀ rest, s.host ≠ .reset :: rest) → step s = .next t →
    t.fault = true ∧ t.cause = s.cause ∧ t.cfg = s.cfg ∧ t.pistons = s.pistons ∧ t.et = s.et ∧
    t.phaseE = s.phaseE ∧ t.phaseM = s.phaseM ∧ t.result = s.result ∧ t.done = s.done ∧ t.tPrime = s.tPrime ∧
    t.xt = s.xt ∧ t.trace = s.trace

/-- 44_host_interface R190, 10_state R33: what a host move that drives `cfg`, presents a stream or appends to one does: it
acts on the port it names and on nothing else. That `cfg` acts at the next reset only is log 1's choice of two copies, and
where the cursor stands after `present` and `append` is log 19's. With no move and no issued word the block stays as it is
(log 23). The reset move is in ResetClearsEverything and ResetRefusesConfiguration. -/
def Obligations.HostMovesActOnTheirPort : Prop :=
  ∀ s : State, s.issue = none →
    (∀ c rest, s.host = .config c :: rest → step s = .next { s with host := rest, cfgPort := c }) ∧
    (∀ p vs rest, s.host = .present p vs :: rest →
      step s = .next (({ s with host := rest } : State).setStream (.port p) { buf := vs, pos := 0 })) ∧
    (∀ p vs rest, s.host = .append p vs :: rest →
      step s = .next (({ s with host := rest } : State).setStream (.port p)
        { buf := (s.port p).buf ++ vs, pos := (s.port p).pos })) ∧
    (s.host = [] → step s = .next s)

/-! Configuration, reset and the status port -/

/-- 00_scope R8, and `c > 0` of R5 (log 12): which configurations are admitted. -/
def Obligations.AdmissionConditions : Prop :=
  ∀ c : Cfg, c.admitted = true ↔
    (c.b = 200 ∨ c.b = 400 ∨ c.b = 800 ∨ c.b = 1600) ∧ 1 ≤ c.nr ∧ c.nr ≤ 12 + 2 * Nat.log2 (c.b / 25) ∧
    c.rs ≤ c.ra ∧ c.ra + 4 ≤ c.b / 8 ∧ c.tau % 8 = 0 ∧ c.tau / 8 ≤ c.rs ∧
    (c.c + (c.b / 25 - 1)) / (c.b / 25) * (c.b / 25) / 8 ≤ c.rs ∧ 1 ≤ c.pi ∧ c.pi ≤ 255 ∧ c.ra ≤ 255 ∧ 0 < c.c

/-- 60_exceptions R224 item 1: the order of the admission tests, first to last; `c > 0` last (log 12).
That `tau` and `c` are named where they are compared with `Rs` is the model's choice (log 27). -/
def Obligations.AdmissionOrder : Prop :=
  ∀ c : Cfg,
    (¬ (c.b = 200 ∨ c.b = 400 ∨ c.b = 800 ∨ c.b = 1600) → c.refusal = some (.configUnsupported .b)) ∧
    ((c.b = 200 ∨ c.b = 400 ∨ c.b = 800 ∨ c.b = 1600) →
      (¬ (1 ≤ c.nr ∧ c.nr ≤ nominalRounds c.b) → c.refusal = some (.configUnsupported .nr)) ∧
      (1 ≤ c.nr ∧ c.nr ≤ nominalRounds c.b →
        (c.ra < c.rs → c.refusal = some (.rateOrder c.rs c.ra)) ∧
        (c.rs ≤ c.ra →
          (c.stateBytes < c.ra + 4 → c.refusal = some (.absorbRateTooLarge c.ra c.stateBytes)) ∧
          (c.ra + 4 ≤ c.stateBytes →
            (c.tau % 8 ≠ 0 ∨ c.rs < c.tau / 8 → c.refusal = some (.configUnsupported .tau)) ∧
            (c.tau % 8 = 0 ∧ c.tau / 8 ≤ c.rs →
              (c.rs < c.cPrime / 8 → c.refusal = some (.configUnsupported .c)) ∧
              (c.cPrime / 8 ≤ c.rs →
                (c.pi = 0 ∨ 255 < c.pi → c.refusal = some (.configUnsupported .pi)) ∧
                (1 ≤ c.pi ∧ c.pi ≤ 255 →
                  c.refusal = if c.c = 0 then some (.configUnsupported .c) else none)))))))

/-- 00_scope R7, 30_encoding R94: the five named sets as the numbers printed there, with the default `Rs`, `Ra` and `Lk`;
the derived columns `W`, `stateBytes`, `s`, `c′/8`, `tau/8`; each set is admitted; and the `CONFIG` line each name stands
for (a line has no `Lk`: it gets the default, log 28). -/
def Obligations.NamedSetsAsPrinted : Prop :=
  NamedSet.cfg .river = { b := 800, nr := 12, pi := 1, c := 256, tau := 128, rs := 68, ra := 96, lk := 36 } ∧
  NamedSet.cfg .lake = { b := 1600, nr := 12, pi := 1, c := 256, tau := 128, rs := 168, ra := 192, lk := 40 } ∧
  NamedSet.cfg .sea = { b := 1600, nr := 12, pi := 2, c := 256, tau := 128, rs := 168, ra := 192, lk := 40 } ∧
  NamedSet.cfg .ocean = { b := 1600, nr := 12, pi := 4, c := 256, tau := 128, rs := 168, ra := 192, lk := 40 } ∧
  NamedSet.cfg .lunar = { b := 1600, nr := 12, pi := 8, c := 256, tau := 128, rs := 168, ra := 192, lk := 40 } ∧
  ((NamedSet.cfg .river).w = 32 ∧ (NamedSet.cfg .river).stateBytes = 100 ∧ (NamedSet.cfg .river).start = 10) ∧
  (∀ n : NamedSet, n ≠ .river → n.cfg.w = 64 ∧ n.cfg.stateBytes = 200 ∧ n.cfg.start = 12) ∧
  (∀ n : NamedSet, n.cfg.knotBytes = 32 ∧ n.cfg.tagBytes = 16 ∧ n.cfg.admitted = true) ∧
  configNamed .river = configLine 800 12 1 256 128 68 96 ∧ configNamed .lake = configLine 1600 12 1 256 128 168 192 ∧
  configNamed .sea = configLine 1600 12 2 256 128 168 192 ∧
  configNamed .ocean = configLine 1600 12 4 256 128 168 192 ∧
  configNamed .lunar = configLine 1600 12 8 256 128 168 192

/-- 70_reset R240, 10_state R34: reset with an admitted configuration on `cfg` puts every piece of state at its reset
value. The operand lines, `T′`, `Xt`, `trace` and the issue line are reset as logs 4 to 7, 10, 11 and 26 say. -/
def Obligations.ResetClearsEverything : Prop :=
  ∀ (s : State) (rest : List HostMove), s.issue = none → s.host = .reset :: rest → s.cfgPort.admitted = true →
    step s = .next
      { cfgPort := s.cfgPort
        cfg := s.cfgPort
        pistons := List.replicate s.cfgPort.pi (List.replicate ((s.cfgPort.b + 7) / 8) 0x00)
        et := List.replicate s.cfgPort.pi 0
        phaseE := .fresh
        phaseM := .ready
        fault := false
        cause := .none
        result := false
        done := false
        suv := { buf := [], pos := 0 }
        inp := { buf := [], pos := 0 }
        ad := { buf := [], pos := 0 }
        tag := { buf := [], pos := 0 }
        out := { buf := [], pos := 0 }
        tPrime := { buf := [], pos := 0 }
        xt := []
        lines :=
          { i := 0, ω := 0, l := 0, r := 0, lens := List.replicate s.cfgPort.pi 0, src := .port .inp, dst := .port .out
            state := List.replicate ((s.cfgPort.b + 7) / 8) 0x00, ret := false }
        issue := none
        host := rest
        trace := []
        faultCount := s.faultCount }

/-- 70_reset R240 item 3: a configuration that is not admitted leaves every other state at its reset value, sets `FAULT`
and puts the fault's code in `CAUSE`, and that fault is the outcome (60_exceptions R226); no later word is accepted. -/
def Obligations.ResetRefusesConfiguration : Prop :=
  ∀ (s : State) (rest : List HostMove) (r : Raise), s.issue = none → s.host = .reset :: rest →
    s.cfgPort.refusal = some r →
    ∃ t, step s = .fault (.latched r t) ∧ t.fault = true ∧ t.cause = r.cause ∧
      (r.cause = .rateOrder ∨ r.cause = .absorbRateTooLarge ∨ r.cause = .configUnsupported) ∧
      t.pistons = List.replicate s.cfgPort.pi (List.replicate ((s.cfgPort.b + 7) / 8) 0x00) ∧
      t.et = List.replicate s.cfgPort.pi 0 ∧ t.phaseE = .fresh ∧ t.phaseM = .ready ∧ t.result = false ∧
      t.done = false ∧ t.suv = ByteStream.empty ∧ t.inp = ByteStream.empty ∧ t.ad = ByteStream.empty ∧
      t.tag = ByteStream.empty ∧ t.out = ByteStream.empty ∧ t.host = rest ∧
      ∀ w more, step { t with host := .command w :: more } = .next { t with host := more }

/-- 70_reset R241: reset erases all key-dependent state. Two blocks that differ in any way are equal after it, whether it
admits the configuration or not, when the host drives the same `cfg` (the host's remaining moves and the model's own fault
counter, log 8, apart). -/
def Obligations.ResetErasesTheSession : Prop :=
  ∀ s v t u : State, s.issue = none → v.issue = none → (∃ rest, s.host = .reset :: rest) → v.host = s.host →
    v.cfgPort = s.cfgPort → v.faultCount = s.faultCount → Leaves (step s) t → Leaves (step v) u → t = u

/-- The state of `State.reset`: the values of 10_state R34 under the Lake configuration, which is the model's choice
(log 1). -/
def Obligations.ResetStateValues : Prop :=
  State.reset.cfg = NamedSet.cfg .lake ∧ State.reset.pistons = [List.replicate 200 0x00] ∧ State.reset.et = [0] ∧
  State.reset.phaseE = .fresh ∧ State.reset.phaseM = .ready ∧ State.reset.fault = false ∧
  State.reset.cause = .none ∧ State.reset.result = false ∧ State.reset.done = false ∧
  State.reset.suv = ByteStream.empty ∧ State.reset.inp = ByteStream.empty ∧ State.reset.ad = ByteStream.empty ∧
  State.reset.tag = ByteStream.empty ∧ State.reset.out = ByteStream.empty ∧ State.reset.applyReset = State.reset

/-- 00_scope R5, 10_state R29: the configuration in force changes at a reset and at no other step, one
that ends in a fault included. -/
def Obligations.ConfigurationIsStatic : Prop :=
  ∀ s t : State, (s.issue ≠ none ∨ ∀ rest, s.host ≠ .reset :: rest) → Leaves (step s) t → t.cfg = s.cfg

/-- 30_encoding R91, R92 and 60_exceptions R210: the fields of the status port and their codes. `RESULT` is shown while
`FAULT = 0`; after a fault it is a free value (log 8), of which nothing is said. -/
def Obligations.StatusPortCodes : Prop :=
  (∀ s : State, s.status.phaseM = s.phaseM.code ∧ s.status.phaseE = s.phaseE.code ∧ s.status.fault = s.fault ∧
    s.status.cause = s.cause.code ∧ s.status.done = s.done ∧ s.status.et = s.et ∧
    (s.fault = false → s.status.result = s.result)) ∧
  PhaseE.code .fresh = 0 ∧ PhaseE.code .crypted = 1 ∧ PhaseE.code .endOfCrypt = 2 ∧ PhaseE.code .endOfMessage = 3 ∧
  PhaseM.code .ready = 0 ∧ PhaseM.code .riding = 1 ∧ PhaseM.code .failed = 2 ∧
  Cause.code .none = 0 ∧ Cause.code .phaseViolation = 1 ∧ Cause.code .rateOrder = 2 ∧
  Cause.code .absorbRateTooLarge = 3 ∧ Cause.code .tagTooLong = 4 ∧ Cause.code .keyPackTooLarge = 5 ∧
  Cause.code .encode8Range = 6 ∧ Cause.code .stateLengthMismatch = 7 ∧ Cause.code .illegalCommand = 8 ∧
  Cause.code .configUnsupported = 9

/-! The Permutation -/

/-- 20_memory R52: the lane view, both ways, for the four widths that have one. -/
def Obligations.LaneViewOfAState : Prop :=
  ∀ w, w = 8 ∨ w = 16 ∨ w = 32 ∨ w = 64 →
    (∀ S : Bytes, S.length = 25 * (w / 8) → ∀ x y, x < 5 → y < 5 →
      (lane (lanesOf w S) x y).toNat =
        ((List.range (w / 8)).map fun k => (byteAt S (w / 8 * (x + 5 * y) + k)).toNat * 2 ^ (8 * k)).sum) ∧
    (∀ A : Lanes w, A.length = 25 → ∀ x y k, x < 5 → y < 5 → k < w / 8 →
      byteAt (bytesOf A) (w / 8 * (x + 5 * y) + k) = (lane A x y).extractLsb' (8 * k) 8) ∧
    (∀ A : Lanes w, A.length = 25 → lanesOf w (bytesOf A) = A) ∧
    (∀ S : Bytes, S.length = 25 * (w / 8) → bytesOf (lanesOf w S) = S)

/-- 00_scope R9, 40_permutation R111: `rotl_W(v, n)` is the left rotation by `n mod W` bits. -/
def Obligations.RotationIsLeftRotation : Prop :=
  ∀ (w : Nat) (v : BitVec w) (n i : Nat), i < w → (rotl v n).getLsbD i = v.getLsbD ((i + (w - n % w)) % w)

/-- 40_permutation R102: the round constants the generator makes are the printed table, truncated for narrower lanes. -/
def Obligations.RoundConstantsAsPrinted : Prop :=
  (∀ r, r < 24 → roundConstantTable[r]? = some (roundConstant 64 r)) ∧
  ∀ w r, w = 8 ∨ w = 16 ∨ w = 32 → r < 24 → roundConstant w r = (roundConstant 64 r).setWidth w

/-- 40_permutation R103: `F.THETA`. That operand and result are on `lines.state` is the model's choice (log 7), and so is
the word on `trace` (log 11). -/
def Obligations.ThetaCompletes : Prop :=
  decode [0x00] = .ok (.fTheta, []) ∧
  ∀ (s : State) (A : Lanes s.cfg.w) (C : Nat → BitVec s.cfg.w), s.cfg.hasLayout = true →
    s.lines.state.length = s.cfg.stateBytes → A = lanesOf s.cfg.w s.lines.state →
    (∀ x, C x = lane A x 0 ^^^ lane A x 1 ^^^ lane A x 2 ^^^ lane A x 3 ^^^ lane A x 4) →
    ∃ A' : Lanes s.cfg.w, A'.length = 25 ∧
      (∀ x y, x < 5 → y < 5 → lane A' x y = lane A x y ^^^ (C (x + 4) ^^^ rotl (C (x + 1)) 1)) ∧
      exec .fTheta s = .next { s with
        lines := { s.lines with state := bytesOf A' }
        trace := s.trace ++ [0x00] }

/-- 40_permutation R105, R106: `F.RHOPI`, by the printed table of sources and offsets; the destination of lane `(x, y)` is
`(y, 2x + 3y mod 5)`. The line `lines.state` (log 7) and the word on `trace` (log 11) are the model's choices. -/
def Obligations.RhoPiCompletes : Prop :=
  decode [0x08] = .ok (.fRhoPi, []) ∧
  ∀ (s : State) (A : Lanes s.cfg.w), s.cfg.hasLayout = true → s.lines.state.length = s.cfg.stateBytes →
    A = lanesOf s.cfg.w s.lines.state →
    ∃ A' : Lanes s.cfg.w, A'.length = 25 ∧ lane A' 0 0 = lane A 0 0 ∧
      (∀ p ∈ rotationTable, lane A' p.2.1 ((2 * p.1 + 3 * p.2.1) % 5) = rotl (lane A p.1 p.2.1) p.2.2) ∧
      exec .fRhoPi s = .next { s with
        lines := { s.lines with state := bytesOf A' }
        trace := s.trace ++ [0x08] }

/-- 40_permutation R107: `F.CHI`. The line `lines.state` (log 7) and the word on `trace` (log 11) are the
model's choices. -/
def Obligations.ChiCompletes : Prop :=
  decode [0x10] = .ok (.fChi, []) ∧
  ∀ (s : State) (A : Lanes s.cfg.w), s.cfg.hasLayout = true → s.lines.state.length = s.cfg.stateBytes →
    A = lanesOf s.cfg.w s.lines.state →
    ∃ A' : Lanes s.cfg.w, A'.length = 25 ∧
      (∀ x y, x < 5 → y < 5 →
        lane A' x y = lane A x y ^^^ (~~~ lane A ((x + 1) % 5) y &&& lane A ((x + 2) % 5) y)) ∧
      exec .fChi s = .next { s with
        lines := { s.lines with state := bytesOf A' }
        trace := s.trace ++ [0x10] }

/-- 40_permutation R108: `F.IOTA`. The line `lines.state` (log 7) and the word on `trace` (log 11) are the
model's choices. -/
def Obligations.IotaCompletes : Prop :=
  decode [0x18] = .ok (.fIota, []) ∧
  ∀ (s : State) (A : Lanes s.cfg.w), s.cfg.hasLayout = true → s.lines.state.length = s.cfg.stateBytes →
    A = lanesOf s.cfg.w s.lines.state →
    ∃ A' : Lanes s.cfg.w, A'.length = 25 ∧ lane A' 0 0 = lane A 0 0 ^^^ roundConstant s.cfg.w s.lines.r.toNat ∧
      (∀ x y, x < 5 → y < 5 → (x, y) ≠ (0, 0) → lane A' x y = lane A x y) ∧
      exec .fIota s = .next { s with
        lines := { s.lines with state := bytesOf A' }
        trace := s.trace ++ [0x18] }

/-- 40_permutation R104, R109: `F.ROUND` is `F.THETA`, `F.RHOPI`, `F.CHI`, `F.IOTA` in that order, each on the result of
the one before. The line `lines.state` (log 7) and the five words on `trace`, in pre-order (log 11), are the model's
choices. -/
def Obligations.RoundIsTheFourSteps : Prop :=
  decode [0x20] = .ok (.fRound, []) ∧
  ∀ s : State, s.cfg.hasLayout = true → s.lines.state.length = s.cfg.stateBytes →
    ∃ s₁ s₂ s₃ s₄ : State, exec .fTheta s = .next s₁ ∧ exec .fRhoPi s₁ = .next s₂ ∧ exec .fChi s₂ = .next s₃ ∧
      exec .fIota s₃ = .next s₄ ∧
      exec .fRound s = .next { s₄ with trace := s.trace ++ [0x20, 0x00, 0x08, 0x10, 0x18] }

/-- 40_permutation R110: `F.APPLY` runs `F.ROUND` for the last `nr` of the `N(b)` nominal rounds (R100) in ascending order,
and gives a state of identical length. A string of another length raises `StateLengthMismatch` (60_exceptions R218, R225). The
line `lines.state` (log 7), the words on `trace`, the one left by a fault among them (log 11), and the count of fault entries
(log 8) are the model's choices. -/
def Obligations.ApplyRunsTheLastRounds : Prop :=
  decode [0x28] = .ok (.fApply, []) ∧
  (∀ s : State, s.cfg.admitted = true → s.lines.state.length = s.cfg.stateBytes →
    ∃ f : Nat → State,
      (f 0).lines.state = s.lines.state ∧
      (∀ k, k < s.cfg.nr → (f k).cfg = s.cfg ∧
        (f k).lines.r.toNat = nominalRounds s.cfg.b - s.cfg.nr + k ∧
        ∃ t, exec .fRound (f k) = .next t ∧ t.lines.state = (f (k + 1)).lines.state) ∧
      (f s.cfg.nr).lines.state.length = s.cfg.stateBytes ∧
      exec .fApply s = .next { s with
        lines := { s.lines with state := (f s.cfg.nr).lines.state }
        trace := s.trace ++ 0x28 :: (List.replicate s.cfg.nr [0x20, 0x00, 0x08, 0x10, 0x18]).flatten }) ∧
  ∀ s : State, s.lines.state.length ≠ (s.cfg.b + 7) / 8 →
    exec .fApply s = .fault (.latched (.stateLengthMismatch s.lines.state.length) { s with
      fault := true, cause := .stateLengthMismatch, done := true, faultCount := s.faultCount + 1
      trace := s.trace ++ [0x28] })

/-! The Piston -/

/-- 41_piston R130: `P.CRYPT` on a built block, byte by byte. `n` bytes move. That the streams are named on the
lines, two different ones (log 6), and the word on `trace` (log 11) are the model's choices. -/
def Obligations.CryptCompletes : Prop :=
  ∀ (u : Bool) (s : State) (S : Bytes) (x o : ByteStream) (n : Nat), s.Built → s.pistons[s.lineI]? = some S →
    s.lines.src ≠ s.lines.dst → s.stream? s.lines.src = some x → s.stream? s.lines.dst = some o →
    n = min x.unread.length (s.cfg.rs - s.lineOffset) →
    decode [if u then 0x41 else 0x40] = .ok (.pCrypt u, []) ∧
    ∃ S' out : Bytes, S'.length = S.length ∧ out.length = n ∧
      (∀ k, k < n → byteAt out k = byteAt S (s.lineOffset + k) ^^^ byteAt x.unread k) ∧
      (∀ k, k < n → byteAt S' (s.lineOffset + k) =
        if u then byteAt x.unread k else byteAt S (s.lineOffset + k) ^^^ byteAt x.unread k) ∧
      byteAt S' (s.cfg.ra + 1) = byteAt S (s.cfg.ra + 1) ^^^ BitVec.ofNat 8 (s.lineOffset + n) ∧
      (∀ j, ¬ (s.lineOffset ≤ j ∧ j < s.lineOffset + n) → j ≠ s.cfg.ra + 1 → byteAt S' j = byteAt S j) ∧
      exec (.pCrypt u) s = .next
        { (s.setStream s.lines.src { buf := x.buf, pos := x.pos + n }).setStream s.lines.dst
            { buf := o.buf ++ out, pos := o.pos } with
          pistons := s.pistons.set s.lineI S'
          trace := s.trace ++ [if u then 0x41 else 0x40] }

/-- 41_piston R131: `P.INJECT` on a built block, byte by byte. It starts at `Rs` when crypting, else at 0.
That the stream is named on the lines (log 6) and the word on `trace` (log 11) are the model's choices. -/
def Obligations.InjectCompletes : Prop :=
  ∀ (c : Bool) (s : State) (S : Bytes) (x : ByteStream) (ω n : Nat), s.Built → s.pistons[s.lineI]? = some S →
    s.stream? s.lines.src = some x → ω = (if c then s.cfg.rs else 0) → n = min x.unread.length (s.cfg.ra - ω) →
    decode [if c then 0x49 else 0x48] = .ok (.pInject c, []) ∧
    ∃ S' : Bytes, S'.length = S.length ∧
      (∀ k, k < n → byteAt S' (ω + k) = byteAt S (ω + k) ^^^ byteAt x.unread k) ∧
      byteAt S' (s.cfg.ra + 2) = byteAt S (s.cfg.ra + 2) ^^^ BitVec.ofNat 8 ω ∧
      byteAt S' (s.cfg.ra + 3) = byteAt S (s.cfg.ra + 3) ^^^ BitVec.ofNat 8 (ω + n) ∧
      (∀ j, ¬ (ω ≤ j ∧ j < ω + n) → j ≠ s.cfg.ra + 2 → j ≠ s.cfg.ra + 3 → byteAt S' j = byteAt S j) ∧
      exec (.pInject c) s = .next
        { s.setStream s.lines.src { buf := x.buf, pos := x.pos + n } with
          pistons := s.pistons.set s.lineI S'
          trace := s.trace ++ [if c then 0x49 else 0x48] }

/-- 41_piston R132, 30_encoding R87 item 2: `P.SPARK` on a built block: the end-of-message byte into `EOM`, then the
permutation of the whole state. The words on `trace` (log 11) are the model's choice. -/
def Obligations.SparkCompletes : Prop :=
  ∀ (e : Bool) (s : State) (S : Bytes), s.Built → s.pistons[s.lineI]? = some S →
    decode [if e then 0x51 else 0x50] = .ok (.pSpark e, []) ∧
    ∃ T : Bytes, T.length = S.length ∧
      byteAt T s.cfg.ra = byteAt S s.cfg.ra ^^^ (if e then (if s.lineL = 0 then 0xFF else s.lines.l) else 0x00) ∧
      (∀ j, j ≠ s.cfg.ra → byteAt T j = byteAt S j) ∧
      exec (.pSpark e) s = .next { s with
        pistons := s.pistons.set s.lineI (permute s.cfg.w s.cfg.nr (nominalRounds s.cfg.b - s.cfg.nr) T)
        trace := s.trace ++ (if e then 0x51 else 0x50) ::
          0x28 :: (List.replicate s.cfg.nr [0x20, 0x00, 0x08, 0x10, 0x18]).flatten }

/-- 41_piston R133, 60_exceptions R215: `P.GETTAG` emits the first `l` state bytes; when `l > Rs` it raises `TagTooLong`
before any byte is emitted. The state of the Piston never changes. That the stream is named on the lines
(log 6), the word on `trace`, also after the fault (log 11), and the count of fault entries (log 8) are the model's
choices. -/
def Obligations.GetTagCompletes : Prop :=
  decode [0x58] = .ok (.pGetTag, []) ∧
  ∀ (s : State) (S : Bytes) (t : ByteStream), s.Built → s.pistons[s.lineI]? = some S →
    s.stream? s.lines.dst = some t →
    (s.lineL ≤ s.cfg.rs → exec .pGetTag s = .next
      { s.setStream s.lines.dst { buf := t.buf ++ S.take s.lineL, pos := t.pos } with
        trace := s.trace ++ [0x58] }) ∧
    (s.cfg.rs < s.lineL → exec .pGetTag s = .fault (.latched (.tagTooLong s.lineL) { s with
      fault := true, cause := .tagTooLong, done := true, faultCount := s.faultCount + 1
      trace := s.trace ++ [0x58] }))

/-- 41_piston R130 corner case b: a wrapping and an unwrapping Piston that start equal and see matching data stay equal,
and the second recovers what the first was given. -/
def Obligations.CryptDirectionsAgree : Prop :=
  ∀ (s v t : State) (x o y p : ByteStream), s.Built → s.lineI < s.cfg.pi → s.lines.src ≠ s.lines.dst →
    v.cfg = s.cfg → v.pistons = s.pistons → v.lines = s.lines →
    s.stream? s.lines.src = some x → s.stream? s.lines.dst = some o → v.stream? s.lines.src = some y →
    v.stream? s.lines.dst = some p → exec (.pCrypt false) s = .next t →
    (∃ q more, t.stream? s.lines.dst = some { buf := o.buf ++ q, pos := o.pos } ∧ y.unread = q ++ more ∧
      (q.length < s.cfg.rs - s.lineOffset → more = [])) →
    ∃ u, exec (.pCrypt true) v = .next u ∧ u.pistons = t.pistons ∧
      u.stream? s.lines.dst =
        some { buf := p.buf ++ x.unread.take (s.cfg.rs - s.lineOffset), pos := p.pos }

/-- 10_state R22: no operation of Piston `i` reads or writes the state of another Piston `j`: with another buffer there, it
does the same, a fault included, and leaves that buffer as it is. -/
def Obligations.PistonsAreIsolated : Prop :=
  ∀ (op : Instr) (s t : State) (j : Nat) (S : Bytes),
    (∃ b, op = .pCrypt b ∨ op = .pInject b ∨ op = .pSpark b ∨ op = .pGetTag) → j ≠ s.lineI →
    (exec op s = .next t → exec op (s.setPiston j S) = .next (t.setPiston j S)) ∧
    ∀ r, exec op s = .fault (.latched r t) → exec op (s.setPiston j S) = .fault (.latched r (t.setPiston j S))

/-- 10_state R22: bytes at offsets `≥ Rs` never leave the block. Two Pistons equal at the offsets below `Rs` give the same
streams, and the same fault if any, whatever they hold above. -/
def Obligations.CapacityNeverLeaves : Prop :=
  ∀ (op : Instr) (s t : State) (S T : Bytes), (op = .pGetTag ∨ ∃ u, op = .pCrypt u) → s.Built →
    s.pistons[s.lineI]? = some S → T.length = S.length → (∀ k, k < s.cfg.rs → byteAt T k = byteAt S k) →
    (exec op s = .next t →
      ∃ u, exec op (s.setPiston s.lineI T) = .next u ∧ (∀ n, u.stream? n = t.stream? n) ∧ u.fault = t.fault) ∧
    ∀ r, exec op s = .fault (.latched r t) →
      ∃ u, exec op (s.setPiston s.lineI T) = .fault (.latched r u) ∧ (∀ n, u.stream? n = t.stream? n) ∧
        u.fault = t.fault

/-! The Engine. Each of its operations also puts words on `trace` (log 11), which these statements leave open as `tr`. -/

/-- 42_engine R150, 20_memory R71: `E.CRYPT` in phase `fresh`: Piston `i` crypts its segment of the input from `Et[i]` on,
the outputs are gathered in ascending order, and the phase says whether input remains. In another phase it raises
`PhaseViolation` (R158, 60_exceptions R211, R225) and changes nothing else of the spec's; the word it leaves on `trace`
there (log 11) and the count of fault entries (log 8) are the model's choices. -/
def Obligations.EngineCryptCompletes : Prop :=
  (∀ (u : Bool) (s : State) (x o : ByteStream), s.Built → s.phaseE = .fresh → s.lines.src ≠ s.lines.dst →
    s.stream? s.lines.src = some x → s.stream? s.lines.dst = some o →
    ∃ tr, exec (.eCrypt u) s = .next
      { (s.setStream s.lines.src (x.advance (min x.unread.length (s.cryptRoomBefore s.cfg.pi)))).setStream s.lines.dst
          (o.putAll (s.cryptOut x.unread s.cfg.pi)) with
        pistons := s.cryptAll u x.unread
        phaseE := if s.cryptRoomBefore s.cfg.pi < x.unread.length then .crypted else .endOfCrypt
        trace := s.trace ++ tr }) ∧
  ∀ (u : Bool) (s : State), s.phaseE ≠ .fresh → exec (.eCrypt u) s = .fault (.latched (.phaseViolationE (if u then 0x81 else 0x80) s.phaseE) { s with
    fault := true, cause := .phaseViolation, done := true, faultCount := s.faultCount + 1
    trace := s.trace ++ [if u then 0x81 else 0x80] })

/-- 42_engine R151, R158: `E.INJECT` in a phase other than `endOfMessage`. It sparks and returns to `fresh` when it came
from `crypted` or bytes are left; else it ends in `endOfMessage`. In `endOfMessage` it raises `PhaseViolation`
(60_exceptions R211, R225); the word it leaves on `trace` there (log 11) and the count of fault entries (log 8) are the
model's choices. -/
def Obligations.EngineInjectCompletes : Prop :=
  (∀ (s : State) (x : ByteStream) (b : Bool) (room : Nat) (injected : List Bytes), s.Built →
    s.phaseE ≠ .endOfMessage → s.stream? s.lines.src = some x →
    (b = true ↔ s.phaseE = .crypted ∨ s.phaseE = .endOfCrypt) →
    room = s.cfg.pi * (if b then s.cfg.ra - s.cfg.rs else s.cfg.ra) →
    injected = injectAll s.cfg b x.unread s.pistons →
    ∃ tr, exec .eInject s = .next
      (if s.phaseE = .crypted ∨ room < x.unread.length then
        { s.setStream s.lines.src (x.advance (min x.unread.length room)) with
          pistons := sparkAll s.cfg false (List.replicate s.cfg.pi 0) injected
          et := List.replicate s.cfg.pi 0
          phaseE := .fresh
          trace := s.trace ++ tr }
      else
        { s.setStream s.lines.src (x.advance (min x.unread.length room)) with
          pistons := injected
          phaseE := .endOfMessage
          trace := s.trace ++ tr })) ∧
  ∀ (s : State), s.phaseE = .endOfMessage → exec .eInject s = .fault (.latched (.phaseViolationE 0x88 s.phaseE) { s with
    fault := true, cause := .phaseViolation, done := true, faultCount := s.faultCount + 1
    trace := s.trace ++ [0x88] })

/-- 42_engine R152: `E.SPARK` sparks every Piston with its own length and records the lengths in `Et`; the phase is
neither tested nor changed. That `Et` is written here is the inference R152 marks as its own (92_eei_decisions D9; log 22);
the words on `trace`, left open as `tr`, are the model's choice (log 11). -/
def Obligations.EngineSparkCompletes : Prop :=
  ∀ (e : Bool) (s : State), s.Built → s.lines.lens.length = s.cfg.pi →
    ∃ tr, exec (.eSpark e) s = .next { s with
      pistons := sparkAll s.cfg e s.lineLens s.pistons
      et := s.lines.lens
      trace := s.trace ++ tr }

/-- 42_engine R153: `E.GETTAGS` in phase `endOfMessage`: a final spark with the given lengths, then the tags in ascending
order, then phase `fresh`. A length above `Rs` raises `TagTooLong` only after the sparks have changed the states and the
Pistons before it have emitted their tags (90_conflicts C8): that this state is kept is the model's choice (log 9, where
93_implementation_defined U5 allows any). In another phase it raises `PhaseViolation`. The word left on `trace` there
(log 11) and the count of fault entries (log 8) are the model's choices. -/
def Obligations.EngineGetTagsCompletes : Prop :=
  (∀ (s : State) (t : ByteStream), s.Built → s.phaseE = .endOfMessage → s.lines.lens.length = s.cfg.pi →
    (∀ l ∈ s.lines.lens, l.toNat ≤ s.cfg.rs) → s.stream? s.lines.dst = some t →
    ∃ tr, exec .eGetTags s = .next
      { s.setStream s.lines.dst (t.putAll (gatherTags (sparkAll s.cfg true s.lineLens s.pistons) s.lineLens)) with
        pistons := sparkAll s.cfg true s.lineLens s.pistons
        et := s.lines.lens
        phaseE := .fresh
        trace := s.trace ++ tr }) ∧
  (∀ (s : State) (t : ByteStream) (k : Nat), s.Built → s.phaseE = .endOfMessage →
    s.lines.lens.length = s.cfg.pi → k < s.cfg.pi → s.cfg.rs < s.lineLens.getD k 0 →
    (∀ i, i < k → s.lineLens.getD i 0 ≤ s.cfg.rs) → s.stream? s.lines.dst = some t →
    ∃ tr, exec .eGetTags s = .fault (.latched (.tagTooLong (s.lineLens.getD k 0))
      { s.setStream s.lines.dst
          (t.putAll (gatherTags (sparkAll s.cfg true s.lineLens s.pistons) (s.lineLens.take k))) with
        pistons := sparkAll s.cfg true s.lineLens s.pistons
        et := s.lines.lens
        fault := true
        cause := .tagTooLong
        done := true
        faultCount := s.faultCount + 1
        trace := s.trace ++ tr })) ∧
  ∀ (s : State), s.phaseE ≠ .endOfMessage → exec .eGetTags s = .fault (.latched (.phaseViolationE 0x98 s.phaseE) { s with
    fault := true, cause := .phaseViolation, done := true, faultCount := s.faultCount + 1
    trace := s.trace ++ [0x98] })

/-- 42_engine R156: `E.INJCOLL` in phase `fresh`: every Piston absorbs the unread bytes and, when asked, its own
diversifier, in groups of `Ra` bytes with a non-final spark between groups; the input is consumed entirely. In another
phase it raises `PhaseViolation` (R158), whatever its input is; the word it leaves on `trace` there (log 11) and the count
of fault entries (log 8) are the model's choices. So are `Xt`, which 10_state R32 discards, being empty afterwards (log 10)
and the words left open as `tr` (log 11). An input `Xt[k]` in phase `fresh` stops (log 6). -/
def Obligations.EngineInjectCollectiveCompletes : Prop :=
  (∀ (d : Bool) (s : State) (x : ByteStream), s.Built → s.phaseE = .fresh → s.lines.src.standing = true →
    s.stream? s.lines.src = some x →
    ∃ tr, exec (.eInjColl d) s = .next
      { s.setStream s.lines.src { buf := x.buf, pos := x.buf.length } with
        pistons := s.pistons.mapIdx fun i S => duplexAbsorb s.cfg S (collectiveInput s.cfg d i x.unread)
        et := if s.cfg.ra < x.unread.length + (if d then 2 else 0) then List.replicate s.cfg.pi 0 else s.et
        phaseE := .endOfMessage
        xt := []
        trace := s.trace ++ tr }) ∧
  ∀ (d : Bool) (s : State), s.phaseE ≠ .fresh → exec (.eInjColl d) s = .fault (.latched (.phaseViolationE (if d then 0xA1 else 0xA0) s.phaseE) { s with
    fault := true, cause := .phaseViolation, done := true, faultCount := s.faultCount + 1
    trace := s.trace ++ [if d then 0xA1 else 0xA0] })

/-- 42_engine R155: after a diversified `E.INJCOLL` Pistons that were equal differ; after one that is not diversified
they are equal. -/
def Obligations.DiversifierSeparatesPistons : Prop :=
  ∀ (d : Bool) (s t : State) (S : Bytes) (i j : Nat), s.Built → s.lines.src.standing = true →
    s.pistons[i]? = some S → s.pistons[j]? = some S → i ≠ j → s.phaseE = .fresh → exec (.eInjColl d) s = .next t →
    (d = true → t.pistons[i]? ≠ t.pistons[j]?) ∧ (d = false → t.pistons[i]? = t.pistons[j]?)

/-- 42_engine R158, 60_exceptions R211: an Engine operation in a phase not listed for it raises `PhaseViolation` and
changes nothing else (the word it was issued with stands on `trace`, log 11; the count of fault entries, log 8). `M.KNOT`
and `M.HANDLETAG` (43_motorist R176, R177) issued in a phase other than `endOfMessage` raise it through the `E.GETTAGS`
they begin with (42_engine R153): the `T′` they created is empty (logs 9, 10), and nothing else is changed. -/
def Obligations.EnginePhaseViolation : Prop :=
  (∀ (op : Instr) (s : State),
    (s.phaseE ≠ .fresh ∧ (∃ b, op = .eCrypt b ∨ op = .eInjColl b)) ∨
    (s.phaseE = .endOfMessage ∧ op = .eInject) ∨ (s.phaseE ≠ .endOfMessage ∧ op = .eGetTags) →
    exec op s = .fault (.latched (.phaseViolationE (encodeWord op) s.phaseE) { s with
      fault := true, cause := .phaseViolation, done := true, faultCount := s.faultCount + 1
      trace := s.trace ++ encode op })) ∧
  ∀ (op : Instr) (s : State), s.phaseE ≠ .endOfMessage → (op = .mKnot ∨ ∃ w u, op = .mHandleTag w u) →
    exec op s = .fault (.latched (.phaseViolationE (encodeWord .eGetTags) s.phaseE) { s with
      tPrime := ByteStream.empty
      fault := true, cause := .phaseViolation, done := true, faultCount := s.faultCount + 1
      trace := s.trace ++ encode op ++ encode .eGetTags })

/-! The Motorist -/

/-- 43_motorist R171, 60_exceptions R211, R225: `M.START` in a phase other than `ready`, and `M.WRAP` in one other than
`riding`, raise `PhaseViolation` before anything is changed: `FAULT`, `CAUSE` and `DONE` are written, and the model's own
count of fault entries (log 8). In `failed` no command is legal. -/
def Obligations.MotoristPhaseViolation : Prop :=
  ∀ (op : Instr) (s : State),
    (s.phaseM ≠ .ready ∧ ∃ t u g, op = .mStart t u g) ∨ (s.phaseM ≠ .riding ∧ ∃ u g, op = .mWrap u g) →
    exec op s = .fault (.latched (.phaseViolationM (encodeWord op) s.phaseM) { s with
      fault := true, cause := .phaseViolation, done := true, faultCount := s.faultCount + 1 })

/-- 43_motorist R176: `M.KNOT` in phase `endOfMessage`: a final spark with lengths `c′/8`, and the tags of all Pistons
absorbed by every one. `Et` is zero when the re-injection needed a spark between groups, else `c′/8`. That
`T′` and `Xt`, which 10_state R32 discards, are then empty (log 10) and the words on `trace`, left open as `tr` (log 11),
are the model's choices. -/
def Obligations.KnotCompletes : Prop :=
  decode [0xD0] = .ok (.mKnot, []) ∧
  ∀ s : State, s.Built → s.phaseE = .endOfMessage →
    ∃ tr, exec .mKnot s = .next { s with
      pistons := knotAll s.cfg s.pistons
      et := List.replicate s.cfg.pi
        (if s.cfg.ra < s.cfg.pi * s.cfg.knotBytes then 0 else BitVec.ofNat 8 s.cfg.knotBytes)
      phaseE := .endOfMessage
      tPrime := ByteStream.empty
      xt := []
      trace := s.trace ++ tr }

/-- 43_motorist R177: `M.HANDLETAG` in phase `endOfMessage`, all flags. The result line `ret` (log 26),
`T′`, which 10_state R32 discards, being empty afterwards (log 10), and the words on `trace`, left open as `tr` (log 11),
are the model's choices. -/
def Obligations.HandleTagCompletes : Prop :=
  ∀ (w u ok : Bool) (s : State) (sparked : List Bytes), s.Built → s.phaseE = .endOfMessage →
    sparked = sparkAll s.cfg true (tagRequest s.cfg w) s.pistons →
    (ok = false ↔ w = true ∧ u = true ∧ squeezedTag s.cfg sparked ≠ s.tag.buf) →
    ∃ tr, exec (.mHandleTag w u) s = .next { s with
      pistons := sparked
      et := (tagRequest s.cfg w).map (BitVec.ofNat 8)
      phaseE := .fresh
      phaseM := if ok then s.phaseM else .failed
      tag := if w = true ∧ u = false then { buf := squeezedTag s.cfg sparked, pos := 0 } else s.tag
      tPrime := ByteStream.empty
      lines := { s.lines with ret := ok }
      trace := s.trace ++ tr }

/-- 43_motorist R173: `M.START` in phase `ready` (and Engine phase `fresh`, which 42_engine R159 gives between commands),
all flags: diversified injection of `SUV`, the ratchet when asked, the tag protocol. In another phase it raises
`PhaseViolation` before anything is changed (R171, 60_exceptions R225). That `T′` and `Xt` are empty afterwards (log 10),
the words on `trace`, left open as `tr` (log 11), and the count of fault entries (log 8) are the model's choices. -/
def Obligations.StartCompletes : Prop :=
  (∀ (w u g ok : Bool) (s : State) (absorbed knotted sparked : List Bytes), s.Built → s.phaseM = .ready →
    s.phaseE = .fresh →
    absorbed = (s.pistons.mapIdx fun i S => duplexAbsorb s.cfg S (collectiveInput s.cfg true i s.suv.unread)) →
    knotted = (if g then knotAll s.cfg absorbed else absorbed) →
    sparked = sparkAll s.cfg true (tagRequest s.cfg w) knotted →
    (ok = false ↔ w = true ∧ u = true ∧ squeezedTag s.cfg sparked ≠ s.tag.buf) →
    ∃ tr, exec (.mStart w u g) s = .next { s with
      pistons := sparked
      et := (tagRequest s.cfg w).map (BitVec.ofNat 8)
      phaseE := .fresh
      phaseM := if ok then .riding else .failed
      result := ok
      done := true
      suv := { buf := s.suv.buf, pos := s.suv.buf.length }
      tag := if w = true ∧ u = false then { buf := squeezedTag s.cfg sparked, pos := 0 } else s.tag
      tPrime := ByteStream.empty
      xt := []
      trace := s.trace ++ tr }) ∧
  ∀ (w u g : Bool) (s : State), s.phaseM ≠ .ready →
    exec (.mStart w u g) s = .fault (.latched (.phaseViolationM (encodeWord (.mStart w u g)) s.phaseM) { s with
      fault := true, cause := .phaseViolation, done := true, faultCount := s.faultCount + 1 })

/-- 43_motorist R175: `M.WRAP` in phase `riding` (and Engine phase `fresh`, 42_engine R159) runs the sequence of R175,
its loops without any bound on their turns, and completes. In another phase it raises `PhaseViolation` before anything is
changed (R171, 60_exceptions R225); the count of fault entries is the model's own (log 8). -/
def Obligations.WrapRunsItsSequence : Prop :=
  (∀ (u g : Bool) (s : State), s.Built → s.phaseM = .riding → s.phaseE = .fresh →
    ∃ (a b c d : State) (r : Bool × State),
      (if s.inp.hasMore = false ∧ s.ad.hasMore = false then eInject (.port .ad) s = .ok a else a = s) ∧
      BlockLoop u a b ∧ RestLoop b c ∧ c.phaseE = .endOfMessage ∧
      (if 1 < c.cfg.pi ∨ g = true then mKnot c = .ok d else d = c) ∧
      mHandleTag true u d = .ok r ∧
      exec (.mWrap u g) s = .next
        (if r.1 then { r.2 with result := true, done := true }
        else { r.2 with out := { buf := [], pos := 0 }, result := false, done := true })) ∧
  ∀ (u g : Bool) (s : State), s.phaseM ≠ .riding →
    exec (.mWrap u g) s = .fault (.latched (.phaseViolationM (encodeWord (.mWrap u g)) s.phaseM) { s with
      fault := true, cause := .phaseViolation, done := true, faultCount := s.faultCount + 1 })

/-- 43_motorist R175, R180, 44_host_interface R194: what `M.WRAP` leaves: `I` and `A` consumed, `O` longer by exactly the
bytes of `I` or cleared on authentication failure, `T` the tag when wrapping and untouched when unwrapping, the phases,
`RESULT`, `DONE`, `Et`; and everything no rule lets it write, unchanged. That `T′` is empty afterwards and `Xt` stays empty,
which 10_state R32 discards, is the model's choice (log 10). -/
def Obligations.WrapCompletes : Prop :=
  ∀ (u g : Bool) (s : State), s.Built → s.phaseM = .riding → s.phaseE = .fresh → s.streamsOk = true →
    ∃ t, exec (.mWrap u g) s = .next t ∧
      t.inp = { buf := s.inp.buf, pos := s.inp.buf.length } ∧ t.ad = { buf := s.ad.buf, pos := s.ad.buf.length } ∧
      t.phaseE = .fresh ∧ t.et = (tagRequest s.cfg true).map (BitVec.ofNat 8) ∧ t.done = true ∧
      t.tPrime = ByteStream.empty ∧ (s.xt = [] → t.xt = []) ∧ Memory.wf s.cfg t.pistons = true ∧
      (t.result = true → t.phaseM = .riding ∧ t.out.pos = s.out.pos ∧
        ∃ q, q.length = s.inp.unread.length ∧ t.out.buf = s.out.buf ++ q) ∧
      (t.result = false → u = true ∧ t.phaseM = .failed ∧ t.out = { buf := [], pos := 0 }) ∧
      (u = false → t.tag = { buf := squeezedTag s.cfg t.pistons, pos := 0 }) ∧
      (u = true → t.tag = s.tag ∧ (t.result = true ↔ squeezedTag s.cfg t.pistons = s.tag.buf)) ∧
      t.cfgPort = s.cfgPort ∧ t.cfg = s.cfg ∧ t.suv = s.suv ∧ t.fault = s.fault ∧ t.cause = s.cause ∧
      t.lines = s.lines ∧ t.issue = s.issue ∧ t.host = s.host ∧ t.faultCount = s.faultCount

/-- 43_motorist R179: the value of the tag comparison is plain equality of byte strings. -/
def Obligations.TagComparisonIsEquality : Prop :=
  ∀ a b : Bytes, tagEqual a b = true ↔ a = b

/-- 43_motorist R181, the session start: two blocks in equal states, the second unwrapping with the first one's tag (or
with no tag wanted), are in equal states after `M.START`. -/
def Obligations.StartSidesAgree : Prop :=
  ∀ (w g : Bool) (s v t : State), s.Built → s.phaseM = .ready → s.phaseE = .fresh →
    v.cfg = s.cfg → v.pistons = s.pistons → v.et = s.et → v.phaseE = s.phaseE → v.phaseM = s.phaseM →
    v.suv.unread = s.suv.unread → exec (.mStart w false g) s = .next t → (w = true → v.tag.buf = t.tag.buf) →
    ∃ u, exec (.mStart w true g) v = .next u ∧ u.result = true ∧ u.pistons = t.pistons ∧ u.et = t.et ∧
      u.phaseE = t.phaseE ∧ u.phaseM = t.phaseM

/-- 43_motorist R181, the message: two blocks in equal states. What the first wraps, the second unwraps: the tag verifies,
`O` is the plaintext, and the two are again in equal states. -/
def Obligations.UnwrapUndoesWrap : Prop :=
  ∀ (g : Bool) (s v t : State), s.Built → s.phaseM = .riding → s.phaseE = .fresh →
    v.cfg = s.cfg → v.pistons = s.pistons → v.et = s.et → v.phaseE = s.phaseE → v.phaseM = s.phaseM →
    s.out = ByteStream.empty → v.out = ByteStream.empty → v.ad.unread = s.ad.unread →
    exec (.mWrap false g) s = .next t → v.inp.unread = t.out.buf → v.tag.buf = t.tag.buf →
    ∃ u, exec (.mWrap true g) v = .next u ∧ u.result = true ∧ u.out.buf = s.inp.unread ∧ u.pistons = t.pistons ∧
      u.et = t.et ∧ u.phaseE = t.phaseE ∧ u.phaseM = t.phaseM

/-! Whole-machine rules -/

/-- 43_motorist R171, 10_state R25: every transition of `phase_M` any operation can make: `ready` to `riding` or `failed`
by `M.START`, to `failed` by an unwrapping tag protocol, and no other, an operation that ends in a fault included. -/
def Obligations.MotoristPhaseMachine : Prop :=
  ∀ (op : Instr) (s t : State), Leaves (exec op s) t →
    t.phaseM = s.phaseM ∨
    (s.phaseM = .ready ∧ t.phaseM = .riding ∧ ∃ w u g, op = .mStart w u g) ∨
    (s.phaseM = .ready ∧ t.phaseM = .failed ∧ ∃ g, op = .mStart true true g) ∨
    (s.phaseM = .riding ∧ t.phaseM = .failed ∧ ∃ g, op = .mWrap true g) ∨
    (t.phaseM = .failed ∧ op = .mHandleTag true true)

/-- 10_state R20, column "Written by": which operations can write `Et`, `phase_E`, `phase_M`, `RESULT`, the Piston states;
an operation that owns an `E.SPARK`, a phase test or a `P` operation writes what that one writes (R35). That only
Permutation operations write the line `lines.state`, where theirs is kept, is the model's choice (log 7). -/
def Obligations.WritersOfState : Prop :=
  ∀ (op : Instr) (s t : State), Leaves (exec op s) t →
    (t.result ≠ s.result → (∃ w u g, op = .mStart w u g) ∨ ∃ u g, op = .mWrap u g) ∧
    (t.et ≠ s.et → (wordUnit (encodeWord op) = 2 ∧ ∀ u, op ≠ .eCrypt u) ∨ wordUnit (encodeWord op) = 3) ∧
    (t.phaseE ≠ s.phaseE → (wordUnit (encodeWord op) = 2 ∧ ∀ e, op ≠ .eSpark e) ∨ wordUnit (encodeWord op) = 3) ∧
    (t.phaseM ≠ s.phaseM → (∃ w u g, op = .mStart w u g) ∨ (∃ g, op = .mWrap true g) ∨ op = .mHandleTag true true) ∧
    (t.pistons ≠ s.pistons → wordUnit (encodeWord op) ≠ 0 ∧ op ≠ .pGetTag) ∧
    (t.lines.state ≠ s.lines.state → wordUnit (encodeWord op) = 0) ∧
    t.cfg = s.cfg ∧ t.cfgPort = s.cfgPort ∧ t.host = s.host ∧ t.issue = s.issue ∧
    (s.fault = true → t.fault = true)

/-- 10_state R21, 20_memory R59, 00_scope R8: the shape of a state: `Pi` buffers of `stateBytes` bytes, one offset and one
length line for each Piston, cursors inside their streams, `FAULT` set exactly while a cause is recorded, and an admitted
configuration while it is not. Every step keeps it, from every state that has it; a fault leaves
a state of the shape too. -/
def Obligations.EveryStepKeepsTheShape : Prop :=
  ∀ s t : State, s.Shape → Leaves (step s) t → t.Shape

/-- The state after reset has the shape. -/
def Obligations.ResetHasTheShape : Prop := State.reset.Shape ∧ State.reset.HostDriven

/-- 42_engine R159, 10_state R23, R32: what holds between the commands of a block driven by its host alone: Engine phase
`fresh`, `Et[i] ≤ Rs`, no internal buffer, and `RESULT` true while the session lives. Every step keeps it. -/
def Obligations.EveryStepKeepsHostDriven : Prop :=
  ∀ s t : State, s.Shape → s.HostDriven → Leaves (step s) t → t.HostDriven

/-- 70_reset R252, 42_engine R159: a block driven by its host alone always takes its step: every command terminates, no
operation is stuck, none is refused: the outcome is a next state, or a fault of the spec with the block after its entry. The
only faults a command can raise are `PhaseViolation` and `IllegalCommand`. -/
def Obligations.HostDrivenBlockNeverSticks : Prop :=
  ∀ s : State, s.Shape → s.HostDriven →
    ∃ t, Leaves (step s) t ∧
      (s.fault = false → (∀ rest, s.host ≠ .reset :: rest) →
        t.cause = .none ∨ t.cause = .phaseViolation ∨ t.cause = .illegalCommand)

/-- 60_exceptions R225: a fault the host can cause is precise: a command that raises one changes nothing of the block but
`FAULT`, `CAUSE` and `DONE` (and the model's own count of fault entries, log 8). The fault carries its `info` (R210): the
word, and for `PhaseViolation` the phase found. -/
def Obligations.HostFaultsArePrecise : Prop :=
  ∀ (s t : State) (r : Raise) (w : Byte) (rest : List HostMove), s.Shape → s.HostDriven → s.fault = false →
    s.host = .command w :: rest → step s = .fault (.latched r t) →
    t = { s with host := rest, fault := true, cause := r.cause, done := true, faultCount := s.faultCount + 1 } ∧
    (r = .illegalCommand w ∨ r = .phaseViolationM w s.phaseM)

/-- 60_exceptions R226, 44_host_interface R196: a fault is a terminal outcome of the step function, with the block after
its entry (R225). No next state of a block that has not faulted is faulted, whether one step or a run leads to it. Past a
fault (`blockStep`, log 3) a run is never final: whatever it does, a reset included, it reaches no final state. -/
def Obligations.FaultsAreTerminal : Prop :=
  (∀ (s t : State) (r : Raise), step s = .fault (.latched r t) →
    t.fault = true ∧ t.cause = r.cause ∧ t.faultCount = s.faultCount + 1) ∧
  (∀ (k : Nat) (s t : State), s.fault = false → Host.Core.run Sys2Proof.core k s = .next t →
    t.fault = false ∧ t.faultCount = s.faultCount ∧ Host.Core.run blockCore k s = .next t) ∧
  ∀ (j k : Nat) (s m t : State), s.fault = false → Host.Core.run blockCore j s = .next m → m.fault = true →
    Host.Core.run blockCore k m = .next t → t.final = false

/-! The host's side -/

/-- 44_host_interface R192, R193: the key pack and its failures, with the `Lk` of the configuration (00_scope R5):
that it stands there is the model's choice (log 28), and the total length is what R192 marks as general knowledge (D25;
log 22). -/
def Obligations.KeyPackFormat : Prop :=
  ∀ (c : Cfg) (K : Bytes),
    (K.length + 2 ≤ c.lk → c.lk ≤ 255 → ∃ pack, keypack c K = .ok pack ∧ pack.length = c.lk ∧
      byteAt pack 0 = BitVec.ofNat 8 c.lk ∧ (∀ k, k < K.length → byteAt pack (1 + k) = byteAt K k) ∧
      byteAt pack (1 + K.length) = 0x01 ∧ (∀ k, K.length + 2 ≤ k → byteAt pack k = 0x00) ∧
      ∀ N, sessionMaterial c K N = .ok (pack ++ N)) ∧
    (c.lk < K.length + 2 → keypack c K = .error (.keyPackTooLarge K.length c.lk)) ∧
    (K.length + 2 ≤ c.lk → 255 < c.lk → keypack c K = .error (.encode8Range c.lk))

/-! The derived quantities -/

/-- 00_scope R6: the quantities the parameters fix, for the seven widths of the document: `W`, `Wb` where it is an integer,
`stateBytes`, `N(b)` as tabulated and by its formula, `s`, `c′` as the least multiple of `W` that is ≥ `c`, and the four
reserved offsets. -/
def Obligations.DerivedQuantities : Prop :=
  ∀ c : Cfg,
    (∀ row ∈ [(25, 1, 4, 12), (50, 2, 7, 14), (100, 4, 13, 16), (200, 8, 25, 18), (400, 16, 50, 20), (800, 32, 100, 22),
        (1600, 64, 200, 24)], c.b = row.1 →
      25 * c.w = c.b ∧ c.w = row.2.1 ∧ (c.b ≤ 8 * c.stateBytes ∧ 8 * c.stateBytes < c.b + 8) ∧
      c.stateBytes = row.2.2.1 ∧ nominalRounds c.b = row.2.2.2 ∧ nominalRounds c.b = 12 + 2 * Nat.log2 c.w ∧
      (200 ≤ c.b → 8 * c.wb = c.w) ∧ (c.b < 200 → ¬ 8 ∣ c.w) ∧
      (c.nr ≤ nominalRounds c.b → c.start + c.nr = nominalRounds c.b) ∧
      (c.w ∣ c.cPrime ∧ c.c ≤ c.cPrime ∧ ∀ m, c.w ∣ m → c.c ≤ m → c.cPrime ≤ m)) ∧
    c.eom = c.ra ∧ c.cryptEnd = c.ra + 1 ∧ c.injectStart = c.ra + 2 ∧ c.injectEnd = c.ra + 3

/-! The streams -/

/-- 20_memory R60, R62, and R61 and R63 beside them: `hasMore` is true exactly while the cursor is before the end; `get`
then returns the byte under the cursor and moves it by one; `put` appends at the back and does not move the cursor;
`clear` empties the stream. -/
def Obligations.StreamPrimitives : Prop :=
  ∀ (x : ByteStream) (v : Byte),
    (x.hasMore = true ↔ x.pos < x.buf.length) ∧
    (x.hasMore = true → x.get = some (byteAt x.buf x.pos, { buf := x.buf, pos := x.pos + 1 })) ∧
    x.put v = { buf := x.buf ++ [v], pos := x.pos } ∧
    (x.pos ≤ x.buf.length → (x.put v).hasMore = true ∧ (x.put v).unread = x.unread ++ [v]) ∧
    x.clear = { buf := [], pos := 0 }
end

