-- ==== Sys2Proof/Laws/State.lean ====
section
/-! SUPPORT. The small lemmas of State: one for each field and each named update, so that no later proof unfolds a record
update. Lemmas about `port`, `stream?` and the streams follow at the end. -/

namespace Sys2Proof.Machine

/-! `State.emit` -/

@[simp] theorem State.emit_cfgPort (s : State) (i : Instr) : (s.emit i).cfgPort = s.cfgPort := rfl
@[simp] theorem State.emit_cfg (s : State) (i : Instr) : (s.emit i).cfg = s.cfg := rfl
@[simp] theorem State.emit_pistons (s : State) (i : Instr) : (s.emit i).pistons = s.pistons := rfl
@[simp] theorem State.emit_et (s : State) (i : Instr) : (s.emit i).et = s.et := rfl
@[simp] theorem State.emit_phaseE (s : State) (i : Instr) : (s.emit i).phaseE = s.phaseE := rfl
@[simp] theorem State.emit_phaseM (s : State) (i : Instr) : (s.emit i).phaseM = s.phaseM := rfl
@[simp] theorem State.emit_fault (s : State) (i : Instr) : (s.emit i).fault = s.fault := rfl
@[simp] theorem State.emit_cause (s : State) (i : Instr) : (s.emit i).cause = s.cause := rfl
@[simp] theorem State.emit_result (s : State) (i : Instr) : (s.emit i).result = s.result := rfl
@[simp] theorem State.emit_done (s : State) (i : Instr) : (s.emit i).done = s.done := rfl
@[simp] theorem State.emit_suv (s : State) (i : Instr) : (s.emit i).suv = s.suv := rfl
@[simp] theorem State.emit_inp (s : State) (i : Instr) : (s.emit i).inp = s.inp := rfl
@[simp] theorem State.emit_ad (s : State) (i : Instr) : (s.emit i).ad = s.ad := rfl
@[simp] theorem State.emit_tag (s : State) (i : Instr) : (s.emit i).tag = s.tag := rfl
@[simp] theorem State.emit_out (s : State) (i : Instr) : (s.emit i).out = s.out := rfl
@[simp] theorem State.emit_tPrime (s : State) (i : Instr) : (s.emit i).tPrime = s.tPrime := rfl
@[simp] theorem State.emit_xt (s : State) (i : Instr) : (s.emit i).xt = s.xt := rfl
@[simp] theorem State.emit_lines (s : State) (i : Instr) : (s.emit i).lines = s.lines := rfl
@[simp] theorem State.emit_issue (s : State) (i : Instr) : (s.emit i).issue = s.issue := rfl
@[simp] theorem State.emit_host (s : State) (i : Instr) : (s.emit i).host = s.host := rfl
@[simp] theorem State.emit_trace (s : State) (i : Instr) : (s.emit i).trace = s.trace ++ [encodeWord i] := rfl
@[simp] theorem State.emit_faultCount (s : State) (i : Instr) : (s.emit i).faultCount = s.faultCount := rfl

/-! `State.emitAll` -/

@[simp] theorem State.emitAll_cfgPort (s : State) (is : List Instr) : (s.emitAll is).cfgPort = s.cfgPort := rfl
@[simp] theorem State.emitAll_cfg (s : State) (is : List Instr) : (s.emitAll is).cfg = s.cfg := rfl
@[simp] theorem State.emitAll_pistons (s : State) (is : List Instr) : (s.emitAll is).pistons = s.pistons := rfl
@[simp] theorem State.emitAll_et (s : State) (is : List Instr) : (s.emitAll is).et = s.et := rfl
@[simp] theorem State.emitAll_phaseE (s : State) (is : List Instr) : (s.emitAll is).phaseE = s.phaseE := rfl
@[simp] theorem State.emitAll_phaseM (s : State) (is : List Instr) : (s.emitAll is).phaseM = s.phaseM := rfl
@[simp] theorem State.emitAll_fault (s : State) (is : List Instr) : (s.emitAll is).fault = s.fault := rfl
@[simp] theorem State.emitAll_cause (s : State) (is : List Instr) : (s.emitAll is).cause = s.cause := rfl
@[simp] theorem State.emitAll_result (s : State) (is : List Instr) : (s.emitAll is).result = s.result := rfl
@[simp] theorem State.emitAll_done (s : State) (is : List Instr) : (s.emitAll is).done = s.done := rfl
@[simp] theorem State.emitAll_suv (s : State) (is : List Instr) : (s.emitAll is).suv = s.suv := rfl
@[simp] theorem State.emitAll_inp (s : State) (is : List Instr) : (s.emitAll is).inp = s.inp := rfl
@[simp] theorem State.emitAll_ad (s : State) (is : List Instr) : (s.emitAll is).ad = s.ad := rfl
@[simp] theorem State.emitAll_tag (s : State) (is : List Instr) : (s.emitAll is).tag = s.tag := rfl
@[simp] theorem State.emitAll_out (s : State) (is : List Instr) : (s.emitAll is).out = s.out := rfl
@[simp] theorem State.emitAll_tPrime (s : State) (is : List Instr) : (s.emitAll is).tPrime = s.tPrime := rfl
@[simp] theorem State.emitAll_xt (s : State) (is : List Instr) : (s.emitAll is).xt = s.xt := rfl
@[simp] theorem State.emitAll_lines (s : State) (is : List Instr) : (s.emitAll is).lines = s.lines := rfl
@[simp] theorem State.emitAll_issue (s : State) (is : List Instr) : (s.emitAll is).issue = s.issue := rfl
@[simp] theorem State.emitAll_host (s : State) (is : List Instr) : (s.emitAll is).host = s.host := rfl
@[simp] theorem State.emitAll_trace (s : State) (is : List Instr) : (s.emitAll is).trace = s.trace ++ is.map encodeWord := rfl
@[simp] theorem State.emitAll_faultCount (s : State) (is : List Instr) : (s.emitAll is).faultCount = s.faultCount := rfl

/-! `State.setPhaseE` -/

@[simp] theorem State.setPhaseE_cfgPort (s : State) (p : PhaseE) : (s.setPhaseE p).cfgPort = s.cfgPort := rfl
@[simp] theorem State.setPhaseE_cfg (s : State) (p : PhaseE) : (s.setPhaseE p).cfg = s.cfg := rfl
@[simp] theorem State.setPhaseE_pistons (s : State) (p : PhaseE) : (s.setPhaseE p).pistons = s.pistons := rfl
@[simp] theorem State.setPhaseE_et (s : State) (p : PhaseE) : (s.setPhaseE p).et = s.et := rfl
@[simp] theorem State.setPhaseE_phaseE (s : State) (p : PhaseE) : (s.setPhaseE p).phaseE = p := rfl
@[simp] theorem State.setPhaseE_phaseM (s : State) (p : PhaseE) : (s.setPhaseE p).phaseM = s.phaseM := rfl
@[simp] theorem State.setPhaseE_fault (s : State) (p : PhaseE) : (s.setPhaseE p).fault = s.fault := rfl
@[simp] theorem State.setPhaseE_cause (s : State) (p : PhaseE) : (s.setPhaseE p).cause = s.cause := rfl
@[simp] theorem State.setPhaseE_result (s : State) (p : PhaseE) : (s.setPhaseE p).result = s.result := rfl
@[simp] theorem State.setPhaseE_done (s : State) (p : PhaseE) : (s.setPhaseE p).done = s.done := rfl
@[simp] theorem State.setPhaseE_suv (s : State) (p : PhaseE) : (s.setPhaseE p).suv = s.suv := rfl
@[simp] theorem State.setPhaseE_inp (s : State) (p : PhaseE) : (s.setPhaseE p).inp = s.inp := rfl
@[simp] theorem State.setPhaseE_ad (s : State) (p : PhaseE) : (s.setPhaseE p).ad = s.ad := rfl
@[simp] theorem State.setPhaseE_tag (s : State) (p : PhaseE) : (s.setPhaseE p).tag = s.tag := rfl
@[simp] theorem State.setPhaseE_out (s : State) (p : PhaseE) : (s.setPhaseE p).out = s.out := rfl
@[simp] theorem State.setPhaseE_tPrime (s : State) (p : PhaseE) : (s.setPhaseE p).tPrime = s.tPrime := rfl
@[simp] theorem State.setPhaseE_xt (s : State) (p : PhaseE) : (s.setPhaseE p).xt = s.xt := rfl
@[simp] theorem State.setPhaseE_lines (s : State) (p : PhaseE) : (s.setPhaseE p).lines = s.lines := rfl
@[simp] theorem State.setPhaseE_issue (s : State) (p : PhaseE) : (s.setPhaseE p).issue = s.issue := rfl
@[simp] theorem State.setPhaseE_host (s : State) (p : PhaseE) : (s.setPhaseE p).host = s.host := rfl
@[simp] theorem State.setPhaseE_trace (s : State) (p : PhaseE) : (s.setPhaseE p).trace = s.trace := rfl
@[simp] theorem State.setPhaseE_faultCount (s : State) (p : PhaseE) : (s.setPhaseE p).faultCount = s.faultCount := rfl

/-! `State.setPhaseM` -/

@[simp] theorem State.setPhaseM_cfgPort (s : State) (p : PhaseM) : (s.setPhaseM p).cfgPort = s.cfgPort := rfl
@[simp] theorem State.setPhaseM_cfg (s : State) (p : PhaseM) : (s.setPhaseM p).cfg = s.cfg := rfl
@[simp] theorem State.setPhaseM_pistons (s : State) (p : PhaseM) : (s.setPhaseM p).pistons = s.pistons := rfl
@[simp] theorem State.setPhaseM_et (s : State) (p : PhaseM) : (s.setPhaseM p).et = s.et := rfl
@[simp] theorem State.setPhaseM_phaseE (s : State) (p : PhaseM) : (s.setPhaseM p).phaseE = s.phaseE := rfl
@[simp] theorem State.setPhaseM_phaseM (s : State) (p : PhaseM) : (s.setPhaseM p).phaseM = p := rfl
@[simp] theorem State.setPhaseM_fault (s : State) (p : PhaseM) : (s.setPhaseM p).fault = s.fault := rfl
@[simp] theorem State.setPhaseM_cause (s : State) (p : PhaseM) : (s.setPhaseM p).cause = s.cause := rfl
@[simp] theorem State.setPhaseM_result (s : State) (p : PhaseM) : (s.setPhaseM p).result = s.result := rfl
@[simp] theorem State.setPhaseM_done (s : State) (p : PhaseM) : (s.setPhaseM p).done = s.done := rfl
@[simp] theorem State.setPhaseM_suv (s : State) (p : PhaseM) : (s.setPhaseM p).suv = s.suv := rfl
@[simp] theorem State.setPhaseM_inp (s : State) (p : PhaseM) : (s.setPhaseM p).inp = s.inp := rfl
@[simp] theorem State.setPhaseM_ad (s : State) (p : PhaseM) : (s.setPhaseM p).ad = s.ad := rfl
@[simp] theorem State.setPhaseM_tag (s : State) (p : PhaseM) : (s.setPhaseM p).tag = s.tag := rfl
@[simp] theorem State.setPhaseM_out (s : State) (p : PhaseM) : (s.setPhaseM p).out = s.out := rfl
@[simp] theorem State.setPhaseM_tPrime (s : State) (p : PhaseM) : (s.setPhaseM p).tPrime = s.tPrime := rfl
@[simp] theorem State.setPhaseM_xt (s : State) (p : PhaseM) : (s.setPhaseM p).xt = s.xt := rfl
@[simp] theorem State.setPhaseM_lines (s : State) (p : PhaseM) : (s.setPhaseM p).lines = s.lines := rfl
@[simp] theorem State.setPhaseM_issue (s : State) (p : PhaseM) : (s.setPhaseM p).issue = s.issue := rfl
@[simp] theorem State.setPhaseM_host (s : State) (p : PhaseM) : (s.setPhaseM p).host = s.host := rfl
@[simp] theorem State.setPhaseM_trace (s : State) (p : PhaseM) : (s.setPhaseM p).trace = s.trace := rfl
@[simp] theorem State.setPhaseM_faultCount (s : State) (p : PhaseM) : (s.setPhaseM p).faultCount = s.faultCount := rfl

/-! `State.setEt` -/

@[simp] theorem State.setEt_cfgPort (s : State) (es : List Byte) : (s.setEt es).cfgPort = s.cfgPort := rfl
@[simp] theorem State.setEt_cfg (s : State) (es : List Byte) : (s.setEt es).cfg = s.cfg := rfl
@[simp] theorem State.setEt_pistons (s : State) (es : List Byte) : (s.setEt es).pistons = s.pistons := rfl
@[simp] theorem State.setEt_et (s : State) (es : List Byte) : (s.setEt es).et = es := rfl
@[simp] theorem State.setEt_phaseE (s : State) (es : List Byte) : (s.setEt es).phaseE = s.phaseE := rfl
@[simp] theorem State.setEt_phaseM (s : State) (es : List Byte) : (s.setEt es).phaseM = s.phaseM := rfl
@[simp] theorem State.setEt_fault (s : State) (es : List Byte) : (s.setEt es).fault = s.fault := rfl
@[simp] theorem State.setEt_cause (s : State) (es : List Byte) : (s.setEt es).cause = s.cause := rfl
@[simp] theorem State.setEt_result (s : State) (es : List Byte) : (s.setEt es).result = s.result := rfl
@[simp] theorem State.setEt_done (s : State) (es : List Byte) : (s.setEt es).done = s.done := rfl
@[simp] theorem State.setEt_suv (s : State) (es : List Byte) : (s.setEt es).suv = s.suv := rfl
@[simp] theorem State.setEt_inp (s : State) (es : List Byte) : (s.setEt es).inp = s.inp := rfl
@[simp] theorem State.setEt_ad (s : State) (es : List Byte) : (s.setEt es).ad = s.ad := rfl
@[simp] theorem State.setEt_tag (s : State) (es : List Byte) : (s.setEt es).tag = s.tag := rfl
@[simp] theorem State.setEt_out (s : State) (es : List Byte) : (s.setEt es).out = s.out := rfl
@[simp] theorem State.setEt_tPrime (s : State) (es : List Byte) : (s.setEt es).tPrime = s.tPrime := rfl
@[simp] theorem State.setEt_xt (s : State) (es : List Byte) : (s.setEt es).xt = s.xt := rfl
@[simp] theorem State.setEt_lines (s : State) (es : List Byte) : (s.setEt es).lines = s.lines := rfl
@[simp] theorem State.setEt_issue (s : State) (es : List Byte) : (s.setEt es).issue = s.issue := rfl
@[simp] theorem State.setEt_host (s : State) (es : List Byte) : (s.setEt es).host = s.host := rfl
@[simp] theorem State.setEt_trace (s : State) (es : List Byte) : (s.setEt es).trace = s.trace := rfl
@[simp] theorem State.setEt_faultCount (s : State) (es : List Byte) : (s.setEt es).faultCount = s.faultCount := rfl

/-! `State.setTPrime` -/

@[simp] theorem State.setTPrime_cfgPort (s : State) (x : ByteStream) : (s.setTPrime x).cfgPort = s.cfgPort := rfl
@[simp] theorem State.setTPrime_cfg (s : State) (x : ByteStream) : (s.setTPrime x).cfg = s.cfg := rfl
@[simp] theorem State.setTPrime_pistons (s : State) (x : ByteStream) : (s.setTPrime x).pistons = s.pistons := rfl
@[simp] theorem State.setTPrime_et (s : State) (x : ByteStream) : (s.setTPrime x).et = s.et := rfl
@[simp] theorem State.setTPrime_phaseE (s : State) (x : ByteStream) : (s.setTPrime x).phaseE = s.phaseE := rfl
@[simp] theorem State.setTPrime_phaseM (s : State) (x : ByteStream) : (s.setTPrime x).phaseM = s.phaseM := rfl
@[simp] theorem State.setTPrime_fault (s : State) (x : ByteStream) : (s.setTPrime x).fault = s.fault := rfl
@[simp] theorem State.setTPrime_cause (s : State) (x : ByteStream) : (s.setTPrime x).cause = s.cause := rfl
@[simp] theorem State.setTPrime_result (s : State) (x : ByteStream) : (s.setTPrime x).result = s.result := rfl
@[simp] theorem State.setTPrime_done (s : State) (x : ByteStream) : (s.setTPrime x).done = s.done := rfl
@[simp] theorem State.setTPrime_suv (s : State) (x : ByteStream) : (s.setTPrime x).suv = s.suv := rfl
@[simp] theorem State.setTPrime_inp (s : State) (x : ByteStream) : (s.setTPrime x).inp = s.inp := rfl
@[simp] theorem State.setTPrime_ad (s : State) (x : ByteStream) : (s.setTPrime x).ad = s.ad := rfl
@[simp] theorem State.setTPrime_tag (s : State) (x : ByteStream) : (s.setTPrime x).tag = s.tag := rfl
@[simp] theorem State.setTPrime_out (s : State) (x : ByteStream) : (s.setTPrime x).out = s.out := rfl
@[simp] theorem State.setTPrime_tPrime (s : State) (x : ByteStream) : (s.setTPrime x).tPrime = x := rfl
@[simp] theorem State.setTPrime_xt (s : State) (x : ByteStream) : (s.setTPrime x).xt = s.xt := rfl
@[simp] theorem State.setTPrime_lines (s : State) (x : ByteStream) : (s.setTPrime x).lines = s.lines := rfl
@[simp] theorem State.setTPrime_issue (s : State) (x : ByteStream) : (s.setTPrime x).issue = s.issue := rfl
@[simp] theorem State.setTPrime_host (s : State) (x : ByteStream) : (s.setTPrime x).host = s.host := rfl
@[simp] theorem State.setTPrime_trace (s : State) (x : ByteStream) : (s.setTPrime x).trace = s.trace := rfl
@[simp] theorem State.setTPrime_faultCount (s : State) (x : ByteStream) : (s.setTPrime x).faultCount = s.faultCount := rfl

/-! `State.setXt` -/

@[simp] theorem State.setXt_cfgPort (s : State) (xs : List ByteStream) : (s.setXt xs).cfgPort = s.cfgPort := rfl
@[simp] theorem State.setXt_cfg (s : State) (xs : List ByteStream) : (s.setXt xs).cfg = s.cfg := rfl
@[simp] theorem State.setXt_pistons (s : State) (xs : List ByteStream) : (s.setXt xs).pistons = s.pistons := rfl
@[simp] theorem State.setXt_et (s : State) (xs : List ByteStream) : (s.setXt xs).et = s.et := rfl
@[simp] theorem State.setXt_phaseE (s : State) (xs : List ByteStream) : (s.setXt xs).phaseE = s.phaseE := rfl
@[simp] theorem State.setXt_phaseM (s : State) (xs : List ByteStream) : (s.setXt xs).phaseM = s.phaseM := rfl
@[simp] theorem State.setXt_fault (s : State) (xs : List ByteStream) : (s.setXt xs).fault = s.fault := rfl
@[simp] theorem State.setXt_cause (s : State) (xs : List ByteStream) : (s.setXt xs).cause = s.cause := rfl
@[simp] theorem State.setXt_result (s : State) (xs : List ByteStream) : (s.setXt xs).result = s.result := rfl
@[simp] theorem State.setXt_done (s : State) (xs : List ByteStream) : (s.setXt xs).done = s.done := rfl
@[simp] theorem State.setXt_suv (s : State) (xs : List ByteStream) : (s.setXt xs).suv = s.suv := rfl
@[simp] theorem State.setXt_inp (s : State) (xs : List ByteStream) : (s.setXt xs).inp = s.inp := rfl
@[simp] theorem State.setXt_ad (s : State) (xs : List ByteStream) : (s.setXt xs).ad = s.ad := rfl
@[simp] theorem State.setXt_tag (s : State) (xs : List ByteStream) : (s.setXt xs).tag = s.tag := rfl
@[simp] theorem State.setXt_out (s : State) (xs : List ByteStream) : (s.setXt xs).out = s.out := rfl
@[simp] theorem State.setXt_tPrime (s : State) (xs : List ByteStream) : (s.setXt xs).tPrime = s.tPrime := rfl
@[simp] theorem State.setXt_xt (s : State) (xs : List ByteStream) : (s.setXt xs).xt = xs := rfl
@[simp] theorem State.setXt_lines (s : State) (xs : List ByteStream) : (s.setXt xs).lines = s.lines := rfl
@[simp] theorem State.setXt_issue (s : State) (xs : List ByteStream) : (s.setXt xs).issue = s.issue := rfl
@[simp] theorem State.setXt_host (s : State) (xs : List ByteStream) : (s.setXt xs).host = s.host := rfl
@[simp] theorem State.setXt_trace (s : State) (xs : List ByteStream) : (s.setXt xs).trace = s.trace := rfl
@[simp] theorem State.setXt_faultCount (s : State) (xs : List ByteStream) : (s.setXt xs).faultCount = s.faultCount := rfl

/-! `State.complete` -/

@[simp] theorem State.complete_cfgPort (s : State) (r : Bool) : (s.complete r).cfgPort = s.cfgPort := rfl
@[simp] theorem State.complete_cfg (s : State) (r : Bool) : (s.complete r).cfg = s.cfg := rfl
@[simp] theorem State.complete_pistons (s : State) (r : Bool) : (s.complete r).pistons = s.pistons := rfl
@[simp] theorem State.complete_et (s : State) (r : Bool) : (s.complete r).et = s.et := rfl
@[simp] theorem State.complete_phaseE (s : State) (r : Bool) : (s.complete r).phaseE = s.phaseE := rfl
@[simp] theorem State.complete_phaseM (s : State) (r : Bool) : (s.complete r).phaseM = s.phaseM := rfl
@[simp] theorem State.complete_fault (s : State) (r : Bool) : (s.complete r).fault = s.fault := rfl
@[simp] theorem State.complete_cause (s : State) (r : Bool) : (s.complete r).cause = s.cause := rfl
@[simp] theorem State.complete_result (s : State) (r : Bool) : (s.complete r).result = r := rfl
@[simp] theorem State.complete_done (s : State) (r : Bool) : (s.complete r).done = true := rfl
@[simp] theorem State.complete_suv (s : State) (r : Bool) : (s.complete r).suv = s.suv := rfl
@[simp] theorem State.complete_inp (s : State) (r : Bool) : (s.complete r).inp = s.inp := rfl
@[simp] theorem State.complete_ad (s : State) (r : Bool) : (s.complete r).ad = s.ad := rfl
@[simp] theorem State.complete_tag (s : State) (r : Bool) : (s.complete r).tag = s.tag := rfl
@[simp] theorem State.complete_out (s : State) (r : Bool) : (s.complete r).out = s.out := rfl
@[simp] theorem State.complete_tPrime (s : State) (r : Bool) : (s.complete r).tPrime = s.tPrime := rfl
@[simp] theorem State.complete_xt (s : State) (r : Bool) : (s.complete r).xt = s.xt := rfl
@[simp] theorem State.complete_lines (s : State) (r : Bool) : (s.complete r).lines = s.lines := rfl
@[simp] theorem State.complete_issue (s : State) (r : Bool) : (s.complete r).issue = s.issue := rfl
@[simp] theorem State.complete_host (s : State) (r : Bool) : (s.complete r).host = s.host := rfl
@[simp] theorem State.complete_trace (s : State) (r : Bool) : (s.complete r).trace = s.trace := rfl
@[simp] theorem State.complete_faultCount (s : State) (r : Bool) : (s.complete r).faultCount = s.faultCount := rfl

/-! `State.setPiston` -/

@[simp] theorem State.setPiston_cfgPort (s : State) (i : Nat) (S : Bytes) : (s.setPiston i S).cfgPort = s.cfgPort := rfl
@[simp] theorem State.setPiston_cfg (s : State) (i : Nat) (S : Bytes) : (s.setPiston i S).cfg = s.cfg := rfl
@[simp] theorem State.setPiston_pistons (s : State) (i : Nat) (S : Bytes) : (s.setPiston i S).pistons = s.pistons.set i S := rfl
@[simp] theorem State.setPiston_et (s : State) (i : Nat) (S : Bytes) : (s.setPiston i S).et = s.et := rfl
@[simp] theorem State.setPiston_phaseE (s : State) (i : Nat) (S : Bytes) : (s.setPiston i S).phaseE = s.phaseE := rfl
@[simp] theorem State.setPiston_phaseM (s : State) (i : Nat) (S : Bytes) : (s.setPiston i S).phaseM = s.phaseM := rfl
@[simp] theorem State.setPiston_fault (s : State) (i : Nat) (S : Bytes) : (s.setPiston i S).fault = s.fault := rfl
@[simp] theorem State.setPiston_cause (s : State) (i : Nat) (S : Bytes) : (s.setPiston i S).cause = s.cause := rfl
@[simp] theorem State.setPiston_result (s : State) (i : Nat) (S : Bytes) : (s.setPiston i S).result = s.result := rfl
@[simp] theorem State.setPiston_done (s : State) (i : Nat) (S : Bytes) : (s.setPiston i S).done = s.done := rfl
@[simp] theorem State.setPiston_suv (s : State) (i : Nat) (S : Bytes) : (s.setPiston i S).suv = s.suv := rfl
@[simp] theorem State.setPiston_inp (s : State) (i : Nat) (S : Bytes) : (s.setPiston i S).inp = s.inp := rfl
@[simp] theorem State.setPiston_ad (s : State) (i : Nat) (S : Bytes) : (s.setPiston i S).ad = s.ad := rfl
@[simp] theorem State.setPiston_tag (s : State) (i : Nat) (S : Bytes) : (s.setPiston i S).tag = s.tag := rfl
@[simp] theorem State.setPiston_out (s : State) (i : Nat) (S : Bytes) : (s.setPiston i S).out = s.out := rfl
@[simp] theorem State.setPiston_tPrime (s : State) (i : Nat) (S : Bytes) : (s.setPiston i S).tPrime = s.tPrime := rfl
@[simp] theorem State.setPiston_xt (s : State) (i : Nat) (S : Bytes) : (s.setPiston i S).xt = s.xt := rfl
@[simp] theorem State.setPiston_lines (s : State) (i : Nat) (S : Bytes) : (s.setPiston i S).lines = s.lines := rfl
@[simp] theorem State.setPiston_issue (s : State) (i : Nat) (S : Bytes) : (s.setPiston i S).issue = s.issue := rfl
@[simp] theorem State.setPiston_host (s : State) (i : Nat) (S : Bytes) : (s.setPiston i S).host = s.host := rfl
@[simp] theorem State.setPiston_trace (s : State) (i : Nat) (S : Bytes) : (s.setPiston i S).trace = s.trace := rfl
@[simp] theorem State.setPiston_faultCount (s : State) (i : Nat) (S : Bytes) : (s.setPiston i S).faultCount = s.faultCount := rfl

/-! `State.enterFault` -/

@[simp] theorem State.enterFault_cfgPort (s : State) (r : Raise) : (s.enterFault r).cfgPort = s.cfgPort := rfl
@[simp] theorem State.enterFault_cfg (s : State) (r : Raise) : (s.enterFault r).cfg = s.cfg := rfl
@[simp] theorem State.enterFault_pistons (s : State) (r : Raise) : (s.enterFault r).pistons = s.pistons := rfl
@[simp] theorem State.enterFault_et (s : State) (r : Raise) : (s.enterFault r).et = s.et := rfl
@[simp] theorem State.enterFault_phaseE (s : State) (r : Raise) : (s.enterFault r).phaseE = s.phaseE := rfl
@[simp] theorem State.enterFault_phaseM (s : State) (r : Raise) : (s.enterFault r).phaseM = s.phaseM := rfl
@[simp] theorem State.enterFault_fault (s : State) (r : Raise) : (s.enterFault r).fault = true := rfl
@[simp] theorem State.enterFault_cause (s : State) (r : Raise) : (s.enterFault r).cause = r.cause := rfl
@[simp] theorem State.enterFault_result (s : State) (r : Raise) : (s.enterFault r).result = s.result := rfl
@[simp] theorem State.enterFault_done (s : State) (r : Raise) : (s.enterFault r).done = true := rfl
@[simp] theorem State.enterFault_suv (s : State) (r : Raise) : (s.enterFault r).suv = s.suv := rfl
@[simp] theorem State.enterFault_inp (s : State) (r : Raise) : (s.enterFault r).inp = s.inp := rfl
@[simp] theorem State.enterFault_ad (s : State) (r : Raise) : (s.enterFault r).ad = s.ad := rfl
@[simp] theorem State.enterFault_tag (s : State) (r : Raise) : (s.enterFault r).tag = s.tag := rfl
@[simp] theorem State.enterFault_out (s : State) (r : Raise) : (s.enterFault r).out = s.out := rfl
@[simp] theorem State.enterFault_tPrime (s : State) (r : Raise) : (s.enterFault r).tPrime = s.tPrime := rfl
@[simp] theorem State.enterFault_xt (s : State) (r : Raise) : (s.enterFault r).xt = s.xt := rfl
@[simp] theorem State.enterFault_lines (s : State) (r : Raise) : (s.enterFault r).lines = s.lines := rfl
@[simp] theorem State.enterFault_issue (s : State) (r : Raise) : (s.enterFault r).issue = s.issue := rfl
@[simp] theorem State.enterFault_host (s : State) (r : Raise) : (s.enterFault r).host = s.host := rfl
@[simp] theorem State.enterFault_trace (s : State) (r : Raise) : (s.enterFault r).trace = s.trace := rfl
@[simp] theorem State.enterFault_faultCount (s : State) (r : Raise) : (s.enterFault r).faultCount = s.faultCount + 1 := rfl

/-! `State.setArray` -/

@[simp] theorem State.setArray_cfgPort (s : State) (A : Bytes) : (s.setArray A).cfgPort = s.cfgPort := rfl
@[simp] theorem State.setArray_cfg (s : State) (A : Bytes) : (s.setArray A).cfg = s.cfg := rfl
@[simp] theorem State.setArray_pistons (s : State) (A : Bytes) : (s.setArray A).pistons = s.pistons := rfl
@[simp] theorem State.setArray_et (s : State) (A : Bytes) : (s.setArray A).et = s.et := rfl
@[simp] theorem State.setArray_phaseE (s : State) (A : Bytes) : (s.setArray A).phaseE = s.phaseE := rfl
@[simp] theorem State.setArray_phaseM (s : State) (A : Bytes) : (s.setArray A).phaseM = s.phaseM := rfl
@[simp] theorem State.setArray_fault (s : State) (A : Bytes) : (s.setArray A).fault = s.fault := rfl
@[simp] theorem State.setArray_cause (s : State) (A : Bytes) : (s.setArray A).cause = s.cause := rfl
@[simp] theorem State.setArray_result (s : State) (A : Bytes) : (s.setArray A).result = s.result := rfl
@[simp] theorem State.setArray_done (s : State) (A : Bytes) : (s.setArray A).done = s.done := rfl
@[simp] theorem State.setArray_suv (s : State) (A : Bytes) : (s.setArray A).suv = s.suv := rfl
@[simp] theorem State.setArray_inp (s : State) (A : Bytes) : (s.setArray A).inp = s.inp := rfl
@[simp] theorem State.setArray_ad (s : State) (A : Bytes) : (s.setArray A).ad = s.ad := rfl
@[simp] theorem State.setArray_tag (s : State) (A : Bytes) : (s.setArray A).tag = s.tag := rfl
@[simp] theorem State.setArray_out (s : State) (A : Bytes) : (s.setArray A).out = s.out := rfl
@[simp] theorem State.setArray_tPrime (s : State) (A : Bytes) : (s.setArray A).tPrime = s.tPrime := rfl
@[simp] theorem State.setArray_xt (s : State) (A : Bytes) : (s.setArray A).xt = s.xt := rfl
@[simp] theorem State.setArray_lines (s : State) (A : Bytes) : (s.setArray A).lines = { s.lines with state := A } := rfl
@[simp] theorem State.setArray_issue (s : State) (A : Bytes) : (s.setArray A).issue = s.issue := rfl
@[simp] theorem State.setArray_host (s : State) (A : Bytes) : (s.setArray A).host = s.host := rfl
@[simp] theorem State.setArray_trace (s : State) (A : Bytes) : (s.setArray A).trace = s.trace := rfl
@[simp] theorem State.setArray_faultCount (s : State) (A : Bytes) : (s.setArray A).faultCount = s.faultCount := rfl

/-! `State.setRet` -/

@[simp] theorem State.setRet_cfgPort (s : State) (b : Bool) : (s.setRet b).cfgPort = s.cfgPort := rfl
@[simp] theorem State.setRet_cfg (s : State) (b : Bool) : (s.setRet b).cfg = s.cfg := rfl
@[simp] theorem State.setRet_pistons (s : State) (b : Bool) : (s.setRet b).pistons = s.pistons := rfl
@[simp] theorem State.setRet_et (s : State) (b : Bool) : (s.setRet b).et = s.et := rfl
@[simp] theorem State.setRet_phaseE (s : State) (b : Bool) : (s.setRet b).phaseE = s.phaseE := rfl
@[simp] theorem State.setRet_phaseM (s : State) (b : Bool) : (s.setRet b).phaseM = s.phaseM := rfl
@[simp] theorem State.setRet_fault (s : State) (b : Bool) : (s.setRet b).fault = s.fault := rfl
@[simp] theorem State.setRet_cause (s : State) (b : Bool) : (s.setRet b).cause = s.cause := rfl
@[simp] theorem State.setRet_result (s : State) (b : Bool) : (s.setRet b).result = s.result := rfl
@[simp] theorem State.setRet_done (s : State) (b : Bool) : (s.setRet b).done = s.done := rfl
@[simp] theorem State.setRet_suv (s : State) (b : Bool) : (s.setRet b).suv = s.suv := rfl
@[simp] theorem State.setRet_inp (s : State) (b : Bool) : (s.setRet b).inp = s.inp := rfl
@[simp] theorem State.setRet_ad (s : State) (b : Bool) : (s.setRet b).ad = s.ad := rfl
@[simp] theorem State.setRet_tag (s : State) (b : Bool) : (s.setRet b).tag = s.tag := rfl
@[simp] theorem State.setRet_out (s : State) (b : Bool) : (s.setRet b).out = s.out := rfl
@[simp] theorem State.setRet_tPrime (s : State) (b : Bool) : (s.setRet b).tPrime = s.tPrime := rfl
@[simp] theorem State.setRet_xt (s : State) (b : Bool) : (s.setRet b).xt = s.xt := rfl
@[simp] theorem State.setRet_lines (s : State) (b : Bool) : (s.setRet b).lines = { s.lines with ret := b } := rfl
@[simp] theorem State.setRet_issue (s : State) (b : Bool) : (s.setRet b).issue = s.issue := rfl
@[simp] theorem State.setRet_host (s : State) (b : Bool) : (s.setRet b).host = s.host := rfl
@[simp] theorem State.setRet_trace (s : State) (b : Bool) : (s.setRet b).trace = s.trace := rfl
@[simp] theorem State.setRet_faultCount (s : State) (b : Bool) : (s.setRet b).faultCount = s.faultCount := rfl

/-! `State.xorByte` -/

@[simp] theorem State.xorByte_cfgPort (s : State) (i k : Nat) (v : Byte) : (s.xorByte i k v).cfgPort = s.cfgPort := rfl
@[simp] theorem State.xorByte_cfg (s : State) (i k : Nat) (v : Byte) : (s.xorByte i k v).cfg = s.cfg := rfl
@[simp] theorem State.xorByte_pistons (s : State) (i k : Nat) (v : Byte) : (s.xorByte i k v).pistons = s.pistons.set i (xorAt (s.pistons.getD i []) k v) := rfl
@[simp] theorem State.xorByte_et (s : State) (i k : Nat) (v : Byte) : (s.xorByte i k v).et = s.et := rfl
@[simp] theorem State.xorByte_phaseE (s : State) (i k : Nat) (v : Byte) : (s.xorByte i k v).phaseE = s.phaseE := rfl
@[simp] theorem State.xorByte_phaseM (s : State) (i k : Nat) (v : Byte) : (s.xorByte i k v).phaseM = s.phaseM := rfl
@[simp] theorem State.xorByte_fault (s : State) (i k : Nat) (v : Byte) : (s.xorByte i k v).fault = s.fault := rfl
@[simp] theorem State.xorByte_cause (s : State) (i k : Nat) (v : Byte) : (s.xorByte i k v).cause = s.cause := rfl
@[simp] theorem State.xorByte_result (s : State) (i k : Nat) (v : Byte) : (s.xorByte i k v).result = s.result := rfl
@[simp] theorem State.xorByte_done (s : State) (i k : Nat) (v : Byte) : (s.xorByte i k v).done = s.done := rfl
@[simp] theorem State.xorByte_suv (s : State) (i k : Nat) (v : Byte) : (s.xorByte i k v).suv = s.suv := rfl
@[simp] theorem State.xorByte_inp (s : State) (i k : Nat) (v : Byte) : (s.xorByte i k v).inp = s.inp := rfl
@[simp] theorem State.xorByte_ad (s : State) (i k : Nat) (v : Byte) : (s.xorByte i k v).ad = s.ad := rfl
@[simp] theorem State.xorByte_tag (s : State) (i k : Nat) (v : Byte) : (s.xorByte i k v).tag = s.tag := rfl
@[simp] theorem State.xorByte_out (s : State) (i k : Nat) (v : Byte) : (s.xorByte i k v).out = s.out := rfl
@[simp] theorem State.xorByte_tPrime (s : State) (i k : Nat) (v : Byte) : (s.xorByte i k v).tPrime = s.tPrime := rfl
@[simp] theorem State.xorByte_xt (s : State) (i k : Nat) (v : Byte) : (s.xorByte i k v).xt = s.xt := rfl
@[simp] theorem State.xorByte_lines (s : State) (i k : Nat) (v : Byte) : (s.xorByte i k v).lines = s.lines := rfl
@[simp] theorem State.xorByte_issue (s : State) (i k : Nat) (v : Byte) : (s.xorByte i k v).issue = s.issue := rfl
@[simp] theorem State.xorByte_host (s : State) (i k : Nat) (v : Byte) : (s.xorByte i k v).host = s.host := rfl
@[simp] theorem State.xorByte_trace (s : State) (i k : Nat) (v : Byte) : (s.xorByte i k v).trace = s.trace := rfl
@[simp] theorem State.xorByte_faultCount (s : State) (i k : Nat) (v : Byte) : (s.xorByte i k v).faultCount = s.faultCount := rfl

/-! `State.setPort` -/

@[simp] theorem State.setPort_cfgPort (s : State) (p : Port) (x : ByteStream) : (s.setPort p x).cfgPort = s.cfgPort := by cases p <;> rfl
@[simp] theorem State.setPort_cfg (s : State) (p : Port) (x : ByteStream) : (s.setPort p x).cfg = s.cfg := by cases p <;> rfl
@[simp] theorem State.setPort_pistons (s : State) (p : Port) (x : ByteStream) : (s.setPort p x).pistons = s.pistons := by cases p <;> rfl
@[simp] theorem State.setPort_et (s : State) (p : Port) (x : ByteStream) : (s.setPort p x).et = s.et := by cases p <;> rfl
@[simp] theorem State.setPort_phaseE (s : State) (p : Port) (x : ByteStream) : (s.setPort p x).phaseE = s.phaseE := by cases p <;> rfl
@[simp] theorem State.setPort_phaseM (s : State) (p : Port) (x : ByteStream) : (s.setPort p x).phaseM = s.phaseM := by cases p <;> rfl
@[simp] theorem State.setPort_fault (s : State) (p : Port) (x : ByteStream) : (s.setPort p x).fault = s.fault := by cases p <;> rfl
@[simp] theorem State.setPort_cause (s : State) (p : Port) (x : ByteStream) : (s.setPort p x).cause = s.cause := by cases p <;> rfl
@[simp] theorem State.setPort_result (s : State) (p : Port) (x : ByteStream) : (s.setPort p x).result = s.result := by cases p <;> rfl
@[simp] theorem State.setPort_done (s : State) (p : Port) (x : ByteStream) : (s.setPort p x).done = s.done := by cases p <;> rfl
@[simp] theorem State.setPort_tPrime (s : State) (p : Port) (x : ByteStream) : (s.setPort p x).tPrime = s.tPrime := by cases p <;> rfl
@[simp] theorem State.setPort_xt (s : State) (p : Port) (x : ByteStream) : (s.setPort p x).xt = s.xt := by cases p <;> rfl
@[simp] theorem State.setPort_lines (s : State) (p : Port) (x : ByteStream) : (s.setPort p x).lines = s.lines := by cases p <;> rfl
@[simp] theorem State.setPort_issue (s : State) (p : Port) (x : ByteStream) : (s.setPort p x).issue = s.issue := by cases p <;> rfl
@[simp] theorem State.setPort_host (s : State) (p : Port) (x : ByteStream) : (s.setPort p x).host = s.host := by cases p <;> rfl
@[simp] theorem State.setPort_trace (s : State) (p : Port) (x : ByteStream) : (s.setPort p x).trace = s.trace := by cases p <;> rfl
@[simp] theorem State.setPort_faultCount (s : State) (p : Port) (x : ByteStream) : (s.setPort p x).faultCount = s.faultCount := by cases p <;> rfl

/-! `State.setStream` -/

@[simp] theorem State.setStream_cfgPort (s : State) (n : StreamName) (x : ByteStream) : (s.setStream n x).cfgPort = s.cfgPort := by
  cases n with
  | port p => cases p <;> rfl
  | tPrime => rfl
  | xt k => rfl
@[simp] theorem State.setStream_cfg (s : State) (n : StreamName) (x : ByteStream) : (s.setStream n x).cfg = s.cfg := by
  cases n with
  | port p => cases p <;> rfl
  | tPrime => rfl
  | xt k => rfl
@[simp] theorem State.setStream_pistons (s : State) (n : StreamName) (x : ByteStream) : (s.setStream n x).pistons = s.pistons := by
  cases n with
  | port p => cases p <;> rfl
  | tPrime => rfl
  | xt k => rfl
@[simp] theorem State.setStream_et (s : State) (n : StreamName) (x : ByteStream) : (s.setStream n x).et = s.et := by
  cases n with
  | port p => cases p <;> rfl
  | tPrime => rfl
  | xt k => rfl
@[simp] theorem State.setStream_phaseE (s : State) (n : StreamName) (x : ByteStream) : (s.setStream n x).phaseE = s.phaseE := by
  cases n with
  | port p => cases p <;> rfl
  | tPrime => rfl
  | xt k => rfl
@[simp] theorem State.setStream_phaseM (s : State) (n : StreamName) (x : ByteStream) : (s.setStream n x).phaseM = s.phaseM := by
  cases n with
  | port p => cases p <;> rfl
  | tPrime => rfl
  | xt k => rfl
@[simp] theorem State.setStream_fault (s : State) (n : StreamName) (x : ByteStream) : (s.setStream n x).fault = s.fault := by
  cases n with
  | port p => cases p <;> rfl
  | tPrime => rfl
  | xt k => rfl
@[simp] theorem State.setStream_cause (s : State) (n : StreamName) (x : ByteStream) : (s.setStream n x).cause = s.cause := by
  cases n with
  | port p => cases p <;> rfl
  | tPrime => rfl
  | xt k => rfl
@[simp] theorem State.setStream_result (s : State) (n : StreamName) (x : ByteStream) : (s.setStream n x).result = s.result := by
  cases n with
  | port p => cases p <;> rfl
  | tPrime => rfl
  | xt k => rfl
@[simp] theorem State.setStream_done (s : State) (n : StreamName) (x : ByteStream) : (s.setStream n x).done = s.done := by
  cases n with
  | port p => cases p <;> rfl
  | tPrime => rfl
  | xt k => rfl
@[simp] theorem State.setStream_lines (s : State) (n : StreamName) (x : ByteStream) : (s.setStream n x).lines = s.lines := by
  cases n with
  | port p => cases p <;> rfl
  | tPrime => rfl
  | xt k => rfl
@[simp] theorem State.setStream_issue (s : State) (n : StreamName) (x : ByteStream) : (s.setStream n x).issue = s.issue := by
  cases n with
  | port p => cases p <;> rfl
  | tPrime => rfl
  | xt k => rfl
@[simp] theorem State.setStream_host (s : State) (n : StreamName) (x : ByteStream) : (s.setStream n x).host = s.host := by
  cases n with
  | port p => cases p <;> rfl
  | tPrime => rfl
  | xt k => rfl
@[simp] theorem State.setStream_trace (s : State) (n : StreamName) (x : ByteStream) : (s.setStream n x).trace = s.trace := by
  cases n with
  | port p => cases p <;> rfl
  | tPrime => rfl
  | xt k => rfl
@[simp] theorem State.setStream_faultCount (s : State) (n : StreamName) (x : ByteStream) : (s.setStream n x).faultCount = s.faultCount := by
  cases n with
  | port p => cases p <;> rfl
  | tPrime => rfl
  | xt k => rfl

/-! `State.cleared` -/

@[simp] theorem State.cleared_cfgPort (s : State) : s.cleared.cfgPort = s.cfgPort := rfl
@[simp] theorem State.cleared_cfg (s : State) : s.cleared.cfg = s.cfgPort := rfl
@[simp] theorem State.cleared_pistons (s : State) : s.cleared.pistons = List.replicate s.cfgPort.pi (List.replicate s.cfgPort.stateBytes 0) := rfl
@[simp] theorem State.cleared_et (s : State) : s.cleared.et = List.replicate s.cfgPort.pi 0 := rfl
@[simp] theorem State.cleared_phaseE (s : State) : s.cleared.phaseE = .fresh := rfl
@[simp] theorem State.cleared_phaseM (s : State) : s.cleared.phaseM = .ready := rfl
@[simp] theorem State.cleared_fault (s : State) : s.cleared.fault = false := rfl
@[simp] theorem State.cleared_cause (s : State) : s.cleared.cause = .none := rfl
@[simp] theorem State.cleared_result (s : State) : s.cleared.result = false := rfl
@[simp] theorem State.cleared_done (s : State) : s.cleared.done = false := rfl
@[simp] theorem State.cleared_suv (s : State) : s.cleared.suv = ByteStream.empty := rfl
@[simp] theorem State.cleared_inp (s : State) : s.cleared.inp = ByteStream.empty := rfl
@[simp] theorem State.cleared_ad (s : State) : s.cleared.ad = ByteStream.empty := rfl
@[simp] theorem State.cleared_tag (s : State) : s.cleared.tag = ByteStream.empty := rfl
@[simp] theorem State.cleared_out (s : State) : s.cleared.out = ByteStream.empty := rfl
@[simp] theorem State.cleared_tPrime (s : State) : s.cleared.tPrime = ByteStream.empty := rfl
@[simp] theorem State.cleared_xt (s : State) : s.cleared.xt = [] := rfl
@[simp] theorem State.cleared_issue (s : State) : s.cleared.issue = none := rfl
@[simp] theorem State.cleared_host (s : State) : s.cleared.host = s.host := rfl
@[simp] theorem State.cleared_trace (s : State) : s.cleared.trace = [] := rfl
@[simp] theorem State.cleared_faultCount (s : State) : s.cleared.faultCount = s.faultCount := rfl
@[simp] theorem State.cleared_lens (s : State) : s.cleared.lines.lens = List.replicate s.cfgPort.pi 0 := rfl

/-! Ports and named streams. -/

theorem State.setPort_port (s : State) (p q : Port) (x : ByteStream) :
    (s.setPort p x).port q = if q = p then x else s.port q := by
  cases p <;> cases q <;> rfl

@[simp] theorem State.setPort_port_self (s : State) (p : Port) (x : ByteStream) : (s.setPort p x).port p = x := by
  cases p <;> rfl

@[simp] theorem State.emit_port (s : State) (i : Instr) (q : Port) : (s.emit i).port q = s.port q := by cases q <;> rfl
@[simp] theorem State.emitAll_port (s : State) (is : List Instr) (q : Port) : (s.emitAll is).port q = s.port q := by cases q <;> rfl
@[simp] theorem State.setPhaseE_port (s : State) (p : PhaseE) (q : Port) : (s.setPhaseE p).port q = s.port q := by cases q <;> rfl
@[simp] theorem State.setPhaseM_port (s : State) (p : PhaseM) (q : Port) : (s.setPhaseM p).port q = s.port q := by cases q <;> rfl
@[simp] theorem State.setEt_port (s : State) (es : List Byte) (q : Port) : (s.setEt es).port q = s.port q := by cases q <;> rfl
@[simp] theorem State.setTPrime_port (s : State) (x : ByteStream) (q : Port) : (s.setTPrime x).port q = s.port q := by cases q <;> rfl
@[simp] theorem State.setXt_port (s : State) (xs : List ByteStream) (q : Port) : (s.setXt xs).port q = s.port q := by cases q <;> rfl
@[simp] theorem State.complete_port (s : State) (r : Bool) (q : Port) : (s.complete r).port q = s.port q := by cases q <;> rfl
@[simp] theorem State.setPiston_port (s : State) (i : Nat) (S : Bytes) (q : Port) : (s.setPiston i S).port q = s.port q := by cases q <;> rfl
@[simp] theorem State.enterFault_port (s : State) (r : Raise) (q : Port) : (s.enterFault r).port q = s.port q := by cases q <;> rfl
@[simp] theorem State.setArray_port (s : State) (A : Bytes) (q : Port) : (s.setArray A).port q = s.port q := by cases q <;> rfl
@[simp] theorem State.setRet_port (s : State) (b : Bool) (q : Port) : (s.setRet b).port q = s.port q := by cases q <;> rfl
@[simp] theorem State.xorByte_port (s : State) (i k : Nat) (v : Byte) (q : Port) : (s.xorByte i k v).port q = s.port q := by cases q <;> rfl

@[simp] theorem State.emit_stream (s : State) (i : Instr) (m : StreamName) : (s.emit i).stream? m = s.stream? m := by
  cases m <;> simp [State.stream?]
@[simp] theorem State.emitAll_stream (s : State) (is : List Instr) (m : StreamName) : (s.emitAll is).stream? m = s.stream? m := by
  cases m <;> simp [State.stream?]
@[simp] theorem State.setPhaseE_stream (s : State) (p : PhaseE) (m : StreamName) : (s.setPhaseE p).stream? m = s.stream? m := by
  cases m <;> simp [State.stream?]
@[simp] theorem State.setPhaseM_stream (s : State) (p : PhaseM) (m : StreamName) : (s.setPhaseM p).stream? m = s.stream? m := by
  cases m <;> simp [State.stream?]
@[simp] theorem State.setEt_stream (s : State) (es : List Byte) (m : StreamName) : (s.setEt es).stream? m = s.stream? m := by
  cases m <;> simp [State.stream?]
@[simp] theorem State.complete_stream (s : State) (r : Bool) (m : StreamName) : (s.complete r).stream? m = s.stream? m := by
  cases m <;> simp [State.stream?]
@[simp] theorem State.setPiston_stream (s : State) (i : Nat) (S : Bytes) (m : StreamName) : (s.setPiston i S).stream? m = s.stream? m := by
  cases m <;> simp [State.stream?]
@[simp] theorem State.enterFault_stream (s : State) (r : Raise) (m : StreamName) : (s.enterFault r).stream? m = s.stream? m := by
  cases m <;> simp [State.stream?]
@[simp] theorem State.setArray_stream (s : State) (A : Bytes) (m : StreamName) : (s.setArray A).stream? m = s.stream? m := by
  cases m <;> simp [State.stream?]
@[simp] theorem State.setRet_stream (s : State) (b : Bool) (m : StreamName) : (s.setRet b).stream? m = s.stream? m := by
  cases m <;> simp [State.stream?]
@[simp] theorem State.xorByte_stream (s : State) (i k : Nat) (v : Byte) (m : StreamName) : (s.xorByte i k v).stream? m = s.stream? m := by
  cases m <;> simp [State.stream?]

/-- A name that stands for a stream stands for the one put there; every other name keeps its stream. -/
theorem State.setStream_stream (s : State) (m n : StreamName) (x y : ByteStream) (h : s.stream? m = some y) :
    (s.setStream m x).stream? n = if n = m then some x else s.stream? n := by
  cases m with
  | port p =>
    cases n with
    | port q => simp only [State.setStream, State.stream?, State.setPort_port, StreamName.port.injEq]; split <;> rfl
    | tPrime => simp [State.setStream, State.stream?]
    | xt k => simp [State.setStream, State.stream?]
  | tPrime =>
    cases n with
    | port q => cases q <;> simp [State.setStream, State.stream?, State.port]
    | tPrime => simp [State.setStream, State.stream?]
    | xt k => simp [State.setStream, State.stream?]
  | xt j =>
    have hj : j < s.xt.length := (List.getElem?_eq_some_iff.mp h).1
    cases n with
    | port q => cases q <;> simp [State.setStream, State.stream?, State.port]
    | tPrime => simp [State.setStream, State.stream?]
    | xt k =>
      simp only [State.setStream, State.stream?, StreamName.xt.injEq, List.getElem?_set]
      by_cases hk : k = j
      · subst hk; simp [hj]
      · simp [hk, Ne.symm hk]

end Sys2Proof.Machine
end

