-- ==== Sys2Proof/Laws/Ops.lean ====
section
/-! SUPPORT. What each named operation of Machine/Ops.lean can do, said once: streams, bytes of a Piston state, the
Piston gate, `enc8`, the loop over Pistons, the canonical form of the buffers, admission. -/

namespace Sys2Proof.Machine

/-! `enc8` -/

theorem enc8_of_le {v : Nat} (h : v ≤ 255) : enc8 v = some (BitVec.ofNat 8 v) := by simp [enc8, h]

theorem enc8_eq_none {v : Nat} : enc8 v = none ↔ 255 < v := by
  unfold enc8; split <;> simp <;> omega

/-! Streams -/

theorem ByteStream.unread_length (x : ByteStream) : x.unread.length = x.buf.length - x.pos := by
  simp [ByteStream.unread]

theorem ByteStream.hasMore_iff (x : ByteStream) : x.hasMore = true ↔ 0 < x.unread.length := by
  simp [ByteStream.hasMore, ByteStream.unread]

theorem ByteStream.hasMore_eq_false_iff (x : ByteStream) : x.hasMore = false ↔ x.unread = [] := by
  simp [ByteStream.hasMore, ByteStream.unread]

theorem ByteStream.get_eq_none_iff (x : ByteStream) : x.get = none ↔ x.unread = [] := by
  unfold ByteStream.get ByteStream.unread
  cases h : x.buf[x.pos]? with
  | none => simpa using List.getElem?_eq_none_iff.mp h
  | some v =>
    have := (List.getElem?_eq_some_iff.mp h).1
    simp; omega

/-- A `get` gives the first unread byte and leaves the rest unread, with the cursor one further. -/
theorem ByteStream.get_of_unread {x : ByteStream} {v : Byte} {vs : Bytes} (h : x.unread = v :: vs) :
    x.get = some (v, { x with pos := x.pos + 1 }) ∧ ({ x with pos := x.pos + 1 } : ByteStream).unread = vs := by
  have hv : x.buf[x.pos]? = some v := by
    have := congrArg (fun l => l[0]?) h
    simpa [ByteStream.unread] using this
  refine ⟨by simp [ByteStream.get, hv], ?_⟩
  have := congrArg List.tail h
  simpa [ByteStream.unread] using this

@[simp] theorem ByteStream.consumed_unread (x : ByteStream) : x.consumed.unread = [] := by
  simp [ByteStream.consumed, ByteStream.unread]

@[simp] theorem ByteStream.ofBytes_unread (vs : Bytes) : (ByteStream.ofBytes vs).unread = vs := by
  simp [ByteStream.ofBytes, ByteStream.unread]

@[simp] theorem ByteStream.empty_unread : ByteStream.empty.unread = [] := rfl

theorem ByteStream.putAll_cons (x : ByteStream) (v : Byte) (vs : Bytes) :
    x.putAll (v :: vs) = (x.put v).putAll vs := by
  simp [ByteStream.putAll, ByteStream.put]

/-! Bytes of a Piston state -/

@[simp] theorem xorAt_length (S : Bytes) (k : Nat) (v : Byte) : (xorAt S k v).length = S.length := by simp [xorAt]

@[simp] theorem storeAt_length (S : Bytes) (k : Nat) (v : Byte) : (storeAt S k v).length = S.length := by
  simp [storeAt]

theorem byteAt_storeAt (S : Bytes) (j k : Nat) (v : Byte) (h : k < S.length) :
    byteAt (storeAt S k v) j = if j = k then v else byteAt S j := by
  unfold byteAt storeAt
  by_cases hjk : j = k
  · subst hjk; simp [h]
  · simp [List.getD_eq_getElem?_getD, hjk, Ne.symm hjk]

theorem byteAt_xorAt (S : Bytes) (j k : Nat) (v : Byte) (h : k < S.length) :
    byteAt (xorAt S k v) j = if j = k then byteAt S k ^^^ v else byteAt S j :=
  byteAt_storeAt S j k _ h

theorem byteAt_xorAt_ne (S : Bytes) {j k : Nat} (v : Byte) (h : j ≠ k) : byteAt (xorAt S k v) j = byteAt S j := by
  unfold byteAt xorAt
  simp [List.getD_eq_getElem?_getD, Ne.symm h]

/-- Two states of one length with the same bytes are the same state. -/
theorem ext_byteAt {S S' : Bytes} (hl : S.length = S'.length) (h : ∀ k, k < S.length → byteAt S k = byteAt S' k) :
    S = S' := by
  apply List.ext_getElem hl
  intro k h1 h2
  have := h k h1
  simpa [byteAt, List.getD_eq_getElem?_getD, h1, h2] using this

/-! The Piston gate -/

theorem pistonBuilt_iff (c : Cfg) (S : Bytes) :
    pistonBuilt c S = true ↔ S.length = c.stateBytes ∧ c.rs ≤ c.ra ∧ c.ra + 4 ≤ c.stateBytes := by
  simp [pistonBuilt, and_assoc]

theorem State.piston_eq_ok_iff (s : State) (i : Nat) (S : Bytes) :
    s.piston i = .ok S ↔ s.pistons[i]? = some S ∧ pistonBuilt s.cfg S = true := by
  unfold State.piston stop
  cases h : s.pistons[i]? with
  | none => simp
  | some S' =>
    by_cases hb : pistonBuilt s.cfg S' = true
    · simp only [hb, if_true, Except.ok.injEq, Option.some.injEq]
      constructor
      · rintro rfl; exact ⟨rfl, hb⟩
      · exact fun h => h.1
    · simp only [hb]
      simp only [Bool.false_eq_true, if_false, reduceCtorEq, Option.some.injEq, false_iff, not_and]
      rintro rfl; exact hb

/-- A lookup gives the Piston's buffer or stops; it raises nothing. -/
theorem State.piston_cases (s : State) (i : Nat) :
    (∃ S, s.piston i = .ok S) ∨ s.piston i = .error (.stuck (.noSuchPiston i)) := by
  unfold State.piston stop
  split
  · split
    · exact .inl ⟨_, rfl⟩
    · exact .inr rfl
  · exact .inr rfl

theorem State.stream_eq_ok_iff (s : State) (n : StreamName) (x : ByteStream) :
    s.stream n = .ok x ↔ s.stream? n = some x := by
  unfold State.stream stop
  cases s.stream? n <;> simp

theorem State.stream_cases (s : State) (n : StreamName) :
    (∃ x, s.stream n = .ok x) ∨ s.stream n = .error (.stuck (.noSuchStream n)) := by
  unfold State.stream stop
  cases s.stream? n <;> simp

@[simp] theorem State.stream_port (s : State) (p : Port) : s.stream (.port p) = .ok (s.port p) := rfl

@[simp] theorem State.stream_tPrime (s : State) : s.stream .tPrime = .ok s.tPrime := rfl

/-- The byte of a Piston XORed with `enc8(v)`: done when `v` fits one byte, else `Encode8Range` with nothing changed. -/
theorem State.xorEnc8_cases (s : State) (i k v : Nat) :
    (v ≤ 255 ∧ s.xorEnc8 i k v = .ok (s.xorByte i k (BitVec.ofNat 8 v))) ∨
      (255 < v ∧ s.xorEnc8 i k v = .error (.raised (.encode8Range v) s)) := by
  unfold State.xorEnc8 raise
  by_cases h : v ≤ 255
  · exact .inl ⟨h, by simp [enc8_of_le h]⟩
  · exact .inr ⟨by omega, by simp [enc8_eq_none.mpr (show 255 < v by omega)]⟩

theorem State.xorEnc8_of_le (s : State) (i k : Nat) {v : Nat} (h : v ≤ 255) :
    s.xorEnc8 i k v = .ok (s.xorByte i k (BitVec.ofNat 8 v)) := by
  simp [State.xorEnc8, enc8_of_le h]

/-! The loop over Pistons -/

theorem forEach_nil (f : Nat → State → Result State) (s : State) : forEach f [] s = .ok s := rfl

theorem forEach_cons (f : Nat → State → Result State) (i : Nat) (is : List Nat) (s : State) :
    forEach f (i :: is) s = (f i s >>= forEach f is) := by
  show (match f i s with | .ok s' => _ | .error e => _) = _
  cases f i s <;> rfl

theorem forEach_append (f : Nat → State → Result State) (is js : List Nat) (s : State) :
    forEach f (is ++ js) s = (forEach f is s >>= forEach f js) := by
  induction is generalizing s with
  | nil => rfl
  | cons i is ih =>
    rw [List.cons_append, forEach_cons, forEach_cons]
    cases h : f i s with
    | ok s' => exact ih s'
    | error e => rfl

/-- A property of the state before the k-th turn that every turn carries on to the next holds at the end. -/
theorem forEach_range_ok {f : Nat → State → Result State} {P : Nat → State → Prop} {n : Nat} {s : State}
    (h0 : P 0 s) (hstep : ∀ k s, k < n → P k s → ∃ t, f k s = .ok t ∧ P (k + 1) t) :
    ∃ t, forEach f (List.range n) s = .ok t ∧ P n t := by
  induction n with
  | zero => exact ⟨s, rfl, h0⟩
  | succ n ih =>
    obtain ⟨t, ht, hP⟩ := ih fun k s hk => hstep k s (by omega)
    obtain ⟨u, hu, hQ⟩ := hstep n t (by omega) hP
    refine ⟨u, ?_, hQ⟩
    rw [List.range_succ, forEach_append, ht]
    show forEach f [n] t = _
    rw [forEach_cons, hu]; rfl

/-- A relation that every turn keeps, ending normally or in a fault, is kept by the whole loop. -/
theorem forEach_keeps {f : Nat → State → Result State} {R : State → State → Prop} (hrefl : ∀ s, R s s)
    (htrans : ∀ {a b c}, R a b → R b c → R a c)
    (hok : ∀ i s t, f i s = .ok t → R s t) (herr : ∀ i s r t, f i s = .error (.raised r t) → R s t)
    (is : List Nat) (s : State) :
    (∀ t, forEach f is s = .ok t → R s t) ∧ (∀ r t, forEach f is s = .error (.raised r t) → R s t) := by
  induction is generalizing s with
  | nil =>
    constructor
    · rintro t h; cases h; exact hrefl s
    · rintro r t h; cases h
  | cons i is ih =>
    rw [forEach_cons]
    cases h : f i s with
    | ok u =>
      have hu := hok i s u h
      exact ⟨fun t ht => htrans hu ((ih u).1 t ht), fun r t ht => htrans hu ((ih u).2 r t ht)⟩
    | error e =>
      refine ⟨fun t ht => (by cases ht), fun r t ht => ?_⟩
      cases ht; exact herr i s r t h

/-! The canonical form of the buffers -/

theorem Memory.wf_iff (c : Cfg) (ps : List Bytes) :
    Memory.wf c ps = true ↔ ps.length = c.pi ∧ ∀ S ∈ ps, S.length = c.stateBytes := by
  simp [Memory.wf]

/-- Putting a buffer of the same length in a Piston's place keeps the form. -/
theorem Memory.wf_set {c : Cfg} {ps : List Bytes} (h : Memory.wf c ps = true) (i : Nat) {S : Bytes}
    (hS : S.length = c.stateBytes) : Memory.wf c (ps.set i S) = true := by
  rw [Memory.wf_iff] at h ⊢
  refine ⟨by simpa using h.1, fun T hT => ?_⟩
  rcases List.mem_or_eq_of_mem_set hT with h' | rfl
  · exact h.2 T h'
  · exact hS

theorem Memory.wf_get {c : Cfg} {ps : List Bytes} (h : Memory.wf c ps = true) {i : Nat} {S : Bytes}
    (hS : ps[i]? = some S) : S.length = c.stateBytes :=
  ((Memory.wf_iff c ps).mp h).2 S (List.mem_of_getElem? hS)

/-- `S[i][k] <- S[i][k] ^ v` keeps the form. -/
theorem Memory.wf_xorByte {s : State} (h : Memory.wf s.cfg s.pistons = true) (i k : Nat) (v : Byte) :
    Memory.wf (s.xorByte i k v).cfg (s.xorByte i k v).pistons = true := by
  simp only [State.xorByte_cfg, State.xorByte_pistons]
  cases hi : s.pistons[i]? with
  | none =>
    have : s.pistons.length ≤ i := List.getElem?_eq_none_iff.mp hi
    rw [List.set_eq_of_length_le this]; exact h
  | some S =>
    apply Memory.wf_set h
    simp [List.getD_eq_getElem?_getD, hi, Memory.wf_get h hi]

/-- The buffers after reset have the form. -/
theorem Memory.wf_cleared (s : State) : Memory.wf s.cleared.cfg s.cleared.pistons = true := by
  rw [Memory.wf_iff]
  simp only [State.cleared_cfg, State.cleared_pistons, List.length_replicate, true_and]
  intro S hS
  simp [(List.mem_replicate.mp hS).2]

/-- The buffers of `State.reset` have the form. -/
theorem Memory.wf_reset : Memory.wf State.reset.cfg State.reset.pistons = true := by decide +kernel

/-! Admission -/

/-- One admission test in front of the others: nothing is refused when the test passes and the others refuse nothing. -/
theorem isNone_test {α : Type} (p : Prop) [Decidable p] (r : α) (o : Option α) :
    (if p then some r else o).isNone = true ↔ ¬ p ∧ o.isNone = true := by
  by_cases h : p <;> simp [h]

/-- What an admitted configuration satisfies (00_scope R8). -/
theorem Cfg.admitted_iff (c : Cfg) : c.admitted = true ↔
    c.hasLayout = true ∧ 1 ≤ c.nr ∧ c.nr ≤ nominalRounds c.b ∧ c.rs ≤ c.ra ∧ c.ra + 4 ≤ c.stateBytes ∧
      c.tau % 8 = 0 ∧ c.tagBytes ≤ c.rs ∧ c.knotBytes ≤ c.rs ∧ 1 ≤ c.pi ∧ c.pi ≤ 255 ∧ c.ra ≤ 255 ∧ 1 ≤ c.c := by
  simp only [Cfg.admitted, Cfg.refusal, isNone_test, Option.isNone_none, and_true, Bool.not_eq_true', Bool.not_eq_false]
  exact and_congr_right fun _ => by omega

theorem Cfg.hasLayout_iff (c : Cfg) :
    c.hasLayout = true ↔ c.b = 200 ∨ c.b = 400 ∨ c.b = 800 ∨ c.b = 1600 := by
  simp [Cfg.hasLayout, or_assoc]

/-- The layouts of the admitted widths: 25 lanes of `Wb` bytes are the whole state (20_memory R52). -/
theorem Cfg.layout_facts {c : Cfg} (h : c.hasLayout = true) :
    c.stateBytes = 25 * (c.w / 8) ∧ 0 < c.w ∧ 8 ∣ c.w ∧ c.w ≤ 64 := by
  rcases (Cfg.hasLayout_iff c).mp h with h | h | h | h <;> simp [Cfg.stateBytes, Cfg.w, h]

end Sys2Proof.Machine
end

