-- ==== Sys2Proof/Laws/Permutation.lean ====
section
/-! SUPPORT. The Permutation engine: lengths, lanes of a built array, and one lemma for each operation of the unit that
says all it can do. -/

namespace Sys2Proof.Machine

variable {w : Nat}

@[simp] theorem mkLanes_length (f : Nat → Nat → BitVec w) : (mkLanes f).length = 25 := by simp [mkLanes]

/-- The lane of a built array is the value it was built from. -/
theorem lane_mkLanes (f : Nat → Nat → BitVec w) {x y : Nat} (hx : x < 5) (hy : y < 5) :
    lane (mkLanes f) x y = f x y := by
  have h : x % 5 + 5 * (y % 5) < 25 := by omega
  simp only [lane, mkLanes, List.getD_eq_getElem?_getD, List.getElem?_map, List.getElem?_range h, Option.map_some,
    Option.getD_some]
  congr 1 <;> omega

theorem rhoPiWalk_length (A : Lanes w) (n t x y : Nat) (v : BitVec w) (B : Lanes w) :
    (rhoPiWalk A n t x y v B).length = B.length := by
  induction n generalizing t x y v B with
  | zero => rfl
  | succ n ih => simp [rhoPiWalk, ih]

@[simp] theorem theta_length (A : Lanes w) : (theta A).length = 25 := by simp [theta, addColumns]

@[simp] theorem rhoPi_length (A : Lanes w) : (rhoPi A).length = A.length := rhoPiWalk_length ..

@[simp] theorem chi_length (A : Lanes w) : (chi A).length = 25 := by simp [chi]

@[simp] theorem iota_length (r : Nat) (A : Lanes w) : (iota r A).length = A.length := by simp [iota]

@[simp] theorem permRound_length (r : Nat) (A : Lanes w) : (permRound r A).length = 25 := by simp [permRound]

theorem permRounds_length (n r : Nat) (A : Lanes w) (h : A.length = 25) : (permRounds r n A).length = 25 := by
  induction n generalizing r A with
  | zero => exact h
  | succ n ih => exact ih _ _ (permRound_length ..)

@[simp] theorem laneBytes_length (v : BitVec w) : (laneBytes v).length = w / 8 := by simp [laneBytes]

theorem bytesOf_length (A : Lanes w) : (bytesOf A).length = A.length * (w / 8) := by
  induction A with
  | nil => simp [bytesOf]
  | cons v A ih => simp only [bytesOf, List.flatMap_cons, List.length_append, laneBytes_length, List.length_cons] at *; rw [ih]; ring

@[simp] theorem lanesOf_length (S : Bytes) : (lanesOf w S).length = 25 := by simp [lanesOf]

/-- "new state of identical length" (40_permutation R110). -/
theorem permute_length (n s : Nat) (S : Bytes) : (permute w n s S).length = 25 * (w / 8) := by
  rw [permute, bytesOf_length, permRounds_length _ _ _ (lanesOf_length S)]

/-- A step of the unit on the byte view of a lane array: done when the layout exists, else a stop. -/
theorem onLanes_cases (f : {w : Nat} → Lanes w → Lanes w) (A : Bytes) (s : State) :
    (s.cfg.hasLayout = true ∧ A.length = s.cfg.stateBytes ∧
        onLanes f A s = .ok (bytesOf (f (lanesOf s.cfg.w A)), s)) ∨
      (∃ e, onLanes f A s = .error (.stuck e)) := by
  by_cases h1 : s.cfg.hasLayout = true
  · by_cases h2 : A.length = s.cfg.stateBytes
    · exact .inl ⟨h1, h2, by simp [onLanes, State.lanesExist, h1, h2]⟩
    · exact .inr ⟨_, by simp [onLanes, State.lanesExist, stop, h1, h2]; rfl⟩
  · exact .inr ⟨_, by simp [onLanes, State.lanesExist, stop, h1]; rfl⟩

theorem onLanes_ok (f : {w : Nat} → Lanes w → Lanes w) {A : Bytes} {s : State} (h1 : s.cfg.hasLayout = true)
    (h2 : A.length = s.cfg.stateBytes) : onLanes f A s = .ok (bytesOf (f (lanesOf s.cfg.w A)), s) := by
  simp [onLanes, State.lanesExist, h1, h2]

/-- `F.APPLY` on a byte string of the right length, under a width that has a layout. -/
theorem fApply_ok {A : Bytes} {s : State} (h1 : s.cfg.hasLayout = true) (h2 : A.length = s.cfg.stateBytes) :
    fApply A s = .ok (permute s.cfg.w s.cfg.nr s.cfg.start A, (s.emit .fApply).emitAll (applyTrace s.cfg.nr)) := by
  simp [fApply, h1, h2]

/-- Everything `F.APPLY` can do: permute, raise `StateLengthMismatch` with only the trace written, or stop. -/
theorem fApply_cases (A : Bytes) (s : State) :
    (s.cfg.hasLayout = true ∧ A.length = s.cfg.stateBytes ∧ fApply A s =
        .ok (permute s.cfg.w s.cfg.nr s.cfg.start A, (s.emit .fApply).emitAll (applyTrace s.cfg.nr))) ∨
      (fApply A s = .error (.raised (.stateLengthMismatch A.length) (s.emit .fApply))) ∨
      (∃ e, fApply A s = .error (.stuck e)) := by
  by_cases h2 : A.length = s.cfg.stateBytes
  · by_cases h1 : s.cfg.hasLayout = true
    · exact .inl ⟨h1, h2, fApply_ok h1 h2⟩
    · exact .inr (.inr ⟨_, by simp [fApply, stop, h1, h2]; rfl⟩)
  · exact .inr (.inl (by simp [fApply, raise, h2]))

end Sys2Proof.Machine
end

