-- ==== Sys2Proof/Laws/Piston.lean ====
section
/-! SUPPORT. The Piston operations in closed form: what each gives when its operands exist, and everything it can do. -/

namespace Sys2Proof.Machine

/-! Updates of different fields commute; an update of a Piston replaces the one before. -/

theorem State.setStream_setPiston (s : State) (n : StreamName) (x : ByteStream) (i : Nat) (S : Bytes) :
    (s.setStream n x).setPiston i S = (s.setPiston i S).setStream n x := by
  cases n with
  | port p => cases p <;> rfl
  | tPrime => rfl
  | xt k => rfl

theorem State.setPiston_setPiston (s : State) (i : Nat) (S T : Bytes) :
    (s.setPiston i S).setPiston i T = s.setPiston i T := by
  simp [State.setPiston]

theorem State.emit_setPiston (s : State) (i : Nat) (S : Bytes) (w : Instr) :
    (s.setPiston i S).emit w = (s.emit w).setPiston i S := rfl

theorem State.emitAll_setPiston (s : State) (i : Nat) (S : Bytes) (ws : List Instr) :
    (s.setPiston i S).emitAll ws = (s.emitAll ws).setPiston i S := rfl

/-- XORing a byte of a Piston that exists replaces its state. -/
theorem State.xorByte_eq {s : State} {i : Nat} {S : Bytes} (h : s.pistons[i]? = some S) (k : Nat) (v : Byte) :
    s.xorByte i k v = s.setPiston i (xorAt S k v) := by
  simp [State.xorByte, List.getD_eq_getElem?_getD, h]

theorem State.setPiston_get {s : State} {i : Nat} {S T : Bytes} (h : s.pistons[i]? = some S) :
    (s.setPiston i T).pistons[i]? = some T := by
  simp [(List.getElem?_eq_some_iff.mp h).1]

theorem State.setPiston_get_ne (s : State) {i j : Nat} (T : Bytes) (h : j ≠ i) :
    (s.setPiston i T).pistons[j]? = s.pistons[j]? := by
  simp [Ne.symm h]

/-! Lengths -/

@[simp] theorem xorData_length (S : Bytes) (ω : Nat) (data : Bytes) : (xorData S ω data).length = S.length := by
  induction data generalizing S ω with
  | nil => rfl
  | cons x xs ih => simp [xorData, ih]

@[simp] theorem cryptData_length (u : Bool) (S : Bytes) (ω : Nat) (data : Bytes) :
    (cryptData u S ω data).length = S.length := by
  induction data generalizing S ω with
  | nil => rfl
  | cons x xs ih => simp [cryptData, ih]

@[simp] theorem duplexCrypt_length (c : Cfg) (u : Bool) (ω : Nat) (S data : Bytes) :
    (duplexCrypt c u ω S data).length = S.length := by simp [duplexCrypt]

@[simp] theorem duplexInject_length (c : Cfg) (b : Bool) (S data : Bytes) :
    (duplexInject c b S data).length = S.length := by simp [duplexInject]

theorem duplexSpark_length {c : Cfg} (h : c.hasLayout = true) (final : Bool) (l : Nat) (S : Bytes) :
    (duplexSpark c final l S).length = c.stateBytes := by
  rw [duplexSpark, permute_length, (Cfg.layout_facts h).1]

theorem pistonBuilt_of_length {c : Cfg} {S T : Bytes} (h : pistonBuilt c S = true) (hl : T.length = S.length) :
    pistonBuilt c T = true := by
  rw [pistonBuilt_iff] at h ⊢; rw [hl]; exact h

/-! `P.CRYPT` -/

theorem duplexOutput_length {ω : Nat} {S data : Bytes} (h : ω + data.length ≤ S.length) :
    (duplexOutput ω S data).length = data.length := by
  simp [duplexOutput]; omega

theorem duplexOutput_cons {ω : Nat} {S : Bytes} (h : ω < S.length) (x : Byte) (xs : Bytes) (v : Byte) :
    duplexOutput ω S (x :: xs) = (byteAt S ω ^^^ x) :: duplexOutput (ω + 1) (storeAt S ω v) xs := by
  have : S.drop ω = byteAt S ω :: S.drop (ω + 1) := by
    rw [List.drop_eq_getElem_cons h]
    simp [byteAt, List.getD_eq_getElem?_getD, h]
  have h2 : (storeAt S ω v).drop (ω + 1) = S.drop (ω + 1) := by
    simp [storeAt, List.drop_set]
  simp [duplexOutput, this, h2]

/-- The loop of `P.CRYPT`: it moves the next bytes of the input, as many as there are or as the room allows. -/
theorem cryptLoop_eq (u : Bool) (n : Nat) (m : CryptMove) (h : n = 0 ∨ m.ω + n ≤ m.state.length) :
    cryptLoop u n m =
      { state := cryptData u m.state m.ω (m.inp.unread.take n)
        inp := { m.inp with pos := m.inp.pos + (m.inp.unread.take n).length }
        out := m.out.putAll (duplexOutput m.ω m.state (m.inp.unread.take n))
        ω := m.ω + (m.inp.unread.take n).length } := by
  induction n generalizing m with
  | zero => simp [cryptLoop, cryptData, duplexOutput, ByteStream.putAll]
  | succ n ih =>
    cases hu : m.inp.unread with
    | nil =>
      rw [cryptLoop, (ByteStream.get_eq_none_iff _).mpr hu]
      simp [cryptData, duplexOutput, ByteStream.putAll]
    | cons x xs =>
      obtain ⟨hg, hr⟩ := ByteStream.get_of_unread hu
      rw [cryptLoop, hg]
      have hlen : m.ω < m.state.length := by omega
      dsimp only
      rw [ih _ (by simp [cryptByte]; omega)]
      simp only [cryptByte, hr, List.take_succ_cons, List.length_cons, cryptData]
      rw [duplexOutput_cons hlen x _ (if u then x else byteAt m.state m.ω ^^^ x), ByteStream.putAll_cons]
      simp only [CryptMove.mk.injEq, ByteStream.mk.injEq, true_and]
      omega

/-- `P.CRYPT` on a Piston that exists, between two streams that exist, with a final offset that fits one byte. -/
theorem pCrypt_ok {i ω : Nat} {src dst : StreamName} {u : Bool} {s : State} {S : Bytes} {x o : ByteStream}
    (hS : s.piston i = .ok S) (hne : src ≠ dst) (hx : s.stream? src = some x) (ho : s.stream? dst = some o)
    (hω : ω + (x.unread.take (s.cfg.rs - ω)).length ≤ 255) :
    pCrypt i src dst ω u s = .ok
      ((((s.emit (.pCrypt u)).setPiston i (duplexCrypt s.cfg u ω S (x.unread.take (s.cfg.rs - ω)))).setStream src
        (x.advance (x.unread.take (s.cfg.rs - ω)).length)).setStream dst
        (o.putAll (duplexOutput ω S (x.unread.take (s.cfg.rs - ω))))) := by
  obtain ⟨hp, hb⟩ := (State.piston_eq_ok_iff s i S).mp hS
  have hb' := (pistonBuilt_iff _ _).mp hb
  have e1 : (s.emit (.pCrypt u)).piston i = .ok S := by
    rw [State.piston_eq_ok_iff]; exact ⟨hp, hb⟩
  have e2 : (s.emit (.pCrypt u)).stream src = .ok x := by rw [State.stream_eq_ok_iff]; simpa using hx
  have e3 : (s.emit (.pCrypt u)).stream dst = .ok o := by rw [State.stream_eq_ok_iff]; simpa using ho
  unfold pCrypt
  simp only [if_neg hne, e1, e2, e3, State.emit_cfg]
  rw [cryptLoop_eq _ _ _ (by dsimp only; omega)]
  dsimp only
  rw [State.xorEnc8_of_le _ _ _ hω, State.xorByte_eq (S := cryptData u S ω (x.unread.take (s.cfg.rs - ω)))
    (by simp [(List.getElem?_eq_some_iff.mp hp).1])]
  simp only [State.setStream_setPiston, State.setPiston_setPiston]
  rfl

/-! `P.INJECT` -/

/-- The loop of `P.INJECT`. -/
theorem injectLoop_eq (n : Nat) (m : InjectMove) :
    injectLoop n m =
      { state := xorData m.state m.ω (m.inp.unread.take n)
        inp := { m.inp with pos := m.inp.pos + (m.inp.unread.take n).length }
        ω := m.ω + (m.inp.unread.take n).length } := by
  induction n generalizing m with
  | zero => simp [injectLoop, xorData]
  | succ n ih =>
    cases hu : m.inp.unread with
    | nil =>
      rw [injectLoop, (ByteStream.get_eq_none_iff _).mpr hu]
      simp [xorData]
    | cons x xs =>
      obtain ⟨hg, hr⟩ := ByteStream.get_of_unread hu
      rw [injectLoop, hg]
      dsimp only
      rw [ih]
      simp only [hr, List.take_succ_cons, List.length_cons, xorData]
      simp only [InjectMove.mk.injEq, ByteStream.mk.injEq, true_and]
      omega

/-- `P.INJECT` on a Piston that exists, from a stream that exists, with rates that fit one byte. -/
theorem pInject_ok {i : Nat} {src : StreamName} {b : Bool} {s : State} {S : Bytes} {x : ByteStream}
    (hS : s.piston i = .ok S) (hx : s.stream? src = some x) (hra : s.cfg.ra ≤ 255) :
    pInject i src b s = .ok
      (((s.emit (.pInject b)).setPiston i (duplexInject s.cfg b S (x.unread.take (injectRoom s.cfg b)))).setStream src
        (x.advance (x.unread.take (injectRoom s.cfg b)).length)) := by
  obtain ⟨hp, hb⟩ := (State.piston_eq_ok_iff s i S).mp hS
  obtain ⟨hl, hr1, hr2⟩ := (pistonBuilt_iff _ _).mp hb
  have hfrom : injectFrom s.cfg b ≤ s.cfg.ra := by unfold injectFrom; split <;> omega
  have hend : injectFrom s.cfg b + (x.unread.take (injectRoom s.cfg b)).length ≤ 255 := by
    have : (x.unread.take (injectRoom s.cfg b)).length ≤ injectRoom s.cfg b := List.length_take_le ..
    unfold injectRoom at *; omega
  have e1 : (s.emit (.pInject b)).piston i = .ok S := by rw [State.piston_eq_ok_iff]; exact ⟨hp, hb⟩
  set T := xorAt S s.cfg.injectStart (BitVec.ofNat 8 (injectFrom s.cfg b)) with hT
  have e2 : (s.emit (.pInject b)).xorEnc8 i s.cfg.injectStart (injectFrom s.cfg b) =
      .ok ((s.emit (.pInject b)).setPiston i T) := by
    rw [State.xorEnc8_of_le _ _ _ (by omega), State.xorByte_eq (S := S) (by simpa using hp)]
  have e3 : ((s.emit (.pInject b)).setPiston i T).piston i = .ok T := by
    rw [State.piston_eq_ok_iff]
    exact ⟨State.setPiston_get (S := S) (by simpa using hp), pistonBuilt_of_length hb (by simp [hT])⟩
  have e4 : ((s.emit (.pInject b)).setPiston i T).stream src = .ok x := by
    rw [State.stream_eq_ok_iff]; simpa using hx
  unfold pInject
  simp only [e1, e2, State.emit_cfg, bind, Except.bind, injectData, State.setPiston_cfg, e3, e4]
  rw [injectLoop_eq]
  simp only [injectRoom] at hend ⊢
  rw [State.xorEnc8_of_le _ _ _ hend, State.xorByte_eq
    (S := xorData T (injectFrom s.cfg b) (x.unread.take (s.cfg.ra - injectFrom s.cfg b)))
    (by simp [(List.getElem?_eq_some_iff.mp hp).1])]
  simp only [State.setStream_setPiston, State.setPiston_setPiston, State.setStream_cfg, State.setPiston_cfg,
    State.emit_cfg]
  rfl

/-! `P.SPARK` -/

/-- The trace of a `P.SPARK`: its own word and those of the permutation it invokes. -/
def sparkTrace (c : Cfg) (final : Bool) : List Instr := .pSpark final :: .fApply :: applyTrace c.nr

/-- `P.SPARK` on a Piston that exists, with a layout and a length that fits one byte. -/
theorem pSpark_ok {i l : Nat} {final : Bool} {s : State} {S : Bytes} (hS : s.piston i = .ok S)
    (hlay : s.cfg.hasLayout = true) (hl : l ≤ 255) :
    pSpark i l final s = .ok ((s.emitAll (sparkTrace s.cfg final)).setPiston i (duplexSpark s.cfg final l S)) := by
  obtain ⟨hp, hb⟩ := (State.piston_eq_ok_iff s i S).mp hS
  obtain ⟨hlen, _, _⟩ := (pistonBuilt_iff _ _).mp hb
  set s0 := s.emit (.pSpark final) with hs0
  set T := xorAt S s.cfg.eom (endByte final l) with hT
  have e1 : s0.piston i = .ok S := by rw [State.piston_eq_ok_iff]; exact ⟨hp, hb⟩
  have e2 : s0.markEnd i l final = .ok (s0.setPiston i T) := by
    have hx : ∀ v, s0.xorByte i s.cfg.eom v = s0.setPiston i (xorAt S s.cfg.eom v) :=
      fun v => State.xorByte_eq (S := S) (by simpa [hs0] using hp) _ _
    unfold State.markEnd
    cases final
    · exact congrArg Except.ok (hx _)
    · by_cases h0 : l = 0
      · simp only [h0, if_true]; exact congrArg Except.ok ((hx _).trans (by simp [hT, endByte, h0]))
      · simp only [if_true, if_neg h0]
        rw [State.xorEnc8_of_le _ _ _ hl]
        exact congrArg Except.ok ((hx _).trans (by simp [hT, endByte, h0]))
  have e3 : (s0.setPiston i T).piston i = .ok T := by
    rw [State.piston_eq_ok_iff]
    exact ⟨State.setPiston_get (S := S) (by simpa [hs0] using hp), pistonBuilt_of_length hb (by simp [hT])⟩
  have e4 := fApply_ok (A := T) (s := s0.setPiston i T) hlay (by simp [hT, hs0, hlen])
  unfold pSpark
  simp only [bind, Except.bind, ← hs0, e1, e2, e3, e4]
  simp only [State.emit_setPiston, State.emitAll_setPiston, State.setPiston_setPiston]
  simp only [hs0, State.emitAll, State.emit, sparkTrace, duplexSpark, hT, State.setPiston, List.map_cons,
    List.append_assoc, List.cons_append, List.nil_append]

/-! `P.GETTAG` -/

theorem pGetTag_ok {i l : Nat} {dst : StreamName} {s : State} {S : Bytes} {t : ByteStream} (hS : s.piston i = .ok S)
    (hl : l ≤ s.cfg.rs) (ht : s.stream? dst = some t) :
    pGetTag i dst l s = .ok ((s.emit .pGetTag).setStream dst (t.putAll (S.take l))) := by
  obtain ⟨hp, hb⟩ := (State.piston_eq_ok_iff s i S).mp hS
  have e1 : (s.emit .pGetTag).piston i = .ok S := by rw [State.piston_eq_ok_iff]; exact ⟨hp, hb⟩
  have e2 : (s.emit .pGetTag).stream dst = .ok t := by rw [State.stream_eq_ok_iff]; simpa using ht
  unfold pGetTag
  have h1 : ¬ (s.emit .pGetTag).cfg.rs < l := Nat.not_lt.mpr hl
  simp only [bind, Except.bind, e1, e2, if_neg h1]

/-- A length above `Rs` raises `TagTooLong` with nothing but the trace written (41_piston R133). -/
theorem pGetTag_too_long {i l : Nat} {dst : StreamName} {s : State} {S : Bytes} (hS : s.piston i = .ok S)
    (hl : s.cfg.rs < l) : pGetTag i dst l s = .error (.raised (.tagTooLong l) (s.emit .pGetTag)) := by
  obtain ⟨hp, hb⟩ := (State.piston_eq_ok_iff s i S).mp hS
  have e1 : (s.emit .pGetTag).piston i = .ok S := by rw [State.piston_eq_ok_iff]; exact ⟨hp, hb⟩
  unfold pGetTag
  have h1 : (s.emit .pGetTag).cfg.rs < l := hl
  simp only [bind, Except.bind, e1, if_pos h1, raise]

end Sys2Proof.Machine
end

