-- ==== Sys2Proof/Laws/Kept.lean ====
section
/-! SUPPORT. What every Piston, Engine and Motorist operation keeps, whether it ends normally or in a fault: the
configuration, the host's side, the latch, the lines; the canonical form of the buffers, the number of offsets, and the
cursors. One relation, one lemma for each operation. -/

namespace Sys2Proof.Machine

/-- What an operation keeps of the state it started from. -/
structure Kept (s t : State) : Prop where
  cfg : t.cfg = s.cfg
  cfgPort : t.cfgPort = s.cfgPort
  fault : t.fault = s.fault
  cause : t.cause = s.cause
  lines : t.lines = s.lines
  issue : t.issue = s.issue
  host : t.host = s.host
  faultCount : t.faultCount = s.faultCount
  memory : Memory.wf s.cfg s.pistons = true → Memory.wf t.cfg t.pistons = true
  offsets : s.et.length = s.cfg.pi → t.et.length = t.cfg.pi
  streams : s.streamsOk = true → t.streamsOk = true

theorem Kept.refl (s : State) : Kept s s := by
  constructor <;> first | rfl | exact id

theorem Kept.trans {a b c : State} (h : Kept a b) (k : Kept b c) : Kept a c :=
  { cfg := k.cfg.trans h.cfg, cfgPort := k.cfgPort.trans h.cfgPort, fault := k.fault.trans h.fault,
    cause := k.cause.trans h.cause, lines := k.lines.trans h.lines, issue := k.issue.trans h.issue,
    host := k.host.trans h.host, faultCount := k.faultCount.trans h.faultCount,
    memory := k.memory ∘ h.memory, offsets := k.offsets ∘ h.offsets, streams := k.streams ∘ h.streams }

/-- A result keeps what it started from, whatever state it carries. -/
def Keeps {α : Type} (π : α → State) (s : State) : Result α → Prop
  | .ok a => Kept s (π a)
  | .error (.raised _ t) => Kept s t
  | .error (.stuck _) => True

/-- The same for a result that is a state. -/
abbrev KeepsState (s : State) (r : Result State) : Prop := Keeps id s r

theorem Keeps.bind {α β : Type} {π : α → State} {ρ : β → State} {s : State} {r : Result α} {f : α → Result β}
    (h : Keeps π s r) (hf : ∀ a, r = .ok a → Keeps ρ (π a) (f a)) : Keeps ρ s (r >>= f) := by
  cases r with
  | ok a =>
    have := hf a rfl
    show Keeps ρ s (f a)
    cases hfa : f a with
    | ok b => rw [hfa] at this; exact Kept.trans h this
    | error e =>
      rw [hfa] at this
      cases e with
      | raised r t => exact Kept.trans h this
      | stuck e => trivial
  | error e =>
    cases e with
    | raised r t => exact h
    | stuck e => trivial

theorem Keeps.of_kept {α : Type} {π : α → State} {s t : State} {r : Result α} (h : Kept s t) (hr : Keeps π t r) :
    Keeps π s r := by
  cases r with
  | ok a => exact Kept.trans h hr
  | error e =>
    cases e with
    | raised r t => exact Kept.trans h hr
    | stuck e => trivial

theorem keeps_raise {α : Type} {π : α → State} {s t : State} (r : Raise) (h : Kept s t) :
    Keeps π s (raise r t : Result α) := h

theorem keeps_stop {α : Type} {π : α → State} {s : State} (f : Stop) : Keeps π s (stop f : Result α) := trivial

theorem forEach_keepsState {f : Nat → State → Result State} (h : ∀ i s, KeepsState s (f i s)) (is : List Nat)
    (s : State) : KeepsState s (forEach f is s) := by
  induction is generalizing s with
  | nil => exact Kept.refl s
  | cons i is ih =>
    rw [forEach_cons]
    exact Keeps.bind (h i s) fun a _ => ih a

/-! The named updates. -/

theorem kept_emit (s : State) (w : Instr) : Kept s (s.emit w) := by
  constructor <;> first | rfl | exact id

theorem kept_emitAll (s : State) (ws : List Instr) : Kept s (s.emitAll ws) := by
  constructor <;> first | rfl | exact id

theorem kept_setPhaseE (s : State) (p : PhaseE) : Kept s (s.setPhaseE p) := by
  constructor <;> first | rfl | exact id

theorem kept_setPhaseM (s : State) (p : PhaseM) : Kept s (s.setPhaseM p) := by
  constructor <;> first | rfl | exact id

theorem kept_complete (s : State) (r : Bool) : Kept s (s.complete r) := by
  constructor <;> first | rfl | exact id

theorem kept_setEt {s : State} {es : List Byte} (h : es.length = s.cfg.pi) : Kept s (s.setEt es) := by
  constructor <;> first | rfl | exact id | exact fun _ => h

theorem kept_setPiston {s : State} (i : Nat) {S : Bytes} (h : S.length = s.cfg.stateBytes) :
    Kept s (s.setPiston i S) := by
  constructor <;> first | rfl | exact id | exact fun hw => Memory.wf_set hw i h

theorem kept_xorByte (s : State) (i k : Nat) (v : Byte) : Kept s (s.xorByte i k v) := by
  constructor <;> first | rfl | exact id | exact fun hw => Memory.wf_xorByte hw i k v

theorem ByteStream.ok_empty : ByteStream.empty.ok = true := rfl

theorem ByteStream.ok_ofBytes (vs : Bytes) : (ByteStream.ofBytes vs).ok = true := by
  simp [ByteStream.ofBytes, ByteStream.ok]

theorem ByteStream.ok_consumed (x : ByteStream) : x.consumed.ok = true := by
  simp [ByteStream.consumed, ByteStream.ok]

theorem ByteStream.ok_putAll {x : ByteStream} (h : x.ok = true) (vs : Bytes) : (x.putAll vs).ok = true := by
  simp only [ByteStream.putAll, ByteStream.ok, decide_eq_true_eq, List.length_append] at *; omega

theorem ByteStream.ok_put {x : ByteStream} (h : x.ok = true) (v : Byte) : (x.put v).ok = true :=
  ByteStream.ok_putAll h [v]

/-- Reading bytes that are there keeps the cursor inside. -/
theorem ByteStream.ok_advance {x : ByteStream} (h : x.ok = true) (n : Nat) :
    ({ x with pos := x.pos + (x.unread.take n).length } : ByteStream).ok = true := by
  simp only [ByteStream.ok, decide_eq_true_eq, List.length_take, ByteStream.unread_length] at *; omega

theorem State.streamsOk_iff (s : State) :
    s.streamsOk = true ↔ (∀ p, (s.port p).ok = true) ∧ s.tPrime.ok = true ∧ ∀ x ∈ s.xt, x.ok = true := by
  simp only [State.streamsOk, Bool.and_eq_true, List.all_eq_true]
  constructor
  · rintro ⟨⟨⟨⟨⟨⟨h1, h2⟩, h3⟩, h4⟩, h5⟩, h6⟩, h7⟩
    exact ⟨fun p => by cases p <;> assumption, h6, h7⟩
  · rintro ⟨h, h6, h7⟩
    exact ⟨⟨⟨⟨⟨⟨h .suv, h .inp⟩, h .ad⟩, h .tag⟩, h .out⟩, h6⟩, h7⟩

theorem State.streamsOk_stream {s : State} (h : s.streamsOk = true) {n : StreamName} {x : ByteStream}
    (hx : s.stream? n = some x) : x.ok = true := by
  obtain ⟨h1, h2, h3⟩ := (State.streamsOk_iff s).mp h
  cases n with
  | port p => simp only [State.stream?, Option.some.injEq] at hx; exact hx ▸ h1 p
  | tPrime => simp only [State.stream?, Option.some.injEq] at hx; exact hx ▸ h2
  | xt k => exact h3 x (List.mem_of_getElem? hx)

theorem kept_setPort {s : State} (p : Port) {x : ByteStream} (h : s.streamsOk = true → x.ok = true) :
    Kept s (s.setPort p x) := by
  constructor <;> try simp
  intro hs
  obtain ⟨h1, h2, h3⟩ := (State.streamsOk_iff s).mp hs
  rw [State.streamsOk_iff]
  refine ⟨fun q => ?_, by simpa using h2, by simpa using h3⟩
  rw [State.setPort_port]; split
  · exact h hs
  · exact h1 q

theorem kept_setTPrime {s : State} {x : ByteStream} (h : s.streamsOk = true → x.ok = true) :
    Kept s (s.setTPrime x) := by
  constructor <;> try simp
  intro hs
  obtain ⟨h1, _, h3⟩ := (State.streamsOk_iff s).mp hs
  rw [State.streamsOk_iff]
  exact ⟨fun q => by simpa using h1 q, h hs, h3⟩

theorem kept_setXt {s : State} {xs : List ByteStream} (h : s.streamsOk = true → ∀ x ∈ xs, x.ok = true) :
    Kept s (s.setXt xs) := by
  constructor <;> try simp
  intro hs
  obtain ⟨h1, h2, _⟩ := (State.streamsOk_iff s).mp hs
  rw [State.streamsOk_iff]
  exact ⟨fun q => by simpa using h1 q, h2, h hs⟩

theorem kept_setStream {s : State} (n : StreamName) {x : ByteStream} (h : s.streamsOk = true → x.ok = true) :
    Kept s (s.setStream n x) := by
  cases n with
  | port p => exact kept_setPort p h
  | tPrime => exact kept_setTPrime h
  | xt k =>
    refine kept_setXt (xs := s.xt.set k x) fun hs y hy => ?_
    rcases List.mem_or_eq_of_mem_set hy with h' | rfl
    · exact ((State.streamsOk_iff s).mp hs).2.2 y h'
    · exact h hs

/-! The shared operations. -/

theorem xorEnc8_keeps (s : State) (i k v : Nat) : KeepsState s (s.xorEnc8 i k v) := by
  rcases State.xorEnc8_cases s i k v with ⟨_, h⟩ | ⟨_, h⟩ <;> rw [h]
  · exact kept_xorByte ..
  · exact Kept.refl s

/-- A lookup carries no state, so it keeps the state it reads. -/
theorem piston_keeps (s : State) (i : Nat) : Keeps (fun _ => s) s (s.piston i) := by
  rcases State.piston_cases s i with ⟨S, h⟩ | h <;> rw [h]
  · exact Kept.refl s
  · trivial

theorem stream_keeps (s : State) (n : StreamName) : Keeps (fun _ => s) s (s.stream n) := by
  rcases State.stream_cases s n with ⟨x, h⟩ | h <;> rw [h]
  · exact Kept.refl s
  · trivial

theorem piston_length {s : State} {i : Nat} {S : Bytes} (h : s.piston i = .ok S) : S.length = s.cfg.stateBytes :=
  ((pistonBuilt_iff _ _).mp ((State.piston_eq_ok_iff s i S).mp h).2).1

theorem fApply_keeps (A : Bytes) (s : State) : Keeps (fun r => r.2) s (fApply A s) := by
  rcases fApply_cases A s with ⟨_, _, h⟩ | h | ⟨e, h⟩ <;> rw [h]
  · exact Kept.trans (kept_emit s .fApply) (kept_emitAll _ _)
  · exact kept_emit s .fApply
  · trivial

/-- Whatever `F.APPLY` gives has the length of a state. -/
theorem fApply_length {A : Bytes} {s : State} {r : Bytes × State} (h : fApply A s = .ok r) :
    r.1.length = r.2.cfg.stateBytes := by
  rcases fApply_cases A s with ⟨hl, _, h'⟩ | h' | ⟨e, h'⟩ <;> rw [h'] at h
  · cases h; simp [permute_length, (Cfg.layout_facts hl).1]
  · cases h
  · cases h

/-! The Piston operations. -/

theorem pCrypt_keeps (i : Nat) (src dst : StreamName) (ω : Nat) (u : Bool) (s : State) :
    KeepsState s (pCrypt i src dst ω u s) := by
  unfold pCrypt
  refine Keeps.of_kept (kept_emit s (.pCrypt u)) ?_
  set t := s.emit (.pCrypt u)
  split
  · exact keeps_stop _
  · rcases State.piston_cases t i with ⟨S, hS⟩ | hS
    · rcases State.stream_cases t src with ⟨x, hx⟩ | hx
      · rcases State.stream_cases t dst with ⟨o, ho⟩ | ho
        · simp only [hS, hx, ho]
          obtain ⟨hlen, _, _⟩ := (pistonBuilt_iff _ _).mp ((State.piston_eq_ok_iff t i S).mp hS).2
          rw [cryptLoop_eq _ _ _ (by dsimp only; omega)]
          have hx' := (State.stream_eq_ok_iff _ _ _).mp hx
          have ho' := (State.stream_eq_ok_iff _ _ _).mp ho
          refine Keeps.of_kept (Kept.trans (Kept.trans (kept_setPiston i ?_) (kept_setStream src ?_))
            (kept_setStream dst ?_)) (xorEnc8_keeps _ _ _ _)
          · simpa using hlen
          · exact fun hs => ByteStream.ok_advance (State.streamsOk_stream (s := t) hs hx') _
          · intro hs
            refine ByteStream.ok_putAll (State.streamsOk_stream hs (n := dst) ?_) _
            rw [State.setStream_stream _ _ _ _ x (by simpa using hx'), if_neg (by tauto)]
            simpa using ho'
        · simp only [hS, hx, ho]; exact keeps_stop (.noSuchStream dst)
      · simp only [hS, hx]; exact keeps_stop (.noSuchStream src)
    · simp only [hS]; exact keeps_stop (.noSuchPiston i)

theorem injectData_keeps (i : Nat) (src : StreamName) (start : Nat) (s : State) :
    Keeps (fun r => r.2) s (injectData i src start s) := by
  unfold injectData
  rcases State.piston_cases s i with ⟨S, hS⟩ | hS
  · rcases State.stream_cases s src with ⟨x, hx⟩ | hx
    · simp only [hS, hx]
      rw [injectLoop_eq]
      have hx' := (State.stream_eq_ok_iff _ _ _).mp hx
      refine Kept.trans (kept_setPiston i ?_) (kept_setStream src ?_)
      · simpa using piston_length hS
      · exact fun hs => ByteStream.ok_advance (State.streamsOk_stream (s := s) hs hx') _
    · simp only [hS, hx]; exact keeps_stop (.noSuchStream src)
  · simp only [hS]; exact keeps_stop (.noSuchPiston i)

theorem pInject_keeps (i : Nat) (src : StreamName) (b : Bool) (s : State) : KeepsState s (pInject i src b s) := by
  unfold pInject
  refine Keeps.of_kept (kept_emit s (.pInject b)) ?_
  refine Keeps.bind (piston_keeps _ _) fun S _ => ?_
  refine Keeps.bind (xorEnc8_keeps _ _ _ _) fun t _ => ?_
  refine Keeps.bind (injectData_keeps _ _ _ _) fun r _ => ?_
  exact xorEnc8_keeps _ _ _ _

theorem markEnd_keeps (s : State) (i l : Nat) (final : Bool) : KeepsState s (s.markEnd i l final) := by
  unfold State.markEnd
  split
  · split
    · exact kept_xorByte ..
    · exact xorEnc8_keeps ..
  · exact kept_xorByte ..

theorem pSpark_keeps (i l : Nat) (final : Bool) (s : State) : KeepsState s (pSpark i l final s) := by
  unfold pSpark
  refine Keeps.of_kept (kept_emit s (.pSpark final)) ?_
  refine Keeps.bind (piston_keeps _ _) fun _ _ => ?_
  refine Keeps.bind (markEnd_keeps _ _ _ _) fun t _ => ?_
  refine Keeps.bind (piston_keeps _ _) fun S _ => ?_
  refine Keeps.bind (fApply_keeps _ _) fun r hr => ?_
  exact kept_setPiston i (fApply_length hr)

theorem pGetTag_keeps (i : Nat) (dst : StreamName) (l : Nat) (s : State) : KeepsState s (pGetTag i dst l s) := by
  unfold pGetTag
  refine Keeps.of_kept (kept_emit s .pGetTag) ?_
  refine Keeps.bind (piston_keeps _ _) fun S _ => ?_
  split
  · exact keeps_raise _ (Kept.refl _)
  · refine Keeps.bind (stream_keeps _ _) fun t ht => ?_
    exact kept_setStream dst fun hs =>
      ByteStream.ok_putAll (State.streamsOk_stream hs ((State.stream_eq_ok_iff _ _ _).mp ht)) _

/-! The Engine operations. -/

theorem eCrypt_keeps (src dst : StreamName) (u : Bool) (s : State) : KeepsState s (eCrypt src dst u s) := by
  unfold eCrypt
  refine Keeps.of_kept (kept_emit s (.eCrypt u)) ?_
  dsimp only
  split
  · exact keeps_raise _ (Kept.refl _)
  · refine Keeps.bind (forEach_keepsState (fun i s => pCrypt_keeps ..) _ _) fun t _ => ?_
    refine Keeps.bind (stream_keeps _ _) fun x _ => ?_
    exact kept_setPhaseE ..

theorem eSpark_keeps (final : Bool) (l : List Nat) (s : State) : KeepsState s (eSpark final l s) := by
  unfold eSpark
  refine Keeps.of_kept (kept_emit s (.eSpark final)) ?_
  dsimp only
  split
  · exact keeps_stop _
  · rename_i hl
    have h := forEach_keepsState (f := fun i s => pSpark i (l.getD i 0) final s) (fun i s => pSpark_keeps ..)
      (s.emit (.eSpark final)).pistonIndices (s.emit (.eSpark final))
    refine Keeps.bind h fun t ht => ?_
    rw [ht] at h
    have hcfg : t.cfg = s.cfg := h.cfg
    exact kept_setEt (by simpa [hcfg] using not_not.mp hl)

theorem eInject_keeps (src : StreamName) (s : State) : KeepsState s (eInject src s) := by
  unfold eInject
  refine Keeps.of_kept (kept_emit s .eInject) ?_
  dsimp only
  split
  · exact keeps_raise _ (Kept.refl _)
  · refine Keeps.bind (forEach_keepsState (fun i s => pInject_keeps ..) _ _) fun t _ => ?_
    refine Keeps.bind (stream_keeps _ _) fun x _ => ?_
    split
    · refine Keeps.bind (eSpark_keeps _ _ _) fun v _ => ?_
      exact kept_setPhaseE ..
    · exact kept_setPhaseE ..

theorem eGetTags_keeps (dst : StreamName) (l : List Nat) (s : State) : KeepsState s (eGetTags dst l s) := by
  unfold eGetTags
  refine Keeps.of_kept (kept_emit s .eGetTags) ?_
  dsimp only
  split
  · exact keeps_raise _ (Kept.refl _)
  · refine Keeps.bind (eSpark_keeps _ _ _) fun t _ => ?_
    refine Keeps.bind (forEach_keepsState (fun i s => pGetTag_keeps ..) _ _) fun v _ => ?_
    exact kept_setPhaseE ..

theorem putCopy_keeps (i v : Nat) (s : State) : KeepsState s (putCopy i v s) := by
  unfold putCopy
  cases enc8 v with
  | none => exact keeps_raise _ (Kept.refl _)
  | some e =>
    refine Keeps.bind (stream_keeps _ _) fun x hx => ?_
    exact kept_setStream (.xt i) fun hs =>
      ByteStream.ok_put (State.streamsOk_stream hs ((State.stream_eq_ok_iff _ _ _).mp hx)) _

theorem diversify_keeps (i : Nat) (s : State) : KeepsState s (diversify i s) :=
  Keeps.bind (putCopy_keeps ..) fun _ _ => putCopy_keeps ..

theorem diversifyCopies_keeps (d : Bool) (s : State) : KeepsState s (diversifyCopies d s) := by
  unfold diversifyCopies; split
  · exact forEach_keepsState diversify_keeps _ _
  · exact Kept.refl s

theorem injectGroups_keeps (n : Nat) (s : State) : KeepsState s (injectGroups n s) := by
  induction n generalizing s with
  | zero => exact keeps_stop _
  | succ n ih =>
    unfold injectGroups
    refine Keeps.bind (stream_keeps _ _) fun x _ => ?_
    split
    · refine Keeps.bind (forEach_keepsState (fun i s => pInject_keeps ..) _ _) fun t _ => ?_
      refine Keeps.bind (stream_keeps _ _) fun y _ => ?_
      split
      · exact Keeps.bind (eSpark_keeps _ _ _) fun v _ => ih v
      · exact ih t
    · exact Kept.refl s

theorem kept_broadcast {s : State} {src : StreamName} (x : ByteStream) : Kept s (broadcast src x s) := by
  refine Kept.trans (kept_setStream src fun _ => ByteStream.ok_consumed x) (kept_setXt fun _ y hy => ?_)
  rw [(List.mem_replicate.mp hy).2]; exact ByteStream.ok_ofBytes _

theorem eInjColl_keeps (src : StreamName) (d : Bool) (s : State) : KeepsState s (eInjColl src d s) := by
  unfold eInjColl
  refine Keeps.of_kept (kept_emit s (.eInjColl d)) ?_
  dsimp only
  split
  · exact keeps_raise _ (Kept.refl _)
  · refine Keeps.bind (stream_keeps _ _) fun x _ => ?_
    refine Keeps.of_kept (kept_broadcast (src := src) x) ?_
    refine Keeps.bind (diversifyCopies_keeps _ _) fun t _ => ?_
    refine Keeps.bind (injectGroups_keeps _ _) fun v _ => ?_
    exact Kept.trans (kept_setXt fun _ _ hy => by cases hy) (kept_setPhaseE ..)

theorem eInjCollFrom_keeps (src : StreamName) (d : Bool) (s : State) : KeepsState s (eInjCollFrom src d s) := by
  unfold eInjCollFrom
  cases src with
  | port p => exact eInjColl_keeps ..
  | tPrime => exact eInjColl_keeps ..
  | xt k =>
    dsimp only
    split
    · exact keeps_stop _
    · exact eInjColl_keeps ..

/-! The Motorist operations. -/

theorem kept_clearTPrime (s : State) : Kept s (s.setTPrime ByteStream.empty) := kept_setTPrime fun _ => rfl

theorem mKnot_keeps (s : State) : KeepsState s (mKnot s) := by
  unfold mKnot
  refine Keeps.of_kept (Kept.trans (kept_emit s .mKnot) (kept_clearTPrime _)) ?_
  refine Keeps.bind (eGetTags_keeps _ _ _) fun t _ => ?_
  refine Keeps.bind (eInjColl_keeps _ _ _) fun v _ => ?_
  exact kept_clearTPrime v

theorem kept_settleTag (u : Bool) (s : State) : Kept s (settleTag u s).2 := by
  unfold settleTag
  split
  · exact kept_setPort .tag fun _ => ByteStream.ok_putAll (x := s.tag.clear) rfl _
  · split
    · exact Kept.refl s
    · exact kept_setPhaseM ..

theorem mHandleTag_keeps (t u : Bool) (s : State) : Keeps (fun r => r.2) s (mHandleTag t u s) := by
  unfold mHandleTag
  refine Keeps.of_kept (Kept.trans (kept_emit s (.mHandleTag t u)) (kept_clearTPrime _)) ?_
  dsimp only
  split
  · exact Keeps.bind (eGetTags_keeps _ _ _) fun v _ => kept_clearTPrime v
  · refine Keeps.bind (eGetTags_keeps _ _ _) fun v _ => ?_
    exact Kept.trans (kept_settleTag u v) (kept_clearTPrime _)

theorem knotIf_keeps (b : Bool) (s : State) : KeepsState s (knotIf b s) := by
  unfold knotIf; split
  · exact mKnot_keeps s
  · exact Kept.refl s

theorem kept_finishStart (r : Bool × State) : Kept r.2 (finishStart r) := by
  unfold finishStart
  split
  · exact Kept.trans (kept_setPhaseM ..) (kept_complete ..)
  · exact kept_complete ..

theorem kept_finishWrap (r : Bool × State) : Kept r.2 (finishWrap r) := by
  unfold finishWrap
  split
  · exact kept_complete ..
  · exact Kept.trans (kept_setPort .out fun _ => rfl) (kept_complete ..)

theorem mStart_keeps (t u g : Bool) (s : State) : KeepsState s (mStart t u g s) := by
  unfold mStart
  split
  · exact keeps_raise _ (Kept.refl _)
  · refine Keeps.bind (eInjColl_keeps _ _ _) fun a _ => ?_
    refine Keeps.bind (knotIf_keeps _ _) fun b _ => ?_
    exact Keeps.bind (mHandleTag_keeps _ _ _) fun r _ => kept_finishStart r

theorem wrapBlocks_keeps (u : Bool) (n : Nat) (s : State) : KeepsState s (wrapBlocks u n s) := by
  induction n generalizing s with
  | zero => exact keeps_stop _
  | succ n ih =>
    unfold wrapBlocks
    split
    · refine Keeps.bind (eCrypt_keeps _ _ _ _) fun a _ => ?_
      exact Keeps.bind (eInject_keeps _ _) fun b _ => ih b
    · exact Kept.refl s

theorem wrapRest_keeps (n : Nat) (s : State) : KeepsState s (wrapRest n s) := by
  induction n generalizing s with
  | zero => exact keeps_stop _
  | succ n ih =>
    unfold wrapRest
    split
    · exact Keeps.bind (eInject_keeps _ _) fun b _ => ih b
    · exact Kept.refl s

theorem wrapEmpty_keeps (s : State) : KeepsState s (wrapEmpty s) := by
  unfold wrapEmpty; split
  · exact eInject_keeps ..
  · exact Kept.refl s

theorem wrapBody_keeps (u : Bool) (s : State) : KeepsState s (wrapBody u s) := by
  unfold wrapBody
  refine Keeps.bind (wrapEmpty_keeps s) fun a _ => ?_
  exact Keeps.bind (wrapBlocks_keeps _ _ _) fun b _ => wrapRest_keeps _ _

theorem mWrap_keeps (u g : Bool) (s : State) : KeepsState s (mWrap u g s) := by
  unfold mWrap
  split
  · exact keeps_raise _ (Kept.refl _)
  · refine Keeps.bind (wrapBody_keeps _ _) fun a _ => ?_
    refine Keeps.bind (knotIf_keeps _ _) fun b _ => ?_
    exact Keeps.bind (mHandleTag_keeps _ _ _) fun r _ => kept_finishWrap r

end Sys2Proof.Machine
end

