-- ==== Sys2Proof/Laws/Engine.lean ====
section
/-! SUPPORT. The Engine operations in closed form: on a built block, each gives exactly this state. The buffers after an
operation are the buffers before it with a duplex function applied to each. -/

namespace Sys2Proof.Machine

/-- The buffers with the first `k` of them replaced by what `f` makes of them. -/
def firstPistons (ps : List Bytes) (f : Nat → Bytes → Bytes) (k : Nat) : List Bytes :=
  ps.mapIdx fun i S => if i < k then f i S else S

theorem firstPistons_zero (ps : List Bytes) (f : Nat → Bytes → Bytes) : firstPistons ps f 0 = ps := by
  apply List.ext_getElem?
  intro i
  simp only [firstPistons, List.getElem?_mapIdx]
  cases ps[i]? <;> rfl

theorem firstPistons_all (ps : List Bytes) (f : Nat → Bytes → Bytes) {k : Nat} (h : ps.length ≤ k) :
    firstPistons ps f k = ps.mapIdx f := by
  apply List.ext_getElem?
  intro i
  simp only [firstPistons, List.getElem?_mapIdx]
  cases hi : ps[i]? with
  | none => rfl
  | some S => simp [show i < k from lt_of_lt_of_le (List.getElem?_eq_some_iff.mp hi).1 h]

theorem firstPistons_get {ps : List Bytes} {f : Nat → Bytes → Bytes} {k : Nat} {S : Bytes} (h : ps[k]? = some S) :
    (firstPistons ps f k)[k]? = some S := by
  simp [firstPistons, List.getElem?_mapIdx, h]

theorem firstPistons_succ {ps : List Bytes} {f : Nat → Bytes → Bytes} {k : Nat} {S : Bytes} (h : ps[k]? = some S) :
    (firstPistons ps f k).set k (f k S) = firstPistons ps f (k + 1) := by
  have hk := (List.getElem?_eq_some_iff.mp h).1
  apply List.ext_getElem?
  intro i
  simp only [firstPistons, List.getElem?_set, List.getElem?_mapIdx, List.length_mapIdx]
  by_cases hik : k = i
  · subst hik
    rw [if_pos rfl, if_pos hk, h]
    simp
  · simp only [hik, if_false]
    cases ps[i]? with
    | none => rfl
    | some T =>
      have : (i < k) ↔ (i < k + 1) := by omega
      simp [this]

theorem firstPistons_wf {c : Cfg} {ps : List Bytes} {f : Nat → Bytes → Bytes} (h : Memory.wf c ps = true)
    (hf : ∀ i S, S.length = c.stateBytes → (f i S).length = c.stateBytes) (k : Nat) :
    Memory.wf c (firstPistons ps f k) = true := by
  rw [Memory.wf_iff] at h ⊢
  refine ⟨by simpa [firstPistons] using h.1, fun S hS => ?_⟩
  simp only [firstPistons, List.mem_mapIdx] at hS
  obtain ⟨i, hi, rfl⟩ := hS
  have := h.2 ps[i] (List.getElem_mem hi)
  split
  · exact hf _ _ this
  · exact this

/-! A built block has its Pistons. -/

/-- The ratchet tag of an admitted configuration has a byte at least: `Rs ≥ c′/8 ≥ 1` (70_reset R252). -/
theorem Cfg.knotBytes_pos {c : Cfg} (h : c.admitted = true) : 1 ≤ c.knotBytes := by
  obtain ⟨h1, _, _, _, _, _, _, _, _, _, _, h12⟩ := (Cfg.admitted_iff c).mp h
  obtain ⟨_, hw, ⟨k, hk⟩, hle⟩ := Cfg.layout_facts h1
  unfold Cfg.knotBytes Cfg.cPrime roundUp
  rw [hk]
  have hk0 : 0 < k := by omega
  have h1 : 1 ≤ (c.c + 8 * k - 1) / (8 * k) := (Nat.le_div_iff_mul_le (by omega)).mpr (by omega)
  have h2 : 8 ≤ (c.c + 8 * k - 1) / (8 * k) * (8 * k) := by nlinarith
  omega

theorem State.Built.facts {s : State} (h : s.Built) :
    s.cfg.hasLayout = true ∧ s.cfg.rs ≤ s.cfg.ra ∧ s.cfg.ra + 4 ≤ s.cfg.stateBytes ∧ s.cfg.ra ≤ 255 ∧
      s.cfg.pi ≤ 255 ∧ 1 ≤ s.cfg.pi ∧ s.cfg.tagBytes ≤ s.cfg.rs ∧ s.cfg.knotBytes ≤ s.cfg.rs ∧ 1 ≤ s.cfg.ra := by
  obtain ⟨h1, h2, h3, h4, h5, h6, h7, h8, h9, h10, h11, h12⟩ := (Cfg.admitted_iff s.cfg).mp h.admitted
  have := Cfg.knotBytes_pos h.admitted
  exact ⟨h1, h4, h5, h11, h10, h9, h7, h8, by omega⟩

theorem State.Built.piston_ok {s : State} (h : s.Built) {i : Nat} {S : Bytes} (hi : s.pistons[i]? = some S) :
    s.piston i = .ok S := by
  rw [State.piston_eq_ok_iff, pistonBuilt_iff]
  obtain ⟨_, h1, h2, _⟩ := h.facts
  exact ⟨hi, Memory.wf_get h.memory hi, h1, h2⟩

theorem State.Built.length {s : State} (h : s.Built) : s.pistons.length = s.cfg.pi :=
  ((Memory.wf_iff _ _).mp h.memory).1

theorem State.Built.get {s : State} (h : s.Built) {i : Nat} (hi : i < s.cfg.pi) : ∃ S, s.pistons[i]? = some S :=
  ⟨_, List.getElem?_eq_getElem (h.length.symm ▸ hi)⟩

theorem State.Built.of_eq {s t : State} (h : s.Built) (hc : t.cfg = s.cfg) (hm : Memory.wf s.cfg t.pistons = true) :
    t.Built := ⟨by rw [hc]; exact h.admitted, by rw [hc]; exact hm⟩

/-! `E.SPARK` -/

/-- The trace of `k` turns that each put the words `ws`. -/
def turnsTrace (ws : List Instr) (k : Nat) : List Instr := (List.replicate k ws).flatten

theorem turnsTrace_succ (ws : List Instr) (k : Nat) : turnsTrace ws (k + 1) = turnsTrace ws k ++ ws := by
  simp [turnsTrace, List.replicate_succ']

/-- The trace of an `E.SPARK`. -/
def eSparkTrace (c : Cfg) (final : Bool) : List Instr := .eSpark final :: turnsTrace (sparkTrace c final) c.pi

/-- `E.SPARK` on a built block, with one length for each Piston. -/
theorem eSpark_ok {s : State} (hb : s.Built) (final : Bool) {l : List Nat} (hl : l.length = s.cfg.pi)
    (hle : ∀ v ∈ l, v ≤ 255) :
    eSpark final l s = .ok { s with
      pistons := sparkAll s.cfg final l s.pistons
      et := l.map (BitVec.ofNat 8)
      trace := s.trace ++ (eSparkTrace s.cfg final).map encodeWord } := by
  obtain ⟨hlay, _⟩ := hb.facts
  let f : Nat → Bytes → Bytes := fun i S => duplexSpark s.cfg final (l.getD i 0) S
  let P : Nat → State → Prop := fun k t => t = { s with
    pistons := firstPistons s.pistons f k
    trace := s.trace ++ (.eSpark final :: turnsTrace (sparkTrace s.cfg final) k).map encodeWord }
  have h0 : P 0 (s.emit (.eSpark final)) := by
    simp [P, firstPistons_zero, turnsTrace, State.emit]
  obtain ⟨t, ht, hP⟩ := forEach_range_ok (f := fun i s => pSpark i (l.getD i 0) final s) (P := P) (n := s.cfg.pi) h0
    (by
      rintro k t hk rfl
      obtain ⟨S, hS⟩ := hb.get hk
      have hbt : State.Built { s with
          pistons := firstPistons s.pistons f k
          trace := s.trace ++ (.eSpark final :: turnsTrace (sparkTrace s.cfg final) k).map encodeWord } :=
        hb.of_eq rfl (firstPistons_wf hb.memory (fun i S _ => duplexSpark_length hlay ..) k)
      have hl255 : l.getD k 0 ≤ 255 := by
        rw [List.getD_eq_getElem?_getD]
        cases h : l[k]? with
        | none => simp
        | some v => exact hle v (List.mem_of_getElem? h)
      refine ⟨_, pSpark_ok (hbt.piston_ok (firstPistons_get hS)) hlay hl255, ?_⟩
      simp only [P, State.emitAll, State.setPiston]
      rw [← firstPistons_succ hS, turnsTrace_succ]
      simp [f])
  have hP' : t = _ := hP
  unfold eSpark
  have hn : ¬ (l.length ≠ (s.emit (.eSpark final)).cfg.pi) := by simpa using hl
  have ht' : forEach (fun i s => pSpark i (l.getD i 0) final s) (s.emit (.eSpark final)).pistonIndices
      (s.emit (.eSpark final)) = .ok t := ht
  simp only [if_neg hn, bind, Except.bind, ht', hP']
  simp only [State.setEt, eSparkTrace, sparkAll]
  rw [firstPistons_all _ _ (le_of_eq hb.length)]

/-! Streams under updates. -/

theorem ByteStream.advance_unread (x : ByteStream) (n : Nat) : (x.advance n).unread = x.unread.drop n := by
  simp [ByteStream.advance, ByteStream.unread, List.drop_drop]

theorem ByteStream.advance_advance (x : ByteStream) (m n : Nat) : (x.advance m).advance n = x.advance (m + n) := by
  simp [ByteStream.advance, Nat.add_assoc]

@[simp] theorem ByteStream.advance_zero (x : ByteStream) : x.advance 0 = x := rfl

theorem State.emit_setStream (s : State) (n : StreamName) (x : ByteStream) (i : Instr) :
    (s.setStream n x).emit i = (s.emit i).setStream n x := by
  cases n with
  | port p => cases p <;> rfl
  | tPrime => rfl
  | xt k => rfl

/-- The buffers and the trace written. -/
def State.setCore (s : State) (ps : List Bytes) (tr : List Byte) : State := { s with pistons := ps, trace := tr }

theorem State.setCore_setStream (s : State) (ps : List Bytes) (tr : List Byte) (n : StreamName) (x : ByteStream) :
    (s.setCore ps tr).setStream n x = (s.setStream n x).setCore ps tr := by
  cases n with
  | port p => cases p <;> rfl
  | tPrime => rfl
  | xt k => rfl

theorem State.setPiston_setStream (s : State) (n : StreamName) (x : ByteStream) (i : Nat) (S : Bytes) :
    (s.setStream n x).setPiston i S = (s.setPiston i S).setStream n x := by
  cases n with
  | port p => cases p <;> rfl
  | tPrime => rfl
  | xt k => rfl

theorem State.setStream_setStream (s : State) (n : StreamName) (x y : ByteStream) :
    (s.setStream n x).setStream n y = s.setStream n y := by
  cases n with
  | port p => cases p <;> rfl
  | tPrime => rfl
  | xt k => simp [State.setStream]

theorem State.setStream_comm {m n : StreamName} (h : m ≠ n) (s : State) (x y : ByteStream) :
    (s.setStream m x).setStream n y = (s.setStream n y).setStream m x := by
  cases m with
  | port p =>
    cases n with
    | port q => cases p <;> cases q <;> first | rfl | exact absurd rfl h
    | tPrime => cases p <;> rfl
    | xt k => cases p <;> rfl
  | tPrime =>
    cases n with
    | port q => cases q <;> rfl
    | tPrime => exact absurd rfl h
    | xt k => rfl
  | xt j =>
    cases n with
    | port q => cases q <;> rfl
    | tPrime => rfl
    | xt k =>
      have : j ≠ k := fun e => h (e ▸ rfl)
      simp [State.setStream, List.set_comm _ _ this]

theorem State.setStream_self {s : State} {n : StreamName} {x : ByteStream} (h : s.stream? n = some x) :
    s.setStream n x = s := by
  cases n with
  | port p => cases p <;> (simp only [State.stream?, State.port, Option.some.injEq] at h; subst h; rfl)
  | tPrime => simp only [State.stream?, Option.some.injEq] at h; subst h; rfl
  | xt k =>
    simp only [State.stream?] at h
    simp only [State.setStream]
    obtain ⟨hk, hx⟩ := List.getElem?_eq_some_iff.mp h
    rw [← hx, List.set_getElem_self]

/-- Reading a segment after what was dealt before leaves the next segment. -/
theorem segment_eq (x : ByteStream) (done room : Nat) :
    (x.advance (min x.unread.length done)).unread.take room = segment x.unread done room := by
  rw [ByteStream.advance_unread, segment]
  by_cases h : done ≤ x.unread.length
  · rw [Nat.min_eq_right h]
  · rw [Nat.min_eq_left (by omega), List.drop_of_length_le (by omega : x.unread.length ≤ done)]
    simp

theorem segment_length (data : Bytes) (done room : Nat) :
    min data.length done + (segment data done room).length = min data.length (done + room) := by
  simp only [segment, List.length_take, List.length_drop]; omega

/-! `E.INJECT` -/

/-- The injections of an `E.INJECT`: every Piston in turn takes its segment of the shared stream. -/
theorem injectTurns_ok {s : State} (hb : s.Built) {src : StreamName} {x : ByteStream} (b : Bool)
    (hx : s.stream? src = some x) :
    forEach (fun i s => pInject i src b s) (List.range s.cfg.pi) s = .ok
      (({ s with
          pistons := injectAll s.cfg b x.unread s.pistons
          trace := s.trace ++ (turnsTrace [.pInject b] s.cfg.pi).map encodeWord } : State).setStream src
        (x.advance (min x.unread.length (s.cfg.pi * injectRoom s.cfg b)))) := by
  obtain ⟨_, _, _, hra, _⟩ := hb.facts
  let f : Nat → Bytes → Bytes := fun i S =>
    duplexInject s.cfg b S (segment x.unread (i * injectRoom s.cfg b) (injectRoom s.cfg b))
  let Q : Nat → State := fun k =>
    ({ s with
        pistons := firstPistons s.pistons f k
        trace := s.trace ++ (turnsTrace [.pInject b] k).map encodeWord } : State).setStream src
      (x.advance (min x.unread.length (k * injectRoom s.cfg b)))
  have h0 : s = Q 0 := by
    simp only [Q, firstPistons_zero, Nat.zero_mul, Nat.min_zero, ByteStream.advance_zero, turnsTrace,
      List.replicate_zero, List.flatten_nil, List.map_nil, List.append_nil]
    exact (State.setStream_self hx).symm
  obtain ⟨t, ht, hP⟩ := forEach_range_ok (f := fun i s => pInject i src b s) (P := fun k t => t = Q k)
    (n := s.cfg.pi) h0 (by
      rintro k t hk rfl
      obtain ⟨S, hS⟩ := hb.get hk
      have hbt : (Q k).Built := hb.of_eq (by simp [Q])
        (by simpa [Q] using firstPistons_wf hb.memory (fun i S h => by simpa [f] using h) k)
      have hxk : (Q k).stream? src = some (x.advance (min x.unread.length (k * injectRoom s.cfg b))) := by
        simp only [Q]
        rw [State.setStream_stream _ _ _ _ x (by cases src <;> exact hx), if_pos rfl]
      have hSk : (Q k).pistons[k]? = some S := by
        simpa [Q] using firstPistons_get hS
      have hcfg : (Q k).cfg = s.cfg := by simp [Q]
      refine ⟨_, pInject_ok (hbt.piston_ok hSk) hxk (by simpa [hcfg] using hra), ?_⟩
      rw [hcfg, segment_eq, ByteStream.advance_advance, segment_length, ← Nat.succ_mul]
      simp only [Q, ← firstPistons_succ hS, turnsTrace_succ]
      cases src with
      | port p => cases p <;> simp [State.setStream, State.setPort, State.emit, State.setPiston, f]
      | tPrime => simp [State.setStream, State.emit, State.setPiston, f]
      | xt j => simp [State.setStream, State.emit, State.setPiston, f])
  have hP' : t = Q s.cfg.pi := hP
  rw [ht, hP']
  simp only [Q, injectAll]
  rw [firstPistons_all _ _ (le_of_eq hb.length)]

theorem injectAll_wf {c : Cfg} {ps : List Bytes} (h : Memory.wf c ps = true) (b : Bool) (data : Bytes) :
    Memory.wf c (injectAll c b data ps) = true := by
  rw [Memory.wf_iff] at h ⊢
  refine ⟨by simpa [injectAll] using h.1, fun S hS => ?_⟩
  simp only [injectAll, List.mem_mapIdx] at hS
  obtain ⟨i, hi, rfl⟩ := hS
  simpa using h.2 ps[i] (List.getElem_mem hi)

/-- The trace of an `E.INJECT`. -/
def eInjectTrace (c : Cfg) (b sparks : Bool) : List Instr :=
  .eInject :: (turnsTrace [.pInject b] c.pi ++ (if sparks then eSparkTrace c false else []))

/-- Whether an `E.INJECT` entered in phase `entry`, with `len` bytes to inject and `room` for them, sparks. -/
def injectSparks (entry : PhaseE) (len room : Nat) : Bool := entry == .crypted || decide (room < len)

/-- `E.INJECT` on a built block in a phase that allows it. -/
theorem eInject_ok {s : State} (hb : s.Built) {src : StreamName} {x : ByteStream} (hx : s.stream? src = some x)
    (hph : s.phaseE ≠ .endOfMessage) {b sp : Bool} {room : Nat} (hbe : s.phaseE.crypting = b)
    (hroom : s.cfg.pi * injectRoom s.cfg b = room) (hsp : injectSparks s.phaseE x.unread.length room = sp) :
    eInject src s = .ok
      ({ s.setStream src (x.advance (min x.unread.length room)) with
          pistons :=
            if sp then sparkAll s.cfg false s.zeroLens (injectAll s.cfg b x.unread s.pistons)
            else injectAll s.cfg b x.unread s.pistons
          et := if sp then List.replicate s.cfg.pi 0 else s.et
          phaseE := if sp then .fresh else .endOfMessage
          trace := s.trace ++ (eInjectTrace s.cfg b sp).map encodeWord }) := by
  subst hbe hroom
  obtain ⟨hlay, _⟩ := hb.facts
  have hbu : (s.emit .eInject).Built := hb.of_eq rfl hb.memory
  have hxu : (s.emit .eInject).stream? src = some x := by simpa using hx
  have hturns := injectTurns_ok hbu s.phaseE.crypting hxu
  obtain ⟨u, hu⟩ : ∃ u, u = (({ s.emit .eInject with
      pistons := injectAll s.cfg s.phaseE.crypting x.unread s.pistons
      trace := (s.emit .eInject).trace ++ (turnsTrace [.pInject s.phaseE.crypting] s.cfg.pi).map encodeWord } :
        State).setStream src
      (x.advance (min x.unread.length (s.cfg.pi * injectRoom s.cfg s.phaseE.crypting)))) := ⟨_, rfl⟩
  have h1 : forEach (fun i t => pInject i src (s.emit .eInject).phaseE.crypting t) (s.emit .eInject).pistonIndices
      (s.emit .eInject) = .ok u := by rw [hu]; exact hturns
  have hcfg : u.cfg = s.cfg := by rw [hu]; simp
  have hps : u.pistons = injectAll s.cfg s.phaseE.crypting x.unread s.pistons := by rw [hu]; simp
  have hstr : u.stream src =
      .ok (x.advance (min x.unread.length (s.cfg.pi * injectRoom s.cfg s.phaseE.crypting))) := by
    rw [hu, State.stream_eq_ok_iff, State.setStream_stream _ _ _ _ x (by cases src <;> exact hx), if_pos rfl]
  have hbu' : u.Built := hb.of_eq hcfg (by rw [hps]; exact injectAll_wf hb.memory _ _)
  have hmore : (x.advance (min x.unread.length (s.cfg.pi * injectRoom s.cfg s.phaseE.crypting))).hasMore = true ↔
      s.cfg.pi * injectRoom s.cfg s.phaseE.crypting < x.unread.length := by
    rw [ByteStream.hasMore_iff, ByteStream.advance_unread, List.length_drop]; omega
  have hcond : ((s.emit .eInject).phaseE = .crypted ∨
      (x.advance (min x.unread.length (s.cfg.pi * injectRoom s.cfg s.phaseE.crypting))).hasMore = true) ↔ sp = true := by
    rw [hmore, ← hsp]; simp [injectSparks]
  have hne : ¬ ((s.emit .eInject).phaseE = .endOfMessage) := hph
  have hu' : u = { s.setStream src (x.advance (min x.unread.length (s.cfg.pi * injectRoom s.cfg s.phaseE.crypting))) with
      pistons := injectAll s.cfg s.phaseE.crypting x.unread s.pistons
      trace := s.trace ++ (.eInject :: turnsTrace [.pInject s.phaseE.crypting] s.cfg.pi).map encodeWord } := by
    rw [hu]
    cases src with
    | port p => cases p <;> simp [State.setStream, State.setPort, State.emit]
    | tPrime => simp [State.setStream, State.emit]
    | xt j => simp [State.setStream, State.emit]
  unfold eInject
  simp only [if_neg hne, bind, Except.bind, h1, hstr, hcond]
  cases sp with
  | false =>
    simp only [Bool.false_eq_true, if_false, State.setPhaseE]
    rw [hu']
    simp [eInjectTrace]
  | true =>
    have h2 := eSpark_ok hbu' false (l := u.zeroLens) (by simp [State.zeroLens]) (by simp [State.zeroLens])
    simp only [if_true, h2, State.setPhaseE]
    rw [hcfg, hps, show u.zeroLens = s.zeroLens by simp [State.zeroLens, hcfg], hu']
    simp [eInjectTrace, State.zeroLens]

/-! `E.CRYPT` -/

theorem State.cryptRoomBefore_succ (s : State) (k : Nat) :
    s.cryptRoomBefore (k + 1) = s.cryptRoomBefore k + s.cryptRoom k := by
  simp [State.cryptRoomBefore, List.range_succ]

theorem State.cryptOut_succ (s : State) (data : Bytes) (k : Nat) :
    s.cryptOut data (k + 1) = s.cryptOut data k ++
      duplexOutput (s.et.getD k 0).toNat (s.pistons.getD k []) (s.cryptSegment data k) := by
  simp [State.cryptOut, List.range_succ]

theorem ByteStream.putAll_putAll (x : ByteStream) (as bs : Bytes) : (x.putAll as).putAll bs = x.putAll (as ++ bs) := by
  simp [ByteStream.putAll]

/-- The crypts of an `E.CRYPT`: every Piston in turn takes its segment of the shared input and appends to the shared
output. -/
theorem cryptTurns_ok {s : State} (hb : s.Built) {src dst : StreamName} {x o : ByteStream} (u : Bool) (hne : src ≠ dst)
    (hx : s.stream? src = some x) (ho : s.stream? dst = some o) :
    forEach (fun i t => pCrypt i src dst (t.et.getD i 0).toNat u t) (List.range s.cfg.pi) s = .ok
      ((({ s with
          pistons := s.cryptAll u x.unread
          trace := s.trace ++ (turnsTrace [.pCrypt u] s.cfg.pi).map encodeWord } : State).setStream src
        (x.advance (min x.unread.length (s.cryptRoomBefore s.cfg.pi)))).setStream dst
        (o.putAll (s.cryptOut x.unread s.cfg.pi))) := by
  obtain ⟨_, hrs, _, hra, _⟩ := hb.facts
  let f : Nat → Bytes → Bytes := fun i S =>
    duplexCrypt s.cfg u (s.et.getD i 0).toNat S (s.cryptSegment x.unread i)
  let Q : Nat → State := fun k =>
    (({ s with
        pistons := firstPistons s.pistons f k
        trace := s.trace ++ (turnsTrace [.pCrypt u] k).map encodeWord } : State).setStream src
      (x.advance (min x.unread.length (s.cryptRoomBefore k)))).setStream dst (o.putAll (s.cryptOut x.unread k))
  have h0 : s = Q 0 := by
    simp only [Q, firstPistons_zero, State.cryptRoomBefore, State.cryptOut, List.range_zero, List.map_nil, List.sum_nil,
      List.flatMap_nil, Nat.min_zero, ByteStream.advance_zero, turnsTrace, List.replicate_zero, List.flatten_nil,
      List.append_nil]
    have e : o.putAll [] = o := by simp [ByteStream.putAll]
    have h1 : ({ s with } : State).setStream src x = s := State.setStream_self hx
    rw [e, h1, State.setStream_self ho]
  obtain ⟨t, ht, hP⟩ := forEach_range_ok (f := fun i t => pCrypt i src dst (t.et.getD i 0).toNat u t)
    (P := fun k t => t = Q k) (n := s.cfg.pi) h0 (by
      rintro k t hk rfl
      obtain ⟨S, hS⟩ := hb.get hk
      have hbt : (Q k).Built := hb.of_eq (by simp [Q])
        (by simpa [Q] using firstPistons_wf hb.memory (fun i S h => by simpa [f] using h) k)
      have hx0 : ({ s with
        pistons := firstPistons s.pistons f k
        trace := s.trace ++ (turnsTrace [.pCrypt u] k).map encodeWord } : State).stream? src = some x := by
        cases src <;> exact hx
      have ho0 : (({ s with
        pistons := firstPistons s.pistons f k
        trace := s.trace ++ (turnsTrace [.pCrypt u] k).map encodeWord } : State).setStream src
          (x.advance (min x.unread.length (s.cryptRoomBefore k)))).stream? dst = some o := by
        rw [State.setStream_stream _ _ _ _ x hx0, if_neg (Ne.symm hne)]
        cases dst <;> exact ho
      have hxk : (Q k).stream? src = some (x.advance (min x.unread.length (s.cryptRoomBefore k))) := by
        simp only [Q]
        rw [State.setStream_stream _ _ _ _ o ho0, if_neg hne, State.setStream_stream _ _ _ _ x hx0, if_pos rfl]
      have hok : (Q k).stream? dst = some (o.putAll (s.cryptOut x.unread k)) := by
        simp only [Q]
        rw [State.setStream_stream _ _ _ _ o ho0, if_pos rfl]
      have hSk : (Q k).pistons[k]? = some S := by simpa [Q] using firstPistons_get hS
      have hcfg : (Q k).cfg = s.cfg := by simp [Q]
      have het : (Q k).et = s.et := by simp [Q]
      have hseg : (x.advance (min x.unread.length (s.cryptRoomBefore k))).unread.take
          (s.cfg.rs - (s.et.getD k 0).toNat) = s.cryptSegment x.unread k := segment_eq ..
      refine ⟨_, pCrypt_ok (hbt.piston_ok hSk) hne hxk hok ?_, ?_⟩
      · rw [hcfg, het]
        have h1 : ((x.advance (min x.unread.length (s.cryptRoomBefore k))).unread.take
          (s.cfg.rs - (s.et.getD k 0).toNat)).length ≤ s.cfg.rs - (s.et.getD k 0).toNat := List.length_take_le ..
        have h2 := (s.et.getD k 0).isLt
        omega
      · rw [hcfg, het, hseg, ByteStream.advance_advance, ByteStream.putAll_putAll]
        have h1 : min x.unread.length (s.cryptRoomBefore k) + (s.cryptSegment x.unread k).length =
            min x.unread.length (s.cryptRoomBefore (k + 1)) := by
          rw [State.cryptRoomBefore_succ]; exact segment_length ..
        have h2 : s.cryptOut x.unread k ++ duplexOutput (s.et.getD k 0).toNat S (s.cryptSegment x.unread k) =
            s.cryptOut x.unread (k + 1) := by
          rw [State.cryptOut_succ, show s.pistons.getD k [] = S by simp [hS]]
        rw [h1, h2]
        simp only [Q, ← firstPistons_succ hS, turnsTrace_succ]
        generalize x.advance (min x.unread.length (s.cryptRoomBefore (k + 1))) = x'
        generalize o.putAll (s.cryptOut x.unread (k + 1)) = o'
        generalize x.advance (min x.unread.length (s.cryptRoomBefore k)) = x''
        generalize o.putAll (s.cryptOut x.unread k) = o''
        rw [State.emit_setStream, State.emit_setStream, State.setPiston_setStream, State.setPiston_setStream,
          State.setStream_comm (Ne.symm hne), State.setStream_setStream, State.setStream_setStream]
        simp [State.emit, State.setPiston, f])
  have hP' : t = Q s.cfg.pi := hP
  rw [ht, hP']
  simp only [Q, State.cryptAll]
  rw [firstPistons_all _ _ (le_of_eq hb.length)]

/-- The trace of an `E.CRYPT`. -/
def eCryptTrace (c : Cfg) (u : Bool) : List Instr := .eCrypt u :: turnsTrace [.pCrypt u] c.pi

/-- `E.CRYPT` on a built block in phase `fresh`, between two streams. -/
theorem eCrypt_ok {s : State} (hb : s.Built) {src dst : StreamName} {x o : ByteStream} {u : Bool} (hne : src ≠ dst)
    (hx : s.stream? src = some x) (ho : s.stream? dst = some o) (hph : s.phaseE = .fresh) :
    eCrypt src dst u s = .ok
      ({ (s.setStream src (x.advance (min x.unread.length (s.cryptRoomBefore s.cfg.pi)))).setStream dst
          (o.putAll (s.cryptOut x.unread s.cfg.pi)) with
          pistons := s.cryptAll u x.unread
          phaseE := if s.cryptRoomBefore s.cfg.pi < x.unread.length then .crypted else .endOfCrypt
          trace := s.trace ++ (eCryptTrace s.cfg u).map encodeWord }) := by
  have hbu : (s.emit (.eCrypt u)).Built := hb.of_eq rfl hb.memory
  have hturns := cryptTurns_ok hbu (x := x) (o := o) u hne (by simpa using hx) (by simpa using ho)
  obtain ⟨v, hv⟩ : ∃ v, v = (((({ s.emit (.eCrypt u) with
      pistons := s.cryptAll u x.unread
      trace := (s.emit (.eCrypt u)).trace ++ (turnsTrace [.pCrypt u] s.cfg.pi).map encodeWord } :
        State).setStream src (x.advance (min x.unread.length (s.cryptRoomBefore s.cfg.pi)))).setStream dst
      (o.putAll (s.cryptOut x.unread s.cfg.pi)))) := ⟨_, rfl⟩
  have h1 : forEach (fun i t => pCrypt i src dst (t.et.getD i 0).toNat u t) (s.emit (.eCrypt u)).pistonIndices
      (s.emit (.eCrypt u)) = .ok v := by rw [hv]; exact hturns
  have hx1 : ({ s.emit (.eCrypt u) with
      pistons := s.cryptAll u x.unread
      trace := (s.emit (.eCrypt u)).trace ++ (turnsTrace [.pCrypt u] s.cfg.pi).map encodeWord } : State).stream? src =
      some x := by cases src <;> exact hx
  have ho1 : (({ s.emit (.eCrypt u) with
      pistons := s.cryptAll u x.unread
      trace := (s.emit (.eCrypt u)).trace ++ (turnsTrace [.pCrypt u] s.cfg.pi).map encodeWord } : State).setStream src
        (x.advance (min x.unread.length (s.cryptRoomBefore s.cfg.pi)))).stream? dst = some o := by
    rw [State.setStream_stream _ _ _ _ x hx1, if_neg (Ne.symm hne)]
    cases dst <;> exact ho
  have hstr : v.stream src = .ok (x.advance (min x.unread.length (s.cryptRoomBefore s.cfg.pi))) := by
    rw [hv, State.stream_eq_ok_iff, State.setStream_stream _ _ _ _ o ho1, if_neg hne,
      State.setStream_stream _ _ _ _ x hx1, if_pos rfl]
  have hmore : (x.advance (min x.unread.length (s.cryptRoomBefore s.cfg.pi))).hasMore = true ↔
      s.cryptRoomBefore s.cfg.pi < x.unread.length := by
    rw [ByteStream.hasMore_iff, ByteStream.advance_unread, List.length_drop]; omega
  have hne' : ¬ ((s.emit (.eCrypt u)).phaseE ≠ .fresh) := not_not_intro hph
  unfold eCrypt
  simp only [if_neg hne', bind, Except.bind, h1, hstr, hmore]
  rw [hv]
  generalize x.advance (min x.unread.length (s.cryptRoomBefore s.cfg.pi)) = x'
  generalize o.putAll (s.cryptOut x.unread s.cfg.pi) = o'
  have tail : eCryptTrace s.cfg u = .eCrypt u :: turnsTrace [.pCrypt u] s.cfg.pi := rfl
  have e1 : (({ s.emit (.eCrypt u) with
      pistons := s.cryptAll u x.unread
      trace := (s.emit (.eCrypt u)).trace ++ (turnsTrace [.pCrypt u] s.cfg.pi).map encodeWord } : State).setStream src
        x').setStream dst o' = ((s.emit (.eCrypt u)).setCore (s.cryptAll u x.unread)
          ((s.emit (.eCrypt u)).trace ++ (turnsTrace [.pCrypt u] s.cfg.pi).map encodeWord)
          |>.setStream src x' |>.setStream dst o') := rfl
  rw [e1, State.setCore_setStream, State.setCore_setStream, ← State.emit_setStream, ← State.emit_setStream, tail]
  simp only [State.setPhaseE, State.setCore, State.emit, List.map_cons, List.append_assoc, List.singleton_append]

/-! `E.GETTAGS` -/

theorem gatherTurns_ok {s : State} (hb : s.Built) {dst : StreamName} {t : ByteStream} {l : List Nat}
    (hl : l.length = s.cfg.pi) (hle : ∀ v ∈ l, v ≤ s.cfg.rs) (ht : s.stream? dst = some t) :
    forEach (fun i s => pGetTag i dst (l.getD i 0) s) (List.range s.cfg.pi) s = .ok
      (({ s with trace := s.trace ++ (turnsTrace [.pGetTag] s.cfg.pi).map encodeWord } : State).setStream dst
        (t.putAll (gatherTags s.pistons l))) := by
  let g : Nat → Bytes := fun k => (List.range k).flatMap fun i => (s.pistons.getD i []).take (l.getD i 0)
  let Q : Nat → State := fun k =>
    ({ s with trace := s.trace ++ (turnsTrace [.pGetTag] k).map encodeWord } : State).setStream dst (t.putAll (g k))
  have h0 : s = Q 0 := by
    simp only [Q, g, List.range_zero, List.flatMap_nil, turnsTrace, List.replicate_zero, List.flatten_nil,
      List.map_nil, List.append_nil]
    have e : t.putAll [] = t := by simp [ByteStream.putAll]
    rw [e]
    exact (State.setStream_self ht).symm
  obtain ⟨v, hv, hP⟩ := forEach_range_ok (f := fun i s => pGetTag i dst (l.getD i 0) s) (P := fun k t => t = Q k)
    (n := s.cfg.pi) h0 (by
      rintro k v hk rfl
      obtain ⟨S, hS⟩ := hb.get hk
      have hbt : (Q k).Built := hb.of_eq (by simp [Q]) (by simpa [Q] using hb.memory)
      have ht0 : ({ s with trace := s.trace ++ (turnsTrace [.pGetTag] k).map encodeWord } : State).stream? dst =
          some t := by cases dst <;> exact ht
      have htk : (Q k).stream? dst = some (t.putAll (g k)) := by
        simp only [Q]; rw [State.setStream_stream _ _ _ _ t ht0, if_pos rfl]
      have hlk : l.getD k 0 ≤ s.cfg.rs := by
        cases h : l[k]? with
        | none => simp [h]
        | some v => simpa [h] using hle v (List.mem_of_getElem? h)
      refine ⟨_, pGetTag_ok (S := S) (hbt.piston_ok (by simpa [Q] using hS)) (by simpa [Q] using hlk) htk, ?_⟩
      have hg : g (k + 1) = g k ++ S.take (l.getD k 0) := by
        simp [g, List.range_succ, hS]
      simp only [Q, turnsTrace_succ, hg]
      rw [State.emit_setStream, State.setStream_setStream, ByteStream.putAll_putAll]
      simp [State.emit])
  have hP' : v = Q s.cfg.pi := hP
  rw [hv, hP']
  simp only [Q, g, gatherTags, hl]

/-- The trace of an `E.GETTAGS`. -/
def eGetTagsTrace (c : Cfg) : List Instr := .eGetTags :: (eSparkTrace c true ++ turnsTrace [.pGetTag] c.pi)

theorem sparkAll_wf {c : Cfg} (hlay : c.hasLayout = true) {ps : List Bytes} (h : Memory.wf c ps = true) (b : Bool)
    (l : List Nat) : Memory.wf c (sparkAll c b l ps) = true := by
  rw [Memory.wf_iff] at h ⊢
  refine ⟨by simpa [sparkAll] using h.1, fun S hS => ?_⟩
  simp only [sparkAll, List.mem_mapIdx] at hS
  obtain ⟨i, hi, rfl⟩ := hS
  exact duplexSpark_length hlay ..

/-- `E.GETTAGS` on a built block in phase `endOfMessage`, with one length inside the squeezing rate for each Piston. -/
theorem eGetTags_ok {s : State} (hb : s.Built) {dst : StreamName} {t : ByteStream} {l : List Nat}
    (hl : l.length = s.cfg.pi) (hle : ∀ v ∈ l, v ≤ s.cfg.rs) (ht : s.stream? dst = some t)
    (hph : s.phaseE = .endOfMessage) :
    eGetTags dst l s = .ok
      ({ s.setStream dst (t.putAll (gatherTags (sparkAll s.cfg true l s.pistons) l)) with
          pistons := sparkAll s.cfg true l s.pistons
          et := l.map (BitVec.ofNat 8)
          phaseE := .fresh
          trace := s.trace ++ (eGetTagsTrace s.cfg).map encodeWord }) := by
  obtain ⟨hlay, hrs, _, hra, _⟩ := hb.facts
  have hbu : (s.emit .eGetTags).Built := hb.of_eq rfl hb.memory
  have h1 := eSpark_ok hbu true (l := l) (by simpa using hl) (fun v hv => by have := hle v hv; omega)
  obtain ⟨v, hv⟩ : ∃ v, v = ({ s.emit .eGetTags with
      pistons := sparkAll s.cfg true l s.pistons
      et := l.map (BitVec.ofNat 8)
      trace := (s.emit .eGetTags).trace ++ (eSparkTrace s.cfg true).map encodeWord } : State) := ⟨_, rfl⟩
  have h1' : eSpark true l (s.emit .eGetTags) = .ok v := by rw [hv]; exact h1
  have hcfg : v.cfg = s.cfg := by rw [hv]; rfl
  have hbv : v.Built := hb.of_eq hcfg (by rw [hv]; exact sparkAll_wf hlay hb.memory _ _)
  have h2 := gatherTurns_ok hbv (dst := dst) (t := t) (l := l) (by rw [hcfg]; exact hl) (by rw [hcfg]; exact hle)
    (by rw [hv]; cases dst <;> exact ht)
  have hne : ¬ ((s.emit .eGetTags).phaseE ≠ .endOfMessage) := not_not_intro hph
  unfold eGetTags
  simp only [if_neg hne, bind, Except.bind, h1', State.pistonIndices, h2]
  rw [hv]
  cases dst with
  | port p => cases p <;> simp [State.setStream, State.setPort, State.emit, State.setPhaseE, eGetTagsTrace]
  | tPrime => simp [State.setStream, State.emit, State.setPhaseE, eGetTagsTrace]
  | xt j => simp [State.setStream, State.emit, State.setPhaseE, eGetTagsTrace]

end Sys2Proof.Machine
end

