-- ==== Sys2Proof/Laws/Collective.lean ====
section
/-! SUPPORT. `E.INJCOLL` in closed form: on a built block every Piston absorbs the broadcast bytes and its own diversifier,
in groups of at most `Ra` bytes. -/

namespace Sys2Proof.Machine

/-- One group: every Piston takes what it can from its own copy. -/
def groupPistons (c : Cfg) (xs : List ByteStream) (ps : List Bytes) : List Bytes :=
  ps.mapIdx fun i S => duplexInject c false S ((xs.getD i ByteStream.empty).unread.take c.ra)

/-- The copies after one group. -/
def groupStreams (c : Cfg) (xs : List ByteStream) : List ByteStream :=
  xs.map fun x => x.advance (x.unread.take c.ra).length

theorem collTurns_ok {s : State} (hb : s.Built) (hxt : s.xt.length = s.cfg.pi) :
    forEach (fun i t => pInject i (.xt i) false t) (List.range s.cfg.pi) s = .ok
      { s with
        pistons := groupPistons s.cfg s.xt s.pistons
        xt := groupStreams s.cfg s.xt
        trace := s.trace ++ (turnsTrace [.pInject false] s.cfg.pi).map encodeWord } := by
  obtain ⟨_, _, _, hra, _⟩ := hb.facts
  let f : Nat → Bytes → Bytes := fun i S =>
    duplexInject s.cfg false S ((s.xt.getD i ByteStream.empty).unread.take s.cfg.ra)
  let g : Nat → List ByteStream := fun k =>
    s.xt.mapIdx fun i x => if i < k then x.advance (x.unread.take s.cfg.ra).length else x
  let Q : Nat → State := fun k =>
    { s with
      pistons := firstPistons s.pistons f k
      xt := g k
      trace := s.trace ++ (turnsTrace [.pInject false] k).map encodeWord }
  have hg0 : g 0 = s.xt := by
    apply List.ext_getElem?
    intro i
    simp only [g, List.getElem?_mapIdx]
    cases s.xt[i]? <;> rfl
  have hgn : g s.cfg.pi = groupStreams s.cfg s.xt := by
    apply List.ext_getElem?
    intro i
    simp only [g, groupStreams, List.getElem?_mapIdx, List.getElem?_map]
    cases hi : s.xt[i]? with
    | none => rfl
    | some x => simp [show i < s.cfg.pi from hxt ▸ (List.getElem?_eq_some_iff.mp hi).1]
  obtain ⟨t, ht, hP⟩ := forEach_range_ok (f := fun i t => pInject i (.xt i) false t) (P := fun k t => t = Q k)
    (n := s.cfg.pi) (s := s) (by simp [Q, hg0, firstPistons_zero, turnsTrace]) (by
      rintro k t hk rfl
      obtain ⟨S, hS⟩ := hb.get hk
      obtain ⟨x, hx⟩ : ∃ x, s.xt[k]? = some x := ⟨_, List.getElem?_eq_getElem (hxt.symm ▸ hk)⟩
      have hbt : (Q k).Built := hb.of_eq rfl (firstPistons_wf hb.memory (fun i S h => by simpa [f] using h) k)
      have hxk : (Q k).stream? (.xt k) = some x := by
        simp [Q, State.stream?, g, List.getElem?_mapIdx, hx]
      refine ⟨_, pInject_ok (hbt.piston_ok (firstPistons_get hS)) hxk hra, ?_⟩
      have hgs : (g k).set k (x.advance (x.unread.take s.cfg.ra).length) = g (k + 1) := by
        apply List.ext_getElem?
        intro i
        simp only [g, List.getElem?_set, List.getElem?_mapIdx, List.length_mapIdx]
        by_cases hik : k = i
        · subst hik
          rw [if_pos rfl, if_pos (List.getElem?_eq_some_iff.mp hx).1, hx]
          simp
        · simp only [hik, if_false]
          cases s.xt[i]? with
          | none => rfl
          | some y =>
            have : (i < k) ↔ (i < k + 1) := by omega
            simp [this]
      simp only [Q, ← firstPistons_succ hS, ← hgs, turnsTrace_succ]
      simp [State.setStream, State.setPiston, State.emit, injectRoom, injectFrom, f, hx])
  have hP' : t = Q s.cfg.pi := hP
  rw [ht, hP']
  simp only [Q, hgn, groupPistons]
  rw [firstPistons_all _ _ (le_of_eq hb.length)]

/-- The count of `absorbGroups` does not matter once there is one for each byte. -/
theorem absorbGroups_count {c : Cfg} (hra : 1 ≤ c.ra) (n m : Nat) (S data : Bytes) (hn : data.length ≤ n)
    (hm : data.length ≤ m) : absorbGroups c n S data = absorbGroups c m S data := by
  induction n generalizing m S data with
  | zero =>
    have : data = [] := List.length_eq_zero_iff.mp (by omega)
    subst this
    cases m <;> simp [absorbGroups]
  | succ n ih =>
    cases m with
    | zero =>
      have : data = [] := List.length_eq_zero_iff.mp (by omega)
      subst this
      simp [absorbGroups]
    | succ m =>
      simp only [absorbGroups]
      by_cases h0 : data = []
      · simp [h0]
      · by_cases h1 : c.ra < data.length
        · simp only [if_neg h0, if_pos h1]
          exact ih _ _ _ (by simp; omega) (by simp; omega)
        · simp only [if_neg h0, if_neg h1]

/-- The buffers after every copy has been absorbed. -/
def absorbPistons (c : Cfg) (m : Nat) (xs : List ByteStream) (ps : List Bytes) : List Bytes :=
  ps.mapIdx fun i S => absorbGroups c m S (xs.getD i ByteStream.empty).unread

theorem groupPistons_wf {c : Cfg} {ps : List Bytes} (h : Memory.wf c ps = true) (xs : List ByteStream) :
    Memory.wf c (groupPistons c xs ps) = true := by
  rw [Memory.wf_iff] at h ⊢
  refine ⟨by simpa [groupPistons] using h.1, fun S hS => ?_⟩
  simp only [groupPistons, List.mem_mapIdx] at hS
  obtain ⟨i, hi, rfl⟩ := hS
  simpa using h.2 ps[i] (List.getElem_mem hi)

/-- The loop of `E.INJCOLL` with `m` bytes left in every copy. -/
theorem injectGroups_ok (n : Nat) {s : State} (hb : s.Built) (hxt : s.xt.length = s.cfg.pi) {m : Nat}
    (hm : ∀ x ∈ s.xt, x.unread.length = m) (hn : m < n) :
    ∃ xs tr, injectGroups n s = .ok { s with
      pistons := absorbPistons s.cfg m s.xt s.pistons
      et := if s.cfg.ra < m then List.replicate s.cfg.pi 0 else s.et
      xt := xs
      trace := s.trace ++ tr } := by
  induction n generalizing s m with
  | zero => omega
  | succ n ih =>
    obtain ⟨hlay, _, _, _, _, hpi, _, _, hra⟩ := hb.facts
    obtain ⟨x0, hx0⟩ : ∃ x, s.xt[0]? = some x := ⟨_, List.getElem?_eq_getElem (by omega)⟩
    have hs0 : s.stream (.xt 0) = .ok x0 := by rw [State.stream_eq_ok_iff]; exact hx0
    have hm0 : x0.unread.length = m := hm _ (List.mem_of_getElem? hx0)
    have hget : ∀ (i : Nat) (x : ByteStream), s.xt[i]? = some x → x.unread.length = m := fun i x h => hm _ (List.mem_of_getElem? h)
    rw [injectGroups]
    simp only [bind, Except.bind, hs0]
    by_cases h0 : m = 0
    · subst h0
      have hf : x0.hasMore = false := by
        rw [ByteStream.hasMore_eq_false_iff]; exact List.length_eq_zero_iff.mp hm0
      refine ⟨s.xt, [], ?_⟩
      simp only [hf, Bool.false_eq_true, if_false]
      have e : absorbPistons s.cfg 0 s.xt s.pistons = s.pistons := by
        apply List.ext_getElem?
        intro i
        simp only [absorbPistons, List.getElem?_mapIdx, absorbGroups]
        cases s.pistons[i]? <;> rfl
      rw [e]
      simp
    · have ht : x0.hasMore = true := by rw [ByteStream.hasMore_iff]; omega
      obtain ⟨u, hu⟩ : ∃ u, u = ({ s with
        pistons := groupPistons s.cfg s.xt s.pistons
        xt := groupStreams s.cfg s.xt
        trace := s.trace ++ (turnsTrace [.pInject false] s.cfg.pi).map encodeWord } : State) := ⟨_, rfl⟩
      have h1 : forEach (fun i t => pInject i (.xt i) false t) s.pistonIndices s = .ok u := by
        rw [hu]; exact collTurns_ok hb hxt
      have hcfg : u.cfg = s.cfg := by rw [hu]
      have hbu : u.Built := hb.of_eq hcfg (by rw [hu]; exact groupPistons_wf hb.memory _)
      have hux : u.stream (.xt 0) = .ok (x0.advance (x0.unread.take s.cfg.ra).length) := by
        rw [State.stream_eq_ok_iff, hu]; simp [State.stream?, groupStreams, hx0]
      have hux' : (x0.advance (x0.unread.take s.cfg.ra).length).hasMore = true ↔ s.cfg.ra < m := by
        rw [ByteStream.hasMore_iff, ByteStream.advance_unread, List.length_drop, List.length_take, hm0]; omega
      have huxt : u.xt.length = u.cfg.pi := by rw [hcfg, hu]; simpa [groupStreams] using hxt
      have hum : ∀ x ∈ u.xt, x.unread.length = m - s.cfg.ra := by
        rw [hu]
        simp only [groupStreams, List.mem_map]
        rintro _ ⟨x, hx, rfl⟩
        rw [ByteStream.advance_unread, List.length_drop, List.length_take, hm x hx]; omega
      simp only [ht, if_true, h1, hux, hux']
      by_cases hgt : s.cfg.ra < m
      · have h2 := eSpark_ok hbu false (l := u.zeroLens) (by simp [State.zeroLens]) (by simp [State.zeroLens])
        obtain ⟨v, hv⟩ : ∃ v, v = ({ u with
          pistons := sparkAll u.cfg false u.zeroLens u.pistons
          et := u.zeroLens.map (BitVec.ofNat 8)
          trace := u.trace ++ (eSparkTrace u.cfg false).map encodeWord } : State) := ⟨_, rfl⟩
        have h2' : eSpark false u.zeroLens u = .ok v := by rw [hv]; exact h2
        have hvc : v.cfg = s.cfg := by rw [hv]; exact hcfg
        have hbv : v.Built := hbu.of_eq (by rw [hvc, hcfg]) (by
          rw [hv]; exact sparkAll_wf (by rw [hcfg]; exact hlay) hbu.memory _ _)
        obtain ⟨xs, tr, h3⟩ := ih hbv (by rw [hvc, ← hcfg, hv]; exact huxt)
          (m := m - s.cfg.ra) (by rw [hv]; exact hum) (by omega)
        refine ⟨xs, (turnsTrace [.pInject false] s.cfg.pi).map encodeWord ++
          ((eSparkTrace s.cfg false).map encodeWord ++ tr), ?_⟩
        simp only [if_pos hgt, h2', h3]
        have hps : absorbPistons v.cfg (m - s.cfg.ra) v.xt v.pistons = absorbPistons s.cfg m s.xt s.pistons := by
          rw [hvc, hv]
          simp only [hcfg]
          rw [hu]
          apply List.ext_getElem?
          intro i
          simp only [absorbPistons, sparkAll, groupPistons, groupStreams, List.getElem?_mapIdx]
          cases hi : s.pistons[i]? with
          | none => rfl
          | some S =>
            obtain ⟨x, hx⟩ : ∃ x, s.xt[i]? = some x :=
              ⟨_, List.getElem?_eq_getElem (by
                have := (List.getElem?_eq_some_iff.mp hi).1; rw [hb.length] at this; omega)⟩
            have hxm := hget i x hx
            simp only [Option.map_some, Option.some.injEq]
            have hz : (State.zeroLens { s with
              pistons := groupPistons s.cfg s.xt s.pistons
              xt := groupStreams s.cfg s.xt
              trace := s.trace ++ (turnsTrace [.pInject false] s.cfg.pi).map encodeWord }).getD i 0 = 0 := by
              simp only [State.zeroLens, List.getD_eq_getElem?_getD, List.getElem?_replicate]
              split <;> rfl
            have hxs : (List.map (fun x => x.advance (x.unread.take s.cfg.ra).length) s.xt).getD i
                ByteStream.empty = x.advance (x.unread.take s.cfg.ra).length := by simp [hx]
            have hxd : s.xt.getD i ByteStream.empty = x := by simp [hx]
            have hd : (x.advance (x.unread.take s.cfg.ra).length).unread = x.unread.drop s.cfg.ra := by
              rw [ByteStream.advance_unread, List.length_take, Nat.min_eq_left (by omega)]
            obtain ⟨m', rfl⟩ : ∃ m', m = m' + 1 := ⟨m - 1, by omega⟩
            have hne : x.unread ≠ [] := by intro h; rw [h] at hxm; simp at hxm
            simp only [groupPistons] at hz
            simp only [hxs, hxd, hd, absorbGroups, if_neg hne, if_pos (show s.cfg.ra < x.unread.length by omega)]
            have e : absorbGroups s.cfg (m' + 1 - s.cfg.ra)
                (duplexSpark s.cfg false 0 (duplexInject s.cfg false S (x.unread.take s.cfg.ra)))
                (x.unread.drop s.cfg.ra) = absorbGroups s.cfg m'
                (duplexSpark s.cfg false 0 (duplexInject s.cfg false S (x.unread.take s.cfg.ra)))
                (x.unread.drop s.cfg.ra) :=
              absorbGroups_count hra _ _ _ _ (by simp; omega) (by simp; omega)
            rw [← e]
            congr 2
        rw [hps]
        have het : (if v.cfg.ra < m - s.cfg.ra then List.replicate v.cfg.pi 0 else v.et) =
            List.replicate s.cfg.pi 0 := by
          rw [hvc, hv]
          simp only [State.zeroLens, hcfg]
          split <;> simp
        rw [het, hv, hu]
        simp
      · have hdone : ∃ xs tr, injectGroups n u = .ok { u with
            pistons := absorbPistons u.cfg 0 u.xt u.pistons
            et := if u.cfg.ra < 0 then List.replicate u.cfg.pi 0 else u.et
            xt := xs
            trace := u.trace ++ tr } :=
          ih hbu huxt (m := 0) (fun x hx => by rw [hum x hx]; omega) (by omega)
        obtain ⟨xs, tr, h3⟩ := hdone
        refine ⟨xs, (turnsTrace [.pInject false] s.cfg.pi).map encodeWord ++ tr, ?_⟩
        simp only [if_neg hgt, h3]
        have hps : absorbPistons u.cfg 0 u.xt u.pistons = absorbPistons s.cfg m s.xt s.pistons := by
          rw [hcfg, hu]
          apply List.ext_getElem?
          intro i
          simp only [absorbPistons, groupPistons, List.getElem?_mapIdx]
          cases hi : s.pistons[i]? with
          | none => rfl
          | some S =>
            obtain ⟨x, hx⟩ : ∃ x, s.xt[i]? = some x :=
              ⟨_, List.getElem?_eq_getElem (by
                have := (List.getElem?_eq_some_iff.mp hi).1; rw [hb.length] at this; omega)⟩
            have hxm := hget i x hx
            obtain ⟨m', rfl⟩ : ∃ m', m = m' + 1 := ⟨m - 1, by omega⟩
            have hne : x.unread ≠ [] := by intro h; rw [h] at hxm; simp at hxm
            have hxd : s.xt.getD i ByteStream.empty = x := by simp [hx]
            simp only [Option.map_some, hxd, absorbGroups, if_neg hne,
              if_neg (show ¬ s.cfg.ra < x.unread.length by omega)]
            rw [List.take_of_length_le (by omega)]
        rw [hps]
        simp only [Nat.not_lt_zero, if_false]
        rw [hu]
        simp

/-! The copies -/

theorem putCopy_ok {s : State} {i v : Nat} {x : ByteStream} (hx : s.xt[i]? = some x) (hv : v ≤ 255) :
    putCopy i v s = .ok (s.setXt (s.xt.set i (x.put (BitVec.ofNat 8 v)))) := by
  have h1 : s.stream (.xt i) = .ok x := by rw [State.stream_eq_ok_iff]; exact hx
  unfold putCopy
  simp only [enc8_of_le hv, h1, bind, Except.bind]
  rfl

/-- The diversifier bytes of Piston `i`. -/
def diversifier (c : Cfg) (i : Nat) : Bytes := [BitVec.ofNat 8 c.pi, BitVec.ofNat 8 i]

theorem diversify_ok {s : State} {i : Nat} {x : ByteStream} (hx : s.xt[i]? = some x) (hpi : s.cfg.pi ≤ 255)
    (hi : i ≤ 255) : diversify i s = .ok (s.setXt (s.xt.set i (x.putAll (diversifier s.cfg i)))) := by
  have hlt := (List.getElem?_eq_some_iff.mp hx).1
  have h2 := putCopy_ok (s := s.setXt (s.xt.set i (x.put (BitVec.ofNat 8 s.cfg.pi)))) (i := i) (v := i)
    (x := x.put (BitVec.ofNat 8 s.cfg.pi)) (by simp [State.setXt, hlt]) hi
  unfold diversify
  simp only [putCopy_ok hx hpi, bind, Except.bind, h2]
  simp [State.setXt, ByteStream.put, ByteStream.putAll, diversifier]

theorem diversifyTurns_ok {s : State} (hxt : s.xt.length = s.cfg.pi) (hpi : s.cfg.pi ≤ 255) :
    forEach diversify (List.range s.cfg.pi) s =
      .ok (s.setXt (s.xt.mapIdx fun i x => x.putAll (diversifier s.cfg i))) := by
  let g : Nat → List ByteStream := fun k =>
    s.xt.mapIdx fun i x => if i < k then x.putAll (diversifier s.cfg i) else x
  have hg0 : g 0 = s.xt := by
    apply List.ext_getElem?
    intro i
    simp only [g, List.getElem?_mapIdx]
    cases s.xt[i]? <;> rfl
  have hgn : g s.cfg.pi = s.xt.mapIdx fun i x => x.putAll (diversifier s.cfg i) := by
    apply List.ext_getElem?
    intro i
    simp only [g, List.getElem?_mapIdx]
    cases hi : s.xt[i]? with
    | none => rfl
    | some x => simp [show i < s.cfg.pi from hxt ▸ (List.getElem?_eq_some_iff.mp hi).1]
  obtain ⟨t, ht, hP⟩ := forEach_range_ok (f := diversify) (P := fun k t => t = s.setXt (g k)) (n := s.cfg.pi) (s := s)
    (by rw [hg0]; rfl) (by
      rintro k t hk rfl
      obtain ⟨x, hx⟩ : ∃ x, s.xt[k]? = some x := ⟨_, List.getElem?_eq_getElem (hxt.symm ▸ hk)⟩
      refine ⟨_, diversify_ok (s := s.setXt (g k)) (x := x) (by simp [State.setXt, g, List.getElem?_mapIdx, hx]) hpi
        (by omega), ?_⟩
      have hgs : (g k).set k (x.putAll (diversifier s.cfg k)) = g (k + 1) := by
        apply List.ext_getElem?
        intro i
        simp only [g, List.getElem?_set, List.getElem?_mapIdx, List.length_mapIdx]
        by_cases hik : k = i
        · subst hik
          rw [if_pos rfl, if_pos (List.getElem?_eq_some_iff.mp hx).1, hx]
          simp
        · simp only [hik, if_false]
          cases s.xt[i]? with
          | none => rfl
          | some y =>
            have : (i < k) ↔ (i < k + 1) := by omega
            simp [this]
      rw [← hgs]
      rfl)
  have hP' : t = s.setXt (g s.cfg.pi) := hP
  rw [ht, hP', hgn]

/-- A stream name that is no copy. -/
theorem State.setStream_xt {s : State} {n : StreamName} (hn : n.standing = true) (x : ByteStream) :
    (s.setStream n x).xt = s.xt := by
  cases n with
  | port p => cases p <;> rfl
  | tPrime => rfl
  | xt k => simp [StreamName.standing] at hn

/-- The bytes a Piston absorbs, from the copy it is given. -/
theorem copy_unread (c : Cfg) (d : Bool) (i : Nat) (vs : Bytes) :
    (if d then (ByteStream.ofBytes vs).putAll (diversifier c i) else ByteStream.ofBytes vs).unread =
      collectiveInput c d i vs := by
  cases d <;> simp [ByteStream.ofBytes, ByteStream.putAll, ByteStream.unread, collectiveInput, diversifier]

/-- The length of what every Piston absorbs. -/
def collectiveLength (d : Bool) (n : Nat) : Nat := n + if d then 2 else 0

theorem collectiveInput_length (c : Cfg) (d : Bool) (i : Nat) (vs : Bytes) :
    (collectiveInput c d i vs).length = collectiveLength d vs.length := by
  cases d <;> simp [collectiveInput, collectiveLength]

/-- `E.INJCOLL` on a built block in phase `fresh`, from a stream that is no copy. -/
theorem eInjColl_ok {s : State} (hb : s.Built) {src : StreamName} (hn : src.standing = true) {x : ByteStream} {d : Bool}
    (hx : s.stream? src = some x) (hph : s.phaseE = .fresh) :
    ∃ tr, eInjColl src d s = .ok
      { s.setStream src x.consumed with
        pistons := s.pistons.mapIdx fun i S => duplexAbsorb s.cfg S (collectiveInput s.cfg d i x.unread)
        et := if s.cfg.ra < collectiveLength d x.unread.length then List.replicate s.cfg.pi 0 else s.et
        phaseE := .endOfMessage
        xt := []
        trace := s.trace ++ tr } := by
  obtain ⟨hlay, _, _, _, hpi, _, _, _, hra⟩ := hb.facts
  have hne : ¬ ((s.emit (.eInjColl d)).phaseE ≠ .fresh) := not_not_intro hph
  have hxs : (s.emit (.eInjColl d)).stream src = .ok x := by rw [State.stream_eq_ok_iff]; simpa using hx
  obtain ⟨u, hu⟩ : ∃ u, u = (((s.emit (.eInjColl d)).setStream src x.consumed).setXt
    ((List.range s.cfg.pi).map fun i =>
      if d then (ByteStream.ofBytes x.unread).putAll (diversifier s.cfg i) else ByteStream.ofBytes x.unread)) :=
    ⟨_, rfl⟩
  have hdiv : diversifyCopies d (broadcast src x (s.emit (.eInjColl d))) = .ok u := by
    unfold diversifyCopies
    cases d with
    | false =>
      rw [hu]
      simp only [broadcast, Bool.false_eq_true, if_false, State.emit_cfg]
      congr 2
      apply List.ext_getElem <;> simp
    | true =>
      have h := diversifyTurns_ok (s := broadcast src x (s.emit (.eInjColl true)))
        (by simp [broadcast, State.setXt]) (by simpa [broadcast, State.setXt] using hpi)
      simp only [if_true, State.pistonIndices]
      rw [h, hu]
      congr 1
      simp only [broadcast, State.setXt, State.emit_cfg, State.setStream_cfg, if_true]
      congr 1
      apply List.ext_getElem <;> simp
  have hcfg : u.cfg = s.cfg := by rw [hu]; simp [State.setXt]
  have hups : u.pistons = s.pistons := by rw [hu]; simp [State.setXt]
  have hbu : u.Built := hb.of_eq hcfg (by rw [hups]; exact hb.memory)
  have huxt : u.xt = (List.range s.cfg.pi).map fun i =>
      if d then (ByteStream.ofBytes x.unread).putAll (diversifier s.cfg i) else ByteStream.ofBytes x.unread := by
    rw [hu]; rfl
  have hlen : u.xt.length = u.cfg.pi := by rw [huxt, hcfg]; simp
  have hm : ∀ y ∈ u.xt, y.unread.length = collectiveLength d x.unread.length := by
    rw [huxt]
    simp only [List.mem_map]
    rintro _ ⟨i, _, rfl⟩
    rw [copy_unread, collectiveInput_length]
  obtain ⟨_, _, _, _, _, hpi1, _⟩ := hbu.facts
  have hbound : collectiveLength d x.unread.length < u.groupBound := by
    have h0 : u.xt[0]? = some (u.xt[0]'(by omega)) := List.getElem?_eq_getElem _
    have := hm _ (List.mem_of_getElem? h0)
    simp only [State.groupBound, List.getD_eq_getElem?_getD, h0, Option.getD_some]
    omega
  obtain ⟨xs, tr, h3⟩ := injectGroups_ok _ hbu hlen hm hbound
  refine ⟨encodeWord (.eInjColl d) :: tr, ?_⟩
  unfold eInjColl
  simp only [if_neg hne, bind, Except.bind, hxs, hdiv, h3]
  have hps : absorbPistons u.cfg (collectiveLength d x.unread.length) u.xt u.pistons =
      s.pistons.mapIdx fun i S => duplexAbsorb s.cfg S (collectiveInput s.cfg d i x.unread) := by
    rw [hcfg, hups, huxt]
    apply List.ext_getElem?
    intro i
    simp only [absorbPistons, List.getElem?_mapIdx]
    cases hi : s.pistons[i]? with
    | none => rfl
    | some S =>
      have hilt : i < s.cfg.pi := by
        have := (List.getElem?_eq_some_iff.mp hi).1; rw [hb.length] at this; exact this
      have e : ((List.range s.cfg.pi).map fun i =>
          if d then (ByteStream.ofBytes x.unread).putAll (diversifier s.cfg i)
          else ByteStream.ofBytes x.unread).getD i ByteStream.empty =
          (if d then (ByteStream.ofBytes x.unread).putAll (diversifier s.cfg i)
          else ByteStream.ofBytes x.unread) := by simp [hilt]
      simp only [Option.map_some, e, copy_unread, duplexAbsorb, collectiveInput_length]
  rw [hps]
  rw [hcfg, hu]
  cases src with
  | port p => cases p <;> simp [State.setStream, State.setPort, State.setXt, State.setPhaseE, State.emit]
  | tPrime => simp [State.setStream, State.setXt, State.setPhaseE, State.emit]
  | xt k => simp [StreamName.standing] at hn

end Sys2Proof.Machine
end

