-- ==== Sys2Proof/Laws/Faults.lean ====
section
/-! SUPPORT. What operations, steps and runs do to the fault latch and the count of fault entries: a next state of an
operation has both as they were, a fault of the spec enters the one and raises the other, and past a fault the count tells a
faulted run from another (60_exceptions R225, R226). -/

namespace Sys2Proof.Machine

/-- What a fault leaves: the latch entered, the cause recorded, the count raised by one (60_exceptions R225). -/
structure Entered (s : State) (r : Raise) (t : State) : Prop where
  fault : t.fault = true
  cause : t.cause = r.cause
  faultCount : t.faultCount = s.faultCount + 1

/-- An outcome of a meaning: a next state has not touched the latch, a fault of the spec has entered it. -/
def Settled (s : State) : Host.Outcome State Fault Refusal → Prop
  | .next t => t.fault = s.fault ∧ t.faultCount = s.faultCount
  | .fault (.latched r t) => Entered s r t
  | .fault (.stopped _) => True
  | .refused _ => True

/-- An outcome of a step: as `Settled`, but a next state may also have left the latch, by reset. -/
def Stepped (s : State) : Host.Outcome State Fault Refusal → Prop
  | .next t => (t.fault = true → s.fault = true) ∧ t.faultCount = s.faultCount
  | .fault (.latched r t) => Entered s r t
  | .fault (.stopped _) => True
  | .refused _ => True

theorem entered_enterFault {s t : State} (hc : t.faultCount = s.faultCount) (r : Raise) :
    Entered s r (t.enterFault r) := ⟨rfl, rfl, by simp [hc]⟩

theorem Settled.stepped {s : State} : ∀ {o : Host.Outcome State Fault Refusal}, Settled s o → Stepped s o
  | .next _, h => ⟨fun k => h.1 ▸ k, h.2⟩
  | .fault (.latched _ _), h => h
  | .fault (.stopped _), _ => trivial
  | .refused _, _ => trivial

/-- `Stepped` looks at the latch and the count only. -/
theorem Stepped.of_eq {s u : State} (hf : u.fault = s.fault) (hc : u.faultCount = s.faultCount) :
    ∀ {o : Host.Outcome State Fault Refusal}, Stepped u o → Stepped s o
  | .next _, h => ⟨fun k => hf ▸ h.1 k, h.2.trans hc⟩
  | .fault (.latched _ _), h => ⟨h.fault, h.cause, by rw [h.faultCount, hc]⟩
  | .fault (.stopped _), _ => trivial
  | .refused _, _ => trivial

theorem settle_settled {s : State} {r : Result State} (k : KeepsState s r) : Settled s (settle r) := by
  cases r with
  | ok u => exact ⟨Kept.fault k, Kept.faultCount k⟩
  | error e =>
    cases e with
    | raised x u => exact entered_enterFault (Kept.faultCount k) x
    | stuck f => trivial

/-- What is done with the value of an operation that keeps the latch and the count keeps them too. -/
theorem settle_bind_settled {α : Type} {π : α → State} {s : State} {r : Result α} {f : α → State} (k : Keeps π s r)
    (hf : ∀ a, (f a).fault = (π a).fault) (hc : ∀ a, (f a).faultCount = (π a).faultCount) :
    Settled s (settle (r >>= fun a => .ok (f a))) := by
  cases r with
  | ok a =>
    have k : Kept s (π a) := k
    exact ⟨(hf a).trans k.fault, (hc a).trans k.faultCount⟩
  | error e =>
    cases e with
    | raised x u => exact entered_enterFault (Kept.faultCount k) x
    | stuck f => trivial

theorem onLanes_keeps (f : {w : Nat} → Lanes w → Lanes w) (A : Bytes) (s u : State) (h : Kept s u) :
    Keeps (fun r => r.2) s (onLanes f A u) := by
  rcases onLanes_cases f A u with ⟨_, _, e⟩ | ⟨e', e⟩ <;> rw [e]
  · exact h
  · trivial

theorem withArray_settled {s : State} {f : Bytes → State → Result (Bytes × State)}
    (k : ∀ A s, Keeps (fun r => r.2) s (f A s)) : Settled s (settle (withArray f s)) := by
  have e : withArray f s = f s.lines.state s >>= fun r => .ok (r.2.setArray r.1) := by
    unfold withArray
    cases f s.lines.state s <;> rfl
  rw [e]
  exact settle_bind_settled (f := fun r : Bytes × State => r.2.setArray r.1) (k s.lines.state s) (fun _ => rfl) fun _ => rfl

/-- What every meaning does to the latch and the count. -/
theorem exec_settled (op : Instr) (s : State) : Settled s (exec op s) := by
  cases op with
  | fTheta => exact withArray_settled fun _ s => onLanes_keeps _ _ _ _ (kept_emit s _)
  | fRhoPi => exact withArray_settled fun _ s => onLanes_keeps _ _ _ _ (kept_emit s _)
  | fChi => exact withArray_settled fun _ s => onLanes_keeps _ _ _ _ (kept_emit s _)
  | fIota => exact withArray_settled fun _ s => onLanes_keeps _ _ _ _ (kept_emit s _)
  | fRound => exact withArray_settled fun _ s => onLanes_keeps _ _ _ _ ((kept_emit s _).trans (kept_emitAll _ _))
  | fApply => exact withArray_settled fApply_keeps
  | pCrypt u => exact settle_settled (pCrypt_keeps ..)
  | pInject c => exact settle_settled (pInject_keeps ..)
  | pSpark e => exact settle_settled (pSpark_keeps ..)
  | pGetTag => exact settle_settled (pGetTag_keeps ..)
  | eCrypt u => exact settle_settled (eCrypt_keeps ..)
  | eInject => exact settle_settled (eInject_keeps ..)
  | eSpark e => exact settle_settled (eSpark_keeps ..)
  | eGetTags => exact settle_settled (eGetTags_keeps ..)
  | eInjColl d => exact settle_settled (eInjCollFrom_keeps ..)
  | mStart w u g => exact settle_settled (mStart_keeps ..)
  | mWrap u g => exact settle_settled (mWrap_keeps ..)
  | mKnot => exact settle_settled (mKnot_keeps ..)
  | mHandleTag w u =>
    exact settle_bind_settled (f := fun r => r.2.setRet r.1) (mHandleTag_keeps w u s) (fun _ => rfl) fun _ => rfl

theorem resetOutcome_stepped (s : State) : Stepped s (resetOutcome s) := by
  unfold resetOutcome State.applyReset
  cases s.cfgPort.refusal with
  | none => exact ⟨fun h => Bool.noConfusion h, rfl⟩
  | some r => exact ⟨rfl, rfl, rfl⟩

/-- The outcome of what was fetched, as `step` takes it. -/
def Fetched.outcome : Fetched → Host.Outcome State Fault Refusal
  | .run i s => exec i s
  | .answer o => o

theorem step_eq (s : State) : step s = (fetch s).outcome := rfl

theorem acceptCommand_stepped (w : Byte) (s : State) : Stepped s (acceptCommand w s).outcome := by
  unfold acceptCommand
  split
  · exact ⟨id, rfl⟩
  · split
    · split
      · rename_i i _ _ _
        exact Stepped.of_eq (s := s) (u := { s with done := false }) rfl rfl (exec_settled i { s with done := false }).stepped
      · exact entered_enterFault rfl _
    · exact entered_enterFault rfl _

theorem acceptIssue_stepped (w : Byte) (s : State) : Stepped s (acceptIssue w s).outcome := by
  unfold acceptIssue
  split
  · exact ⟨id, rfl⟩
  · split
    · rename_i i _ _
      exact (exec_settled i s).stepped
    · trivial

theorem hostMove_stepped (m : HostMove) (s : State) : Stepped s (hostMove m s).outcome := by
  cases m with
  | config c => exact ⟨id, rfl⟩
  | reset => exact resetOutcome_stepped s
  | present p vs => exact ⟨fun h => by simpa [hostMove] using h, by simp⟩
  | append p vs => exact ⟨fun h => by simpa [hostMove] using h, by simp⟩
  | command w => exact acceptCommand_stepped w s

/-- What every step does to the latch and the count. -/
theorem step_stepped (s : State) : Stepped s (step s) := by
  rw [step_eq]
  unfold fetch
  split
  · rename_i w _
    exact Stepped.of_eq (s := s) (u := { s with issue := none }) rfl rfl (acceptIssue_stepped w { s with issue := none })
  · split
    · exact ⟨id, rfl⟩
    · rename_i m rest _
      exact Stepped.of_eq (s := s) (u := { s with host := rest }) rfl rfl (hostMove_stepped m { s with host := rest })

/-- The same of the block's own step, which a fault does not end. -/
theorem blockStep_faults {s t : State} (h : blockStep s = .next t) :
    (t.fault = true → s.fault = true ∨ s.faultCount < t.faultCount) ∧ s.faultCount ≤ t.faultCount := by
  have k := step_stepped s
  unfold blockStep at h
  cases hs : step s with
  | next u =>
    rw [hs] at h k
    cases h
    exact ⟨fun hf => .inl (k.1 hf), k.2.ge⟩
  | fault f =>
    rw [hs] at h k
    cases f with
    | latched r u =>
      cases h
      have k : Entered s r t := k
      exact ⟨fun _ => .inr (by rw [k.faultCount]; omega), by rw [k.faultCount]; omega⟩
    | stopped w => cases h
  | refused r => rw [hs] at h; cases h

/-- A run of one step and `k` more. -/
theorem run_succ (M : Host.Core) (k : Nat) (s : M.State) :
    M.run (k + 1) s = match M.step s with
      | .next u => M.run k u
      | .fault r => .fault r
      | .refused r => .refused r := rfl

end Sys2Proof.Machine
end

