-- ==== Sys2Proof/Laws/PerInstr.lean ====
section
/-! SUPPORT. Statements for all operations, one lemma for each constructor. Family `WordShape`: what the word of every
operation is as a word (30_encoding R80, R84, R85). -/

/-- The word of an operation decodes to it; it is one of the words 0xC0 to 0xCB exactly when the host may issue the
operation (30_encoding R85). -/
def Sys2Proof.Laws.WordShape.Statement (i : Sys2Proof.Instr) : Prop :=
  Sys2Proof.decodeWord (Sys2Proof.encodeWord i) = some i ∧
    (i.hostIssuable = true ↔
      0xC0 ≤ (Sys2Proof.encodeWord i).toNat ∧ (Sys2Proof.encodeWord i).toNat ≤ 0xCB)

theorem Sys2Proof.Laws.WordShape.fTheta :
    Sys2Proof.Laws.WordShape.Statement .fTheta := by
  unfold Sys2Proof.Laws.WordShape.Statement; decide

theorem Sys2Proof.Laws.WordShape.fRhoPi :
    Sys2Proof.Laws.WordShape.Statement .fRhoPi := by
  unfold Sys2Proof.Laws.WordShape.Statement; decide

theorem Sys2Proof.Laws.WordShape.fChi :
    Sys2Proof.Laws.WordShape.Statement .fChi := by
  unfold Sys2Proof.Laws.WordShape.Statement; decide

theorem Sys2Proof.Laws.WordShape.fIota :
    Sys2Proof.Laws.WordShape.Statement .fIota := by
  unfold Sys2Proof.Laws.WordShape.Statement; decide

theorem Sys2Proof.Laws.WordShape.fRound :
    Sys2Proof.Laws.WordShape.Statement .fRound := by
  unfold Sys2Proof.Laws.WordShape.Statement; decide

theorem Sys2Proof.Laws.WordShape.fApply :
    Sys2Proof.Laws.WordShape.Statement .fApply := by
  unfold Sys2Proof.Laws.WordShape.Statement; decide

theorem Sys2Proof.Laws.WordShape.pCrypt (a : Bool) :
    Sys2Proof.Laws.WordShape.Statement (.pCrypt a) := by
  unfold Sys2Proof.Laws.WordShape.Statement; revert a; decide

theorem Sys2Proof.Laws.WordShape.pInject (a : Bool) :
    Sys2Proof.Laws.WordShape.Statement (.pInject a) := by
  unfold Sys2Proof.Laws.WordShape.Statement; revert a; decide

theorem Sys2Proof.Laws.WordShape.pSpark (a : Bool) :
    Sys2Proof.Laws.WordShape.Statement (.pSpark a) := by
  unfold Sys2Proof.Laws.WordShape.Statement; revert a; decide

theorem Sys2Proof.Laws.WordShape.pGetTag :
    Sys2Proof.Laws.WordShape.Statement .pGetTag := by
  unfold Sys2Proof.Laws.WordShape.Statement; decide

theorem Sys2Proof.Laws.WordShape.eCrypt (a : Bool) :
    Sys2Proof.Laws.WordShape.Statement (.eCrypt a) := by
  unfold Sys2Proof.Laws.WordShape.Statement; revert a; decide

theorem Sys2Proof.Laws.WordShape.eInject :
    Sys2Proof.Laws.WordShape.Statement .eInject := by
  unfold Sys2Proof.Laws.WordShape.Statement; decide

theorem Sys2Proof.Laws.WordShape.eSpark (a : Bool) :
    Sys2Proof.Laws.WordShape.Statement (.eSpark a) := by
  unfold Sys2Proof.Laws.WordShape.Statement; revert a; decide

theorem Sys2Proof.Laws.WordShape.eGetTags :
    Sys2Proof.Laws.WordShape.Statement .eGetTags := by
  unfold Sys2Proof.Laws.WordShape.Statement; decide

theorem Sys2Proof.Laws.WordShape.eInjColl (a : Bool) :
    Sys2Proof.Laws.WordShape.Statement (.eInjColl a) := by
  unfold Sys2Proof.Laws.WordShape.Statement; revert a; decide

theorem Sys2Proof.Laws.WordShape.mStart (a b c : Bool) :
    Sys2Proof.Laws.WordShape.Statement (.mStart a b c) := by
  unfold Sys2Proof.Laws.WordShape.Statement; revert a b c; decide

theorem Sys2Proof.Laws.WordShape.mWrap (a b : Bool) :
    Sys2Proof.Laws.WordShape.Statement (.mWrap a b) := by
  unfold Sys2Proof.Laws.WordShape.Statement; revert a b; decide

theorem Sys2Proof.Laws.WordShape.mKnot :
    Sys2Proof.Laws.WordShape.Statement .mKnot := by
  unfold Sys2Proof.Laws.WordShape.Statement; decide

theorem Sys2Proof.Laws.WordShape.mHandleTag (a b : Bool) :
    Sys2Proof.Laws.WordShape.Statement (.mHandleTag a b) := by
  unfold Sys2Proof.Laws.WordShape.Statement; revert a b; decide
end

