-- ==== Sys2Proof/Laws/Termination.lean ====
section
/-! SUPPORT. Every loop ends (70_reset R252): on a built block no operation, in whatever phase and with whatever operands,
meets the stop `endlessLoop`. -/

namespace Sys2Proof.Machine

/-- The result is not the stop of a loop that never ends. -/
def Ends {α : Type} (r : Result α) : Prop := r ≠ .error (.stuck .endlessLoop)

theorem ends_ok {α : Type} (a : α) : Ends (.ok a : Result α) := fun h => by cases h

theorem ends_raise {α : Type} (r : Raise) (s : State) : Ends (raise r s : Result α) := fun h => by cases h

theorem ends_stop {α : Type} {f : Stop} (h : f ≠ .endlessLoop) : Ends (stop f : Result α) := by
  intro h'; cases h'; exact h rfl

theorem Ends.bind {α β : Type} {r : Result α} {f : α → Result β} (h : Ends r) (hf : ∀ a, r = .ok a → Ends (f a)) :
    Ends (r >>= f) := by
  cases r with
  | ok a => exact hf a rfl
  | error e => intro h'; cases h'; exact h rfl

theorem forEach_ends {f : Nat → State → Result State} (h : ∀ i s, Ends (f i s)) (is : List Nat) (s : State) :
    Ends (forEach f is s) := by
  induction is generalizing s with
  | nil => exact ends_ok s
  | cons i is ih => rw [forEach_cons]; exact Ends.bind (h i s) fun a _ => ih a

/-! Operations without such a loop. -/

theorem piston_ends (s : State) (i : Nat) : Ends (s.piston i) := by
  rcases State.piston_cases s i with ⟨S, h⟩ | h <;> rw [h]
  · exact ends_ok S
  · exact ends_stop (by simp)

theorem stream_ends (s : State) (n : StreamName) : Ends (s.stream n) := by
  rcases State.stream_cases s n with ⟨x, h⟩ | h <;> rw [h]
  · exact ends_ok x
  · exact ends_stop (by simp)

theorem xorEnc8_ends (s : State) (i k v : Nat) : Ends (s.xorEnc8 i k v) := by
  rcases State.xorEnc8_cases s i k v with ⟨_, h⟩ | ⟨_, h⟩ <;> rw [h]
  · exact ends_ok _
  · exact ends_raise _ _

theorem lanesExist_ends (s : State) (A : Bytes) : Ends (s.lanesExist A) := by
  unfold State.lanesExist
  split
  · exact ends_stop (by simp)
  · split
    · exact ends_stop (by simp)
    · exact ends_ok _

theorem onLanes_ends (f : {w : Nat} → Lanes w → Lanes w) (A : Bytes) (s : State) : Ends (onLanes f A s) := by
  have h := lanesExist_ends s A
  unfold onLanes
  cases hl : s.lanesExist A with
  | ok u => exact ends_ok _
  | error e => intro h'; cases h'; exact h hl

theorem fApply_ends (A : Bytes) (s : State) : Ends (fApply A s) := by
  unfold fApply
  split
  · exact ends_raise _ _
  · split
    · exact ends_stop (by simp)
    · exact ends_ok _

theorem withArray_ends {f : Bytes → State → Result (Bytes × State)} (h : ∀ A s, Ends (f A s)) (s : State) :
    Ends (withArray f s) := by
  have h := h s.lines.state s
  unfold withArray
  cases hf : f s.lines.state s with
  | ok r => exact ends_ok _
  | error e => intro h'; cases h'; exact h hf

theorem pCrypt_ends (i : Nat) (src dst : StreamName) (ω : Nat) (u : Bool) (s : State) : Ends (pCrypt i src dst ω u s) := by
  unfold pCrypt
  dsimp only
  split
  · exact ends_stop (by simp)
  · have h1 := piston_ends (s.emit (.pCrypt u)) i
    have h2 := stream_ends (s.emit (.pCrypt u)) src
    have h3 := stream_ends (s.emit (.pCrypt u)) dst
    split
    · exact xorEnc8_ends _ _ _ _
    · intro h'; cases h'; exact h1 ‹_›
    · intro h'; cases h'; exact h2 ‹_›
    · intro h'; cases h'; exact h3 ‹_›

theorem injectData_ends (i : Nat) (src : StreamName) (n : Nat) (s : State) : Ends (injectData i src n s) := by
  have h1 := piston_ends s i
  have h2 := stream_ends s src
  unfold injectData
  split
  · exact ends_ok _
  · intro h'; cases h'; exact h1 ‹_›
  · intro h'; cases h'; exact h2 ‹_›

theorem pInject_ends (i : Nat) (src : StreamName) (b : Bool) (s : State) : Ends (pInject i src b s) :=
  Ends.bind (piston_ends _ _) fun _ _ => Ends.bind (xorEnc8_ends _ _ _ _) fun _ _ =>
    Ends.bind (injectData_ends _ _ _ _) fun _ _ => xorEnc8_ends _ _ _ _

theorem markEnd_ends (s : State) (i l : Nat) (final : Bool) : Ends (s.markEnd i l final) := by
  unfold State.markEnd
  split
  · split
    · exact ends_ok _
    · exact xorEnc8_ends _ _ _ _
  · exact ends_ok _

theorem pSpark_ends (i l : Nat) (final : Bool) (s : State) : Ends (pSpark i l final s) :=
  Ends.bind (piston_ends _ _) fun _ _ => Ends.bind (markEnd_ends _ _ _ _) fun _ _ =>
    Ends.bind (piston_ends _ _) fun _ _ => Ends.bind (fApply_ends _ _) fun _ _ => ends_ok _

theorem pGetTag_ends (i : Nat) (dst : StreamName) (l : Nat) (s : State) : Ends (pGetTag i dst l s) := by
  refine Ends.bind (piston_ends _ _) fun S _ => ?_
  split
  · exact ends_raise _ _
  · exact Ends.bind (stream_ends _ _) fun _ _ => ends_ok _

theorem eCrypt_ends (src dst : StreamName) (u : Bool) (s : State) : Ends (eCrypt src dst u s) := by
  unfold eCrypt
  dsimp only
  split
  · exact ends_raise _ _
  · exact Ends.bind (forEach_ends (fun _ _ => pCrypt_ends _ _ _ _ _ _) _ _) fun _ _ =>
      Ends.bind (stream_ends _ _) fun _ _ => ends_ok _

theorem eSpark_ends (final : Bool) (l : List Nat) (s : State) : Ends (eSpark final l s) := by
  unfold eSpark
  dsimp only
  split
  · exact ends_stop (by simp)
  · exact Ends.bind (forEach_ends (fun _ _ => pSpark_ends _ _ _ _) _ _) fun _ _ => ends_ok _

theorem eInject_ends (src : StreamName) (s : State) : Ends (eInject src s) := by
  unfold eInject
  dsimp only
  split
  · exact ends_raise _ _
  · refine Ends.bind (forEach_ends (fun _ _ => pInject_ends _ _ _ _) _ _) fun t _ =>
      Ends.bind (stream_ends _ _) fun x _ => ?_
    split
    · exact Ends.bind (eSpark_ends _ _ _) fun _ _ => ends_ok _
    · exact ends_ok _

theorem eGetTags_ends (dst : StreamName) (l : List Nat) (s : State) : Ends (eGetTags dst l s) := by
  unfold eGetTags
  dsimp only
  split
  · exact ends_raise _ _
  · exact Ends.bind (eSpark_ends _ _ _) fun _ _ =>
      Ends.bind (forEach_ends (fun _ _ => pGetTag_ends _ _ _ _) _ _) fun _ _ => ends_ok _

/-! The loops. -/

/-- What an operation that ends normally makes of a built block is a built block. -/
theorem State.Built.of_keeps {s t : State} (h : s.Built) {r : Result State} (k : KeepsState s r) (hr : r = .ok t) :
    t.Built := by
  subst hr
  exact h.of_eq k.cfg (by have := k.memory h.memory; rwa [k.cfg] at this)

/-- `E.INJCOLL` ends, from every stream but a copy of its own making. -/
theorem eInjColl_ends {s : State} (hb : s.Built) {src : StreamName} (hn : src.standing = true) (d : Bool) :
    Ends (eInjColl src d s) := by
  by_cases hph : s.phaseE = .fresh
  · obtain ⟨x, hx⟩ : ∃ x, s.stream? src = some x := by
      cases src with
      | port p => exact ⟨_, rfl⟩
      | tPrime => exact ⟨_, rfl⟩
      | xt k => cases hn
    obtain ⟨tr, h⟩ := eInjColl_ok (d := d) hb hn hx hph
    rw [h]; exact ends_ok _
  · unfold eInjColl
    have h : (s.emit (.eInjColl d)).phaseE ≠ .fresh := hph
    simp only [if_pos h]
    exact ends_raise _ _

theorem eInjCollFrom_ends {s : State} (hb : s.Built) (src : StreamName) (d : Bool) : Ends (eInjCollFrom src d s) := by
  unfold eInjCollFrom
  cases src with
  | port p => exact eInjColl_ends hb rfl d
  | tPrime => exact eInjColl_ends hb rfl d
  | xt k =>
    dsimp only
    split
    · exact ends_stop (by simp)
    · rename_i hph
      unfold eInjColl
      have h : (s.emit (.eInjColl d)).phaseE ≠ .fresh := hph
      simp only [if_pos h]
      exact ends_raise _ _

/-- What an `E.INJECT(A)` leaves: `I` as it was; of `A` nothing more, and less when entered in phase `fresh` with bytes to
take; phase `fresh` unless `A` is exhausted; every offset 0 after the spark that a crypted phase forces. -/
theorem eInject_leaves {s t : State} (hb : s.Built) (h : eInject (.port .ad) s = .ok t) :
    t.inp = s.inp ∧ t.ad.unread.length ≤ s.ad.unread.length ∧
      (s.phaseE = .fresh → t.ad.unread.length ≤ s.ad.unread.length - 1) ∧
      (t.phaseE = .fresh ∨ t.ad.unread.length = 0) ∧ (s.phaseE = .crypted → t.et = List.replicate s.cfg.pi 0) := by
  obtain ⟨_, _, _, _, _, hpi, _, _, hra⟩ := hb.facts
  by_cases hph : s.phaseE = .endOfMessage
  · unfold eInject at h
    simp only [State.emit_phaseE, hph, if_true] at h
    cases h
  · obtain ⟨room, hroom⟩ : ∃ room, s.cfg.pi * injectRoom s.cfg s.phaseE.crypting = room := ⟨_, rfl⟩
    obtain ⟨sp, hsp⟩ : ∃ sp, injectSparks s.phaseE s.ad.unread.length room = sp := ⟨_, rfl⟩
    have e := eInject_ok hb (src := .port .ad) rfl hph rfl hroom hsp
    rw [h] at e
    cases e
    have hpos : s.phaseE = .fresh → 1 ≤ room := fun hf => by
      rw [← hroom]
      exact Nat.mul_pos hpi (by simpa [hf, PhaseE.crypting, injectRoom, injectFrom] using Nat.lt_of_succ_le hra)
    simp only [State.setStream, State.setPort, State.port, ByteStream.advance_unread, List.length_drop]
    refine ⟨trivial, by omega, fun hf => by have := hpos hf; omega, ?_, fun hc => by simp [← hsp, injectSparks, hc]⟩
    cases sp with
    | true => exact .inl rfl
    | false =>
      simp only [injectSparks, Bool.or_eq_false_iff, decide_eq_false_iff_not] at hsp
      exact .inr (by omega)

/-- The second loop of `M.WRAP` ends: every turn takes a byte, but perhaps the first. -/
theorem wrapRest_ends (n : Nat) {s : State} (hb : s.Built)
    (hn : (s.phaseE = .fresh ∨ s.ad.unread.length = 0) ∧ s.ad.unread.length < n ∨ s.ad.unread.length + 1 < n) :
    Ends (wrapRest n s) := by
  induction n generalizing s with
  | zero => omega
  | succ n ih =>
    unfold wrapRest
    split
    · rename_i hmore
      refine Ends.bind (eInject_ends _ _) fun t ht => ?_
      obtain ⟨_, hle, hlt, hend, _⟩ := eInject_leaves hb ht
      have := (ByteStream.hasMore_iff _).mp hmore
      refine ih (hb.of_keeps (eInject_keeps _ _) ht) (.inl ⟨hend, ?_⟩)
      rcases hn with ⟨hf | h0, hn⟩ | hn
      · have := hlt hf; omega
      · omega
      · omega
    · exact ends_ok _

/-- What an `E.CRYPT(I, O)` leaves: of `I` what it had no room for, and phase `crypted` exactly when that is something. -/
theorem eCrypt_leaves {s t : State} (hb : s.Built) {u : Bool} (h : eCrypt (.port .inp) (.port .out) u s = .ok t) :
    t.inp.unread.length = s.inp.unread.length - s.cryptRoomBefore s.cfg.pi ∧
      (0 < t.inp.unread.length → t.phaseE = .crypted) := by
  have hph : s.phaseE = .fresh := by
    by_contra hne
    unfold eCrypt at h
    have h' : (s.emit (.eCrypt u)).phaseE ≠ .fresh := hne
    simp only [if_pos h'] at h
    cases h
  have e := eCrypt_ok hb (src := .port .inp) (dst := .port .out) (u := u) (by simp) rfl rfl hph
  rw [h] at e
  cases e
  simp only [State.setStream, State.setPort, State.port, ByteStream.advance_unread, List.length_drop]
  exact ⟨by omega, fun h0 => if_pos (by omega)⟩

/-- With every offset 0 a built block has room in an `E.CRYPT`. -/
theorem State.Built.room {s : State} (hb : s.Built) (h : s.et = List.replicate s.cfg.pi 0) :
    1 ≤ s.cryptRoomBefore s.cfg.pi := by
  obtain ⟨_, _, _, _, _, hpi, _, hknot, _⟩ := hb.facts
  have hpos := Cfg.knotBytes_pos hb.admitted
  have h0 : s.cryptRoom 0 = s.cfg.rs := by simp [State.cryptRoom, h, List.getD_eq_getElem?_getD, Nat.lt_of_succ_le hpi]
  have hmem : s.cryptRoom 0 ∈ (List.range s.cfg.pi).map s.cryptRoom := List.mem_map_of_mem (List.mem_range.mpr hpi)
  have := List.single_le_sum (fun _ _ => Nat.zero_le _) _ hmem
  unfold State.cryptRoomBefore
  omega

/-- The first loop of `M.WRAP` ends: every turn takes a byte, but perhaps the first, whose offsets may leave no room. -/
theorem wrapBlocks_ends (u : Bool) (n : Nat) {s : State} (hb : s.Built)
    (hn : (1 ≤ s.cryptRoomBefore s.cfg.pi ∨ s.inp.unread.length = 0) ∧ s.inp.unread.length < n ∨
      s.inp.unread.length + 1 < n) :
    Ends (wrapBlocks u n s) := by
  induction n generalizing s with
  | zero => omega
  | succ n ih =>
    unfold wrapBlocks
    split
    · rename_i hmore
      have hlen := (ByteStream.hasMore_iff _).mp hmore
      refine Ends.bind (eCrypt_ends _ _ _ _) fun t ht => Ends.bind (eInject_ends _ _) fun v hv => ?_
      have hbt := hb.of_keeps (eCrypt_keeps _ _ _ _) ht
      have hbv := hbt.of_keeps (eInject_keeps _ _) hv
      obtain ⟨hinp, _, _, _, het⟩ := eInject_leaves hbt hv
      obtain ⟨hlen', hcr⟩ := eCrypt_leaves hb ht
      have kt := eCrypt_keeps (.port .inp) (.port .out) u s
      have kv := eInject_keeps (.port .ad) t
      rw [ht] at kt
      rw [hv] at kv
      rw [← hinp] at hlen' hcr
      refine ih hbv (.inl ⟨?_, by omega⟩)
      rcases Nat.eq_zero_or_pos v.inp.unread.length with h0 | h0
      · exact .inr h0
      · exact .inl (hbv.room (by rw [het (hcr h0), show v.cfg = t.cfg from kv.cfg]))
    · exact ends_ok _

theorem wrapEmpty_ends (s : State) : Ends (wrapEmpty s) := by
  unfold wrapEmpty; split
  · exact eInject_ends _ _
  · exact ends_ok _

theorem wrapBody_ends (u : Bool) {s : State} (hb : s.Built) : Ends (wrapBody u s) := by
  unfold wrapBody
  refine Ends.bind (wrapEmpty_ends s) fun a ha => ?_
  have hba := hb.of_keeps (wrapEmpty_keeps s) ha
  refine Ends.bind (wrapBlocks_ends u _ hba (.inr (by omega))) fun b hb' => ?_
  exact wrapRest_ends _ (hba.of_keeps (wrapBlocks_keeps _ _ _) hb') (.inr (by omega))

/-! The Motorist. -/

theorem mKnot_ends {s : State} (hb : s.Built) : Ends (mKnot s) := by
  unfold mKnot
  have hb' : ((s.emit .mKnot).setTPrime ByteStream.empty).Built := hb.of_eq rfl hb.memory
  refine Ends.bind (eGetTags_ends _ _ _) fun t ht => ?_
  exact Ends.bind (eInjColl_ends (hb'.of_keeps (eGetTags_keeps _ _ _) ht) rfl _) fun _ _ => ends_ok _

theorem knotIf_ends (b : Bool) {s : State} (hb : s.Built) : Ends (knotIf b s) := by
  unfold knotIf; split
  · exact mKnot_ends hb
  · exact ends_ok _

theorem mHandleTag_ends (w u : Bool) (s : State) : Ends (mHandleTag w u s) := by
  unfold mHandleTag
  dsimp only
  split
  · exact Ends.bind (eGetTags_ends _ _ _) fun _ _ => ends_ok _
  · exact Ends.bind (eGetTags_ends _ _ _) fun _ _ => ends_ok _

theorem mStart_ends (w u g : Bool) {s : State} (hb : s.Built) : Ends (mStart w u g s) := by
  unfold mStart
  split
  · exact ends_raise _ _
  · refine Ends.bind (eInjColl_ends hb rfl _) fun a ha => ?_
    refine Ends.bind (knotIf_ends _ (hb.of_keeps (eInjColl_keeps _ _ _) ha)) fun b _ => ?_
    exact Ends.bind (mHandleTag_ends _ _ _) fun _ _ => ends_ok _

theorem mWrap_ends (u g : Bool) {s : State} (hb : s.Built) : Ends (mWrap u g s) := by
  unfold mWrap
  split
  · exact ends_raise _ _
  · refine Ends.bind (wrapBody_ends u hb) fun a ha => ?_
    refine Ends.bind (knotIf_ends _ (hb.of_keeps (wrapBody_keeps _ _) ha)) fun b _ => ?_
    exact Ends.bind (mHandleTag_ends _ _ _) fun _ _ => ends_ok _

theorem settle_ends {r : Result State} (h : Ends r) : settle r ≠ .fault (.stopped .endlessLoop) := by
  cases r with
  | ok s => simp [settle]
  | error e =>
    cases e with
    | raised r s => simp [settle, latch]
    | stuck f => intro h'; simp only [settle, Host.Outcome.fault.injEq, Fault.stopped.injEq] at h'; subst h'; exact h rfl

/-- On a built block no operation meets the stop of a loop that never ends (70_reset R252). -/
theorem exec_ends (op : Instr) {s : State} (hb : s.Built) : exec op s ≠ .fault (.stopped .endlessLoop) := by
  cases op with
  | fTheta => exact settle_ends (withArray_ends (fun _ _ => onLanes_ends _ _ _) s)
  | fRhoPi => exact settle_ends (withArray_ends (fun _ _ => onLanes_ends _ _ _) s)
  | fChi => exact settle_ends (withArray_ends (fun _ _ => onLanes_ends _ _ _) s)
  | fIota => exact settle_ends (withArray_ends (fun _ _ => onLanes_ends _ _ _) s)
  | fRound => exact settle_ends (withArray_ends (fun _ _ => onLanes_ends _ _ _) s)
  | fApply => exact settle_ends (withArray_ends fApply_ends s)
  | pCrypt u => exact settle_ends (pCrypt_ends _ _ _ _ _ _)
  | pInject c => exact settle_ends (pInject_ends _ _ _ _)
  | pSpark e => exact settle_ends (pSpark_ends _ _ _ _)
  | pGetTag => exact settle_ends (pGetTag_ends _ _ _ _)
  | eCrypt u => exact settle_ends (eCrypt_ends _ _ _ _)
  | eInject => exact settle_ends (eInject_ends _ _)
  | eSpark e => exact settle_ends (eSpark_ends _ _ _)
  | eGetTags => exact settle_ends (eGetTags_ends _ _ _)
  | eInjColl d => exact settle_ends (eInjCollFrom_ends hb _ _)
  | mStart w u g => exact settle_ends (mStart_ends w u g hb)
  | mWrap u g => exact settle_ends (mWrap_ends u g hb)
  | mKnot => exact settle_ends (mKnot_ends hb)
  | mHandleTag w u => exact settle_ends (Ends.bind (mHandleTag_ends w u s) fun _ _ => ends_ok _)

end Sys2Proof.Machine
end

