-- ==== Sys2Proof/Tests/Slice0.lean ====
section
/-! SUPPORT. The model's own tests. Expected values come from spec/: the encodings of 30_encoding R84, the vectors V10 to
V53 of 95_test_vectors, and hand calculation from the rules. The witnesses at the end meet the hypotheses of the statements. -/

namespace Sys2Proof.Tests

open Sys2Proof Sys2Proof.Machine

-- one test at a time: each kernel evaluation waits for those before it, and every waiting thread holds a stack
set_option Elab.async false

/-! Helpers -/

/-- The state an outcome leaves the block in. -/
def after : Host.Outcome State Fault Refusal → State
  | .next s => s
  | .fault (.latched _ s) => s
  | .fault (.stopped _) => State.reset
  | .refused _ => State.reset

/-- Whether an outcome is a next state. -/
def goesOn : Host.Outcome State Fault Refusal → Bool
  | .next _ => true
  | .fault _ => false
  | .refused _ => false

/-- Whether an outcome is a stop of the model. -/
def stops : Host.Outcome State Fault Refusal → Bool
  | .next _ => false
  | .fault (.latched _ _) => false
  | .fault (.stopped _) => true
  | .refused _ => true

/-- The fault of the spec an outcome is, with its `info`. -/
def raised : Host.Outcome State Fault Refusal → Option Raise
  | .next _ => none
  | .fault (.latched r _) => some r
  | .fault (.stopped _) => none
  | .refused _ => none

theorem next_after {o : Host.Outcome State Fault Refusal} (h : goesOn o = true) : o = .next (after o) := by
  cases o with
  | next s => rfl
  | fault f => cases h
  | refused r => cases h

theorem latched_after {o : Host.Outcome State Fault Refusal} {r : Raise} (h : raised o = some r) :
    o = .fault (.latched r (after o)) := by
  cases o with
  | next s => cases h
  | fault f =>
    cases f with
    | latched x s => cases h; rfl
    | stopped w => cases h
  | refused x => cases h

/-- The smallest admitted configuration used here: 200 bits, one round, two Pistons, `Rs` = 4, `Ra` = 8. -/
def smallCfg : Cfg := { b := 200, nr := 1, pi := 2, c := 8, tau := 8, rs := 4, ra := 8, lk := 40 }

/-- A block after reset with a configuration. -/
def block (c : Cfg) : State := State.applyReset { State.reset with cfgPort := c }

/-- The small block. -/
def small : State := block smallCfg

/-- Bytes `f 0 .. f (n − 1)`. -/
def bytes (n : Nat) (f : Nat → Nat) : Bytes := (List.range n).map fun k => BitVec.ofNat 8 (f k)

/-- A stream not yet read. -/
def unreadStream (vs : Bytes) : ByteStream := { buf := vs, pos := 0 }

/-- The small block between `E.INJCOLL` and `E.GETTAGS`. -/
def smallEom : State := { small with phaseE := .endOfMessage }

/-- The small block with a session. -/
def smallRiding : State := { small with phaseM := .riding, result := true }

theorem small_built : small.Built := ⟨by decide, by decide⟩

/-! Encodings: each word written out from 30_encoding R84 -/

theorem test_decode_permutation :
    decodeWord 0b00000000 = some .fTheta ∧ decodeWord 0b00001000 = some .fRhoPi ∧
    decodeWord 0b00010000 = some .fChi ∧ decodeWord 0b00011000 = some .fIota ∧
    decodeWord 0b00100000 = some .fRound ∧ decodeWord 0b00101000 = some .fApply := by decide

theorem test_decode_piston :
    decodeWord 0b01000000 = some (.pCrypt false) ∧ decodeWord 0b01000001 = some (.pCrypt true) ∧
    decodeWord 0b01001001 = some (.pInject true) ∧ decodeWord 0b01010001 = some (.pSpark true) ∧
    decodeWord 0b01011000 = some .pGetTag := by decide

theorem test_decode_engine :
    decodeWord 0b10000001 = some (.eCrypt true) ∧ decodeWord 0b10001000 = some .eInject ∧
    decodeWord 0b10010001 = some (.eSpark true) ∧ decodeWord 0b10011000 = some .eGetTags ∧
    decodeWord 0b10100001 = some (.eInjColl true) := by decide

/-- `t` is bit 2, `u` bit 1, `g` bit 0. -/
theorem test_decode_motorist :
    decodeWord 0b11000100 = some (.mStart true false false) ∧ decodeWord 0b11000010 = some (.mStart false true false) ∧
    decodeWord 0b11000001 = some (.mStart false false true) ∧ decodeWord 0b11001010 = some (.mWrap true false) ∧
    decodeWord 0b11010000 = some .mKnot ∧ decodeWord 0b11011100 = some (.mHandleTag true false) := by decide

/-- Reserved words of 30_encoding R86, one of each kind. -/
theorem test_decode_reserved :
    decodeWord 0x30 = none ∧ decodeWord 0x01 = none ∧ decodeWord 0x60 = none ∧ decodeWord 0x42 = none ∧
    decodeWord 0x59 = none ∧ decodeWord 0xA8 = none ∧ decodeWord 0x89 = none ∧ decodeWord 0xE0 = none ∧
    decodeWord 0xCC = none ∧ decodeWord 0xD1 = none ∧ decodeWord 0xD9 = none := by decide

theorem test_decode_nothing : (match decode [] with | .error .noByte => true | _ => false) = true := by decide

/-- The host's word question: a row's word, and a word with more bits than a word has. -/
theorem test_decodeTableWord : decodeTableWord 8 0xC4 = some (.mStart true false false) ∧
    decodeTableWord 8 0xCC = none ∧ decodeTableWord 16 0xC4 = none := by decide

/-- A placed word runs at the very next step: an accepted command clears nothing but what its rule says. -/
theorem test_withFetchWord :
    (after (step (State.reset.withFetchWord 8 0x28))).trace.head? = some 0x28 ∧
    (after (step (State.reset.withFetchWord 8 0xC8))).cause = .phaseViolation ∧
    (after (step (State.reset.withFetchWord 8 0xCC))).cause = .illegalCommand := by decide +kernel

/-! Well-formedness: a bad operand for each check -/

theorem test_wellFormed_piston : (Instr.pGetTag).wellFormed smallCfg { small.lines with i := 2, dst := .port .tag } = false ∧
    (Instr.pGetTag).wellFormed smallCfg { small.lines with i := 1, dst := .port .tag } = true := by decide

theorem test_wellFormed_offset : (Instr.pCrypt true).wellFormed smallCfg { small.lines with ω := 5 } = false ∧
    (Instr.pCrypt true).wellFormed smallCfg { small.lines with ω := 4 } = true := by decide

theorem test_wellFormed_length : (Instr.pSpark true).wellFormed smallCfg { small.lines with l := 5 } = false ∧
    (Instr.pSpark true).wellFormed smallCfg { small.lines with l := 4 } = true := by decide

theorem test_wellFormed_lengths : (Instr.eSpark true).wellFormed smallCfg { small.lines with lens := [4] } = false ∧
    (Instr.eSpark true).wellFormed smallCfg { small.lines with lens := [4, 5] } = false ∧
    (Instr.eSpark true).wellFormed smallCfg { small.lines with lens := [4, 0] } = true := by decide

theorem test_wellFormed_array : (Instr.fChi).wellFormed smallCfg { small.lines with state := [0] } = false ∧
    (Instr.fChi).wellFormed smallCfg small.lines = true := by decide

theorem test_wellFormed_round : (Instr.fIota).wellFormed smallCfg { small.lines with r := 18 } = false ∧
    (Instr.fIota).wellFormed smallCfg { small.lines with r := 17 } = true := by decide

theorem test_wellFormed_streams :
    (Instr.eCrypt true).wellFormed smallCfg { small.lines with dst := .port .inp } = false ∧
    (Instr.eInject).wellFormed smallCfg { small.lines with src := .xt 0 } = false ∧
    (Instr.eGetTags).wellFormed smallCfg { small.lines with dst := .xt 0 } = false := by decide

/-! Configurations -/

/-- A configuration refused at each admission test, in their order (V45 e and 60_exceptions R221). -/
theorem test_admission :
    ({ smallCfg with b := 100 } : Cfg).refusal = some (.configUnsupported .b) ∧
    ({ smallCfg with nr := 19 } : Cfg).refusal = some (.configUnsupported .nr) ∧
    ({ smallCfg with rs := 9 } : Cfg).refusal = some (.rateOrder 9 8) ∧
    ({ smallCfg with ra := 22 } : Cfg).refusal = some (.absorbRateTooLarge 22 25) ∧
    ({ smallCfg with tau := 12 } : Cfg).refusal = some (.configUnsupported .tau) ∧
    ({ smallCfg with tau := 40 } : Cfg).refusal = some (.configUnsupported .tau) ∧
    ({ smallCfg with c := 33 } : Cfg).refusal = some (.configUnsupported .c) ∧
    ({ smallCfg with pi := 0 } : Cfg).refusal = some (.configUnsupported .pi) ∧
    ({ smallCfg with pi := 256 } : Cfg).refusal = some (.configUnsupported .pi) ∧
    ({ smallCfg with c := 0 } : Cfg).refusal = some (.configUnsupported .c) ∧ smallCfg.refusal = none := by decide

/-- 00_scope R7 and V50: the printed rates of the named sets, and of two other widths by the same formulas. -/
theorem test_named_sets : (NamedSet.cfg .river).rs = 68 ∧ (NamedSet.cfg .river).ra = 96 ∧ (NamedSet.cfg .river).lk = 36 ∧
    (NamedSet.cfg .lunar).rs = 168 ∧ (NamedSet.cfg .lunar).ra = 192 ∧ (NamedSet.cfg .lunar).lk = 40 ∧
    (NamedSet.cfg .river).start = 10 := by decide

/-! The Permutation: V10 to V14 -/

/-- V10. -/
theorem test_rc : (List.range 41).map rcBit = "10000000101100011110100001111111100100001".toList.map (· == '1') ∧
    rcBit 255 = true := by decide +kernel

/-- V11's input. -/
def patterned : Bytes := bytes 25 fun k => 7 * k + 1

/-- A block with V11's input on the lane-array line. -/
def onPattern (nr : Nat) (r : Byte) : State :=
  let s := block { smallCfg with nr := nr }
  { s with lines := { s.lines with state := patterned, r := r } }

/-- V11. -/
theorem test_theta : (after (exec .fTheta (onPattern 1 0))).lines.state =
    [0x01, 0x9A, 0xDA, 0xBF, 0xB8, 0x24, 0xB9, 0xE7, 0x90, 0xE5, 0x47, 0xDC, 0x80] ++
    [0xF5, 0xC6, 0x6A, 0xE3, 0xAD, 0xD6, 0x23, 0x8D, 0x06, 0x4E, 0x0B, 0x0C] := by decide +kernel

/-- V11. -/
theorem test_rhoPi : (after (exec .fRhoPi (onPattern 1 0))).lines.state =
    [0x01, 0xB2, 0xAA, 0xEF, 0x6A, 0x61, 0x04, 0x3A, 0x2E, 0x73, 0x10, 0x8C, 0xB8] ++
    [0x86, 0x36, 0xE8, 0x42, 0x39, 0x3C, 0xA2, 0xC3, 0x9C, 0xB1, 0xD4, 0x52] := by decide +kernel

/-- V11. -/
theorem test_chi : (after (exec .fChi (onPattern 1 0))).lines.state =
    [0x06, 0x18, 0x06, 0x16, 0x15, 0x34, 0x22, 0x72, 0x1D, 0x4B, 0x56, 0x46, 0x76] ++
    [0x58, 0x6B, 0x62, 0x76, 0xF8, 0x17, 0x97, 0x86, 0xB4, 0x92, 0xA6, 0xB9] := by decide +kernel

/-- V11: only byte 0 changes, `01 ^ 82 = 83`. -/
theorem test_iota : (after (exec .fIota (onPattern 1 1))).lines.state = patterned.set 0 0x83 := by decide +kernel

/-- V11. -/
theorem test_round : (after (exec .fRound (onPattern 1 0))).lines.state =
    [0x04, 0x41, 0x05, 0xDA, 0x99, 0xDB, 0x1A, 0xBB, 0x4E, 0xCD, 0x37, 0xF9, 0xFF] ++
    [0x22, 0xFE, 0xF4, 0xC6, 0x7A, 0x12, 0x09, 0x95, 0xDC, 0x6B, 0x72, 0x50] := by decide +kernel

/-- V11: `(200, 18, 0)`. -/
theorem test_apply : (after (exec .fApply (onPattern 18 0))).lines.state =
    [0xB9, 0xFA, 0x18, 0x11, 0xF3, 0x40, 0xF1, 0x9F, 0x85, 0x46, 0xB5, 0x31, 0xC4] ++
    [0x32, 0x80, 0x9F, 0x59, 0x1D, 0x8E, 0xC6, 0x64, 0x34, 0x3A, 0xB8, 0x64] := by decide +kernel

/-- V14-400-20-0, the nominal 400-bit permutation of the zero state: its first 16 bytes. -/
theorem test_apply_400 : ((permute 16 20 0 (List.replicate 50 0)).take 16) = [0xF5, 0x09, 0xAC, 0x40, 0xA9, 0x0F, 0xF5, 0x14, 0x9F, 0xE8, 0xA0, 0xEC, 0xD1, 0x5B, 0x70, 0x78] := by decide +kernel

/-- V13: round 12 of the zero 1600-bit state puts `RC[12]` into lane (0,0). -/
theorem test_round_1600 :
    bytesOf (permRound 12 (lanesOf 64 (List.replicate 200 0))) =
      [0x8B, 0x80, 0x00, 0x80, 0x00, 0x00, 0x00, 0x00] ++ List.replicate 192 0 := by decide +kernel

/-- V12: the first lane row of `F.THETA` on the patterned 1600-bit state. -/
theorem test_theta_1600 :
    (theta (lanesOf 64 (bytes 200 fun k => k * k + 3 * k + 5))).take 5 =
      [0x87270B93BE8F821A, 0x2F7F833B6796CA33, 0xAE5F82DAE7170BD3, 0xAEDFC3BBC737CA72, 0xBE4F528AB7065A83] := by
  decide +kernel

/-! The Piston: V20 to V27 -/

/-- A Lake block whose one Piston starts from the zero state, with operand lines and an input stream. -/
def lake (i : Bytes) (ω l : Byte) : State :=
  { State.reset with inp := unreadStream i, lines := { State.reset.lines with ω := ω, l := l } }

/-- V20. -/
theorem test_inject : (after (exec (.pInject false) (lake (bytes 10 (0x40 + ·)) 0 0))).pistons =
    [(bytes 10 (0x40 + ·)) ++ List.replicate 185 0 ++ [0x0A] ++ List.replicate 4 0] := by decide +kernel

/-- V26: 24 bytes at offsets 168 to 191, 6 left. -/
theorem test_inject_crypting :
    (after (exec (.pInject true) (lake (List.replicate 30 0xAA) 0 0))).pistons =
      [List.replicate 168 0 ++ List.replicate 24 0xAA ++ [0, 0, 0xA8, 0xC0] ++ List.replicate 4 0] ∧
    (after (exec (.pInject true) (lake (List.replicate 30 0xAA) 0 0))).inp.pos = 24 := by decide +kernel

/-- V25: 8 bytes move, the final offset 168 goes to `CryptEnd`. -/
theorem test_crypt_stops :
    (after (exec (.pCrypt false) (lake (List.replicate 200 0) 160 0))).inp.pos = 8 ∧
    (after (exec (.pCrypt false) (lake (List.replicate 200 0) 160 0))).out.buf = List.replicate 8 0 ∧
    (after (exec (.pCrypt false) (lake (List.replicate 200 0) 160 0))).pistons =
      [List.replicate 193 0 ++ [0xA8] ++ List.replicate 6 0] := by decide +kernel

/-- The example of 41_piston R130, unwrapping: the received byte is stored, the plaintext emitted. -/
theorem test_crypt_unwraps :
    let s : State := { lake [0x51, 0x62, 0x73] 0 0 with pistons := [[0x10, 0x20, 0x30] ++ List.replicate 197 0] }
    (after (exec (.pCrypt true) s)).out.buf = [0x41, 0x42, 0x43] ∧
    (after (exec (.pCrypt true) s)).pistons =
      [[0x51, 0x62, 0x73] ++ List.replicate 190 0 ++ [0x03] ++ List.replicate 6 0] := by decide +kernel

/-- V27: a final spark with `l` = 0 XORs the sentinel, from the zero state. -/
theorem test_spark_final : ((after (exec (.pSpark true) (lake [] 0 0))).pistons.getD 0 []).take 16 =
    [0x19, 0xF3, 0xF5, 0x53, 0x07, 0xA4, 0xE1, 0xF1, 0x1C, 0x6B, 0xFA, 0xAE, 0x2F, 0x57, 0x6A, 0xD2] := by
  decide +kernel

/-- V27: a non-final spark is the permutation alone, whatever `l`: V14-1600-12-12. -/
theorem test_spark : ((after (exec (.pSpark false) (lake [] 0 7))).pistons.getD 0 []).take 16 = [0x17, 0x86, 0xA7, 0xB9, 0x38, 0x54, 0x5E, 0x8E, 0x1E, 0xD0, 0x59, 0xF2, 0x50, 0x6A, 0xCD, 0xD9] := by
  decide +kernel

/-- The example of 41_piston R133, and V22: `l` = 169 is too long for `Rs` = 168, `l` = 168 is not. -/
theorem test_getTag :
    let s : State := { lake [] 0 2 with pistons := [[0xDE, 0xAD, 0xBE, 0xEF] ++ List.replicate 196 0] }
    (after (exec .pGetTag s)).out.buf = [0xDE, 0xAD] ∧ (after (exec .pGetTag s)).pistons = s.pistons := by
  decide +kernel

theorem test_getTag_too_long :
    (after (exec .pGetTag (lake [] 0 169))).cause = .tagTooLong ∧ (after (exec .pGetTag (lake [] 0 169))).out.buf = [] ∧
    (after (exec .pGetTag (lake [] 0 168))).cause = .none := by decide +kernel

/-- V51. -/
theorem test_enc8 : enc8 0 = some 0x00 ∧ enc8 255 = some 0xFF ∧ enc8 256 = none := by decide

/-! The Engine: V30 and V36, and hand calculation on the small block -/

/-- V30 on Sea: both Pistons hold `01 .. 28`, then `02 00` and `02 01`, and `2A` in `InjectEnd`. -/
theorem test_injColl :
    let s : State := { block (NamedSet.cfg .sea) with inp := unreadStream (bytes 40 (· + 1)) }
    (after (exec (.eInjColl true) s)).pistons =
      [bytes 40 (· + 1) ++ [0x02, 0x00] ++ List.replicate 153 0 ++ [0x2A] ++ List.replicate 4 0] ++
      [bytes 40 (· + 1) ++ [0x02, 0x01] ++ List.replicate 153 0 ++ [0x2A] ++ List.replicate 4 0] ∧
    (after (exec (.eInjColl true) s)).phaseE = .endOfMessage := by decide +kernel

/-- 60_exceptions R224 item 4: the phase is tested before an input `Xt[k]` stops `E.INJCOLL`. -/
theorem test_injColl_phase_first :
    let s : State := { smallEom with lines := { small.lines with src := .xt 0 } }
    (after (exec (.eInjColl false) s)).cause = .phaseViolation ∧ stops (exec (.eInjColl false) { s with phaseE := .fresh }) = true := by
  decide

/-- 43_motorist R176, R177: outside `endOfMessage` both raise through `E.GETTAGS`, before any Piston is touched. -/
theorem test_knot_phase :
    (after (exec .mKnot small)).cause = .phaseViolation ∧ (after (exec .mKnot small)).pistons = small.pistons ∧
    (after (exec (.mHandleTag false true) small)).cause = .phaseViolation := by decide

/-- 42_engine R156: 9 bytes with `Ra` = 8 make two groups and one spark between them, which zeroes `Et`; 8 make one. -/
theorem test_injColl_groups :
    let s : State := { small with inp := unreadStream (bytes 9 (· + 1)), et := [3, 3] }
    (after (exec (.eInjColl false) s)).et = [0, 0] ∧
    (after (exec (.eInjColl false) { s with inp := unreadStream (bytes 8 (· + 1)) })).et = [3, 3] := by decide +kernel

/-- The example of 42_engine R150 in small: `Et = [1, 0]`, `Rs` = 4: Piston 0 takes 3 bytes, Piston 1 takes 2. -/
theorem test_eCrypt :
    let s : State := { small with inp := unreadStream [1, 2, 3, 4, 5], et := [1, 0] }
    (after (exec (.eCrypt false) s)).pistons =
      [[0, 1, 2, 3] ++ List.replicate 5 0 ++ [4] ++ List.replicate 15 0] ++
      [[4, 5] ++ List.replicate 7 0 ++ [2] ++ List.replicate 15 0] ∧
    (after (exec (.eCrypt false) s)).phaseE = .endOfCrypt ∧
    (after (exec (.eCrypt false) s)).out.buf = [1, 2, 3, 4, 5] := by decide +kernel

/-- Input left over: the phase is `crypted`. -/
theorem test_eCrypt_more :
    (after (exec (.eCrypt false) { small with inp := unreadStream (bytes 9 id) })).phaseE = .crypted := by decide +kernel

/-- 42_engine R151: from `endOfCrypt` every Piston injects at `Rs`; 8 bytes fit two Pistons of room 4, without a spark. -/
theorem test_eInject :
    let s : State := { small with inp := unreadStream (bytes 8 (· + 1)), phaseE := .endOfCrypt }
    (after (exec .eInject s)).pistons =
      [[0, 0, 0, 0, 1, 2, 3, 4, 0, 0, 4, 8] ++ List.replicate 13 0] ++
      [[0, 0, 0, 0, 5, 6, 7, 8, 0, 0, 4, 8] ++ List.replicate 13 0] ∧
    (after (exec .eInject s)).phaseE = .endOfMessage := by decide +kernel

/-- One byte more than the room: a spark, and back to `fresh` with `Et` zero. -/
theorem test_eInject_more :
    let s : State := { small with inp := unreadStream (bytes 9 (· + 1)), phaseE := .endOfCrypt, et := [1, 1] }
    (after (exec .eInject s)).phaseE = .fresh ∧ (after (exec .eInject s)).et = [0, 0] ∧
    (after (exec .eInject s)).inp.pos = 8 := by decide +kernel

/-- 42_engine R152: the lengths are recorded, the phase is not touched. -/
theorem test_eSpark :
    let s : State := { small with lines := { small.lines with lens := [4, 0] }, phaseE := .crypted }
    (after (exec (.eSpark true) s)).et = [4, 0] ∧ (after (exec (.eSpark true) s)).phaseE = .crypted := by decide +kernel

/-- 42_engine R153: 4 bytes of Piston 0, then 1 of Piston 1, of the states after the sparks. -/
theorem test_eGetTags :
    let s : State := { smallEom with lines := { small.lines with lens := [4, 1] } }
    (after (exec .eGetTags s)).out.buf =
      ((after (exec .eGetTags s)).pistons.getD 0 []).take 4 ++ ((after (exec .eGetTags s)).pistons.getD 1 []).take 1 ∧
    (after (exec .eGetTags s)).phaseE = .fresh := by decide +kernel

/-- 90_conflicts C8: a length above `Rs` fails after the sparks. -/
theorem test_eGetTags_too_long :
    let s : State := { smallEom with lines := { small.lines with lens := [4, 5] } }
    raised (exec .eGetTags s) = some (.tagTooLong 5) ∧ (after (exec .eGetTags s)).et = [4, 5] ∧
    (after (exec .eGetTags s)).out.buf.length = 4 := by decide +kernel

/-- V36, with the `info` of 60_exceptions R210. -/
theorem test_phase_faults :
    raised (exec .eGetTags small) = some (.phaseViolationE 0x98 .fresh) ∧
    raised (exec (.eCrypt false) smallEom) = some (.phaseViolationE 0x80 .endOfMessage) ∧
    raised (exec .eInject smallEom) = some (.phaseViolationE 0x88 .endOfMessage) ∧
    raised (exec (.eInjColl true) smallEom) = some (.phaseViolationE 0xA1 .endOfMessage) := by decide

/-- The model's stops on operands that name nothing (log 6, 14, 15, 24). -/
theorem test_stops :
    stops (exec .pGetTag { small with lines := { small.lines with i := 2 } }) = true ∧
    stops (exec (.pCrypt true) { small with lines := { small.lines with dst := .port .inp } }) = true ∧
    stops (exec (.eSpark true) { small with lines := { small.lines with lens := [] } }) = true ∧
    stops (exec .eInject { small with lines := { small.lines with src := .xt 0 } }) = true ∧
    stops (exec .fChi { small with lines := { small.lines with state := [] } }) = true ∧
    stops (exec .fChi (block { smallCfg with b := 100 })) = true ∧
    stops (step { small with issue := some 0x30 }) = true := by decide

/-! The Motorist: V40, V41, V45, V52 -/

/-- The Lake block after reset with P1's session material: key `00 .. 0F`, nonce `A0 .. AF`. -/
def lakeStart (t : Bytes) : State :=
  { State.reset with
    suv := unreadStream ([0x28] ++ bytes 16 id ++ [0x01] ++ List.replicate 22 0 ++ bytes 16 (0xA0 + ·))
    tag := unreadStream t }

/-- P1's first tag. -/
def tagP1 : Bytes :=
  [0xC1, 0xFA, 0x06, 0xA4, 0x7F, 0x6B, 0xEE, 0x34, 0xD7, 0xD8, 0xAC, 0x4D, 0x17, 0x1B, 0x01, 0xD4]

/-- V40, command 1. -/
theorem test_start :
    (after (exec (.mStart true false false) (lakeStart []))).tag.buf = tagP1 ∧
    (after (exec (.mStart true false false) (lakeStart []))).phaseM = .riding := by decide +kernel

/-- A wrong tag on an unwrapping start: `failed`, `RESULT = 0`, no fault (60_exceptions R222). -/
theorem test_start_wrong_tag :
    let s : State := after (exec (.mStart true true false) { small with tag := unreadStream [0, 0] })
    s.phaseM = .failed ∧ s.result = false ∧ s.fault = false ∧ s.done = true := by decide +kernel

/-- A wrap of nothing changes every Piston state and gives a tag (43_motorist R175 a); P1 command 2 of V40 is checked in
`test_wrap_lake`. -/
theorem test_wrap_nothing :
    let s : State := after (exec (.mWrap false false) smallRiding)
    s.pistons.getD 0 [] ≠ smallRiding.pistons.getD 0 [] ∧ s.pistons.getD 1 [] ≠ smallRiding.pistons.getD 1 [] ∧
    s.tag.buf.length = 1 ∧ s.result = true ∧ s.phaseE = .fresh := by decide +kernel

/-- 70_reset R252, with `Rs = Ra` = 1 and the Engine left in `crypted`: the first injection of `A` moves no byte (41_piston
R131 b), sparks (42_engine R151), and the next one takes the byte. -/
theorem test_wrap_rest_ends :
    let b : State := block { smallCfg with pi := 1, rs := 1, ra := 1 }
    let s : State := after (exec (.mWrap false false)
      { b with phaseM := .riding, phaseE := .crypted, ad := unreadStream [7] })
    s.done = true ∧ s.fault = false ∧ s.ad.pos = 1 ∧ s.tag.buf.length = 1 ∧ s.result = true := by decide +kernel

/-- V40, command 2: `I = 41 42 43`, `A = 44 45 46` after command 1. -/
theorem test_wrap_lake :
    let s : State := after (exec (.mStart true false false) (lakeStart []))
    let t : State := after (exec (.mWrap false false)
      { s with inp := unreadStream [0x41, 0x42, 0x43], ad := unreadStream [0x44, 0x45, 0x46] })
    t.out.buf = [0xE0, 0xF3, 0xB2] ∧
    t.tag.buf = [0x40, 0xD5, 0xFB, 0x00, 0xE2, 0x64, 0x2D, 0x5D, 0x33, 0xDA, 0xC5, 0x60, 0xF2, 0x21, 0x7E, 0xB2] := by
  decide +kernel

/-- 43_motorist R176 on the small block: `c′/8` = 1, so both Pistons absorb two bytes in one group, and `Et` stays 1. -/
theorem test_knot :
    (after (exec .mKnot smallEom)).et = [1, 1] ∧ (after (exec .mKnot smallEom)).phaseE = .endOfMessage ∧
    (after (exec .mKnot smallEom)).tPrime = ByteStream.empty := by decide +kernel

/-- 43_motorist R177: no tag wanted leaves `T` alone and `Et` zero; a tag wanted makes `Et = [tau/8, 0]`. -/
theorem test_handleTag :
    let s : State := { smallEom with tag := unreadStream [9], et := [3, 3] }
    (after (exec (.mHandleTag false true) s)).tag = s.tag ∧ (after (exec (.mHandleTag false true) s)).et = [0, 0] ∧
    (after (exec (.mHandleTag true false) s)).et = [1, 0] ∧
    (after (exec (.mHandleTag true false) s)).tag.buf.length = 1 := by decide +kernel

theorem test_handleTag_mismatch :
    let s : State := after (exec (.mHandleTag true true) { smallEom with tag := unreadStream [1, 2] })
    s.phaseM = .failed ∧ s.lines.ret = false ∧ s.tag.buf = [1, 2] := by decide +kernel

/-- V52. -/
theorem test_tagEqual : tagEqual [] [] = true ∧ tagEqual [0xAA] [0xAA, 0xBB] = false ∧
    tagEqual [0xAA, 0xBB] [0xAA, 0xBA] = false ∧ tagEqual [0xAA, 0xBB] [0xAA, 0xBB] = true := by decide

/-- V45: `WRAP` before `START`, an internal word, a reserved word; then a word while `FAULT = 1`. -/
theorem test_fault_programs :
    raised (step { State.reset with host := [.command 0xC8] }) = some (.phaseViolationM 0xC8 .ready) ∧
    raised (step { State.reset with host := [.command 0xD0] }) = some (.illegalCommand 0xD0) ∧
    (after (step { State.reset with host := [.command 0xCC] })).cause = .illegalCommand ∧
    (after (step { State.reset with fault := true, cause := .rateOrder, host := [.command 0xCC] })).cause = .rateOrder := by
  decide

/-- 44_host_interface R193: the example, and a key that does not fit. -/
theorem test_keypack :
    (match keypack (NamedSet.cfg .lake) (bytes 16 id) with | .ok p => p | .error _ => []) =
      [0x28] ++ bytes 16 id ++ [0x01] ++ List.replicate 22 0 ∧
    (match keypack (NamedSet.cfg .lake) (bytes 39 id) with | .ok _ => none | .error r => some r) = some (.keyPackTooLarge 39 40) := by
  decide

/-- 30_encoding R93: `START` and `WRAP` lines end in the word with its flags. -/
theorem test_lines : (startLine true false true [] []).getLast? = some (.command 0xC5) ∧
    (unwrapLine true [] [] []).getLast? = some (.command 0xCB) := by decide

/-! Witnesses: for each statement with hypotheses, a state and operands that meet all of them together. -/

theorem witness_DecodeEncodeAgree : ∃ (i : Instr) (rest : Bytes), decode [0xC4, 0x01] = .ok (i, rest) := ⟨_, _, rfl⟩

/-- The host's word and an issued word. -/
theorem witness_StepRunsDecoded :
    (∃ (s : State) (w : Byte) (i : Instr) (rest : List HostMove), s.fault = false ∧ decode [w] = .ok (i, []) ∧ s.issue = none ∧ s.host = .command w :: rest ∧
      i.hostIssuable = true) ∧
    ∃ (s : State) (w : Byte) (i : Instr), s.fault = false ∧ decode [w] = .ok (i, []) ∧ s.issue = some w :=
  ⟨⟨{ small with host := [.command 0xC4] }, 0xC4, .mStart true false false, [], rfl, rfl, rfl, rfl, rfl⟩,
    { small with issue := some 0x58 }, 0x58, .pGetTag, rfl, rfl, rfl⟩

/-- The words next to the accepted ones, and a word of every kind. -/
theorem witness_IllegalCommandRaises : ∀ w ∈ ([0xBF, 0xCC, 0x00, 0xFF] : List Byte), ∃ (s : State) (rest : List HostMove),
    s.fault = false ∧ s.issue = none ∧ s.host = .command w :: rest ∧ ¬ (0xC0 ≤ w.toNat ∧ w.toNat ≤ 0xCB) :=
  fun w hw => ⟨{ small with host := [.command w] }, [], rfl, rfl, rfl, by revert w; decide⟩

theorem witness_FaultedBlockIgnoresWords :
    (∃ (s : State) (rest : List HostMove), s.fault = true ∧ s.issue = none ∧ s.host = .command 0xC0 :: rest) ∧
    ∃ s : State, s.fault = true ∧ s.issue = some 0xC0 :=
  ⟨⟨{ small with fault := true, host := [.command 0xC0] }, [], rfl, rfl, rfl⟩,
    { small with fault := true, issue := some 0xC0 }, rfl, rfl⟩

theorem witness_OnlyResetLeavesFault : ∃ s t : State, s.fault = true ∧
    (s.issue ≠ none ∨ ∀ rest, s.host ≠ .reset :: rest) ∧ step s = .next t :=
  ⟨{ small with fault := true, host := [.present .inp [1]] }, _, rfl, .inr fun _ h => by simp at h,
    next_after (by decide)⟩

theorem witness_HostMovesActOnTheirPort :
    (∃ (s : State) (c : Cfg) (rest : List HostMove), s.issue = none ∧ s.host = .config c :: rest) ∧
    (∃ (s : State) (p : Port) (vs : Bytes) (rest : List HostMove), s.issue = none ∧ s.host = .present p vs :: rest) ∧
    (∃ (s : State) (p : Port) (vs : Bytes) (rest : List HostMove), s.issue = none ∧ s.host = .append p vs :: rest) ∧ ∃ s : State, s.issue = none ∧ s.host = [] :=
  ⟨⟨{ small with host := [.config smallCfg] }, _, _, rfl, rfl⟩, ⟨{ small with host := [.present .tag []] }, _, _, _, rfl, rfl⟩,
    ⟨{ small with host := [.append .ad [7]] }, _, _, _, rfl, rfl⟩, small, rfl, rfl⟩

/-- One configuration for each branch, at the boundary of its test. -/
theorem witness_AdmissionOrder :
    ¬ (let c : Cfg := { smallCfg with b := 100 }; c.b = 200 ∨ c.b = 400 ∨ c.b = 800 ∨ c.b = 1600) ∧
    (let c : Cfg := { smallCfg with nr := 19 }; ¬ (1 ≤ c.nr ∧ c.nr ≤ nominalRounds c.b)) ∧
    (let c : Cfg := { smallCfg with rs := 9 }; (1 ≤ c.nr ∧ c.nr ≤ nominalRounds c.b) ∧ c.ra < c.rs) ∧
    (let c : Cfg := { smallCfg with ra := 22 }; c.rs ≤ c.ra ∧ c.stateBytes < c.ra + 4) ∧
    (let c : Cfg := { smallCfg with ra := 21, tau := 40 }; c.ra + 4 ≤ c.stateBytes ∧ (c.tau % 8 ≠ 0 ∨ c.rs < c.tau / 8)) ∧
    (let c : Cfg := { smallCfg with tau := 32, c := 33 }; (c.tau % 8 = 0 ∧ c.tau / 8 ≤ c.rs) ∧ c.rs < c.cPrime / 8) ∧
    (let c : Cfg := { smallCfg with c := 32, pi := 256 }; c.cPrime / 8 ≤ c.rs ∧ (c.pi = 0 ∨ 255 < c.pi)) ∧
    (let c : Cfg := { smallCfg with pi := 255 }; (1 ≤ c.pi ∧ c.pi ≤ 255) ∧ c.c ≠ 0) := by decide

theorem witness_ResetClearsEverything : ∃ (s : State) (rest : List HostMove), s.issue = none ∧ s.host = .reset :: rest ∧ s.cfgPort.admitted = true :=
  ⟨{ smallEom with host := [.reset] }, [], rfl, rfl, by decide⟩

theorem witness_ResetRefusesConfiguration : ∃ (s : State) (rest : List HostMove) (r : Raise), s.issue = none ∧ s.host = .reset :: rest ∧
    s.cfgPort.refusal = some r :=
  ⟨{ small with cfgPort := { smallCfg with rs := 9 }, host := [.reset] }, [], .rateOrder 9 8, rfl, rfl, by decide⟩

theorem witness_ResetErasesTheSession : ∃ s v t u : State, s.issue = none ∧ v.issue = none ∧
    (∃ rest, s.host = .reset :: rest) ∧ v.host = s.host ∧ v.cfgPort = s.cfgPort ∧ v.faultCount = s.faultCount ∧
    Leaves (step s) t ∧ Leaves (step v) u ∧ s.pistons ≠ v.pistons :=
  ⟨{ small with host := [.reset] }, { small with host := [.reset], pistons := [[1]] }, _, _, rfl, rfl, ⟨[], rfl⟩, rfl, rfl, rfl,
    .inl (next_after (by decide)), .inl (next_after (by decide)), by decide⟩

theorem witness_ConfigurationIsStatic : ∃ s t : State, (s.issue ≠ none ∨ ∀ rest, s.host ≠ .reset :: rest) ∧
    Leaves (step s) t :=
  ⟨{ small with host := [.config (NamedSet.cfg .sea)] }, _, .inr fun _ h => by simp at h, .inl (next_after (by decide))⟩

theorem witness_DerivedQuantities : smallCfg.b = 200 ∧ smallCfg.nr ≤ nominalRounds smallCfg.b ∧
    8 ∣ smallCfg.w ∧ smallCfg.c ≤ smallCfg.w := by decide

theorem witness_StreamPrimitives : (unreadStream [1, 2]).hasMore = true ∧
    (unreadStream [1, 2]).pos ≤ (unreadStream [1, 2]).buf.length := by decide

theorem witness_StatusPortCodes : small.fault = false := by decide

theorem witness_LaneViewOfAState : (∃ S : Bytes, S.length = 25 * (64 / 8)) ∧ ∃ A : Lanes 64, A.length = 25 :=
  ⟨⟨List.replicate 200 7, List.length_replicate⟩, List.replicate 25 7, List.length_replicate⟩

/-- The operands of every Permutation operation. -/
theorem witness_Permutation : ∃ s : State, ∃ A : Lanes s.cfg.w, s.cfg.hasLayout = true ∧ s.cfg.admitted = true ∧
    s.lines.state.length = s.cfg.stateBytes ∧ A = lanesOf s.cfg.w s.lines.state :=
  ⟨onPattern 18 0, _, by decide, by decide, by decide, rfl⟩

theorem witness_ThetaCompletes : ∃ s : State, ∃ A : Lanes s.cfg.w, ∃ C : Nat → BitVec s.cfg.w, s.cfg.hasLayout = true ∧
    s.lines.state.length = s.cfg.stateBytes ∧ A = lanesOf s.cfg.w s.lines.state ∧
    ∀ x, C x = lane A x 0 ^^^ lane A x 1 ^^^ lane A x 2 ^^^ lane A x 3 ^^^ lane A x 4 :=
  ⟨onPattern 1 0, _, _, by decide, by decide, rfl, fun _ => rfl⟩

theorem witness_ApplyTestsTheLength : ∃ s : State, s.lines.state.length ≠ (s.cfg.b + 7) / 8 :=
  ⟨{ small with lines := { small.lines with state := List.replicate 24 0 } }, by decide⟩

/-- The small block with data on `I`, Piston 1 and an offset on the lines. -/
def withData (i : Bytes) (k ω l : Byte) : State :=
  { small with inp := unreadStream i, lines := { small.lines with i := k, ω := ω, l := l } }

/-- Nothing to move (`ω` = `Rs`), the last offset, and more data than room. -/
theorem witness_CryptCompletes : ∀ p ∈ ([([1, 2], 4, 0), ([1, 2], 3, 1), ([1, 2, 3, 4, 5], 0, 4)] :
      List (Bytes × Byte × Nat)), ∃ (S : Bytes) (x o : ByteStream), (withData p.1 1 p.2.1 0).Built ∧
    (withData p.1 1 p.2.1 0).pistons[(withData p.1 1 p.2.1 0).lineI]? = some S ∧
    (withData p.1 1 p.2.1 0).lines.src ≠ (withData p.1 1 p.2.1 0).lines.dst ∧
    (withData p.1 1 p.2.1 0).stream? (withData p.1 1 p.2.1 0).lines.src = some x ∧
    (withData p.1 1 p.2.1 0).stream? (withData p.1 1 p.2.1 0).lines.dst = some o ∧
    p.2.2 = min x.unread.length ((withData p.1 1 p.2.1 0).cfg.rs - (withData p.1 1 p.2.1 0).lineOffset) :=
  fun p hp => ⟨List.replicate 25 0, unreadStream p.1, ByteStream.empty, ⟨small_built.1, small_built.2⟩, rfl,
    (fun h => StreamName.noConfusion h fun h' => Port.noConfusion h'), rfl, rfl, by revert p; decide⟩

/-- Not crypting with more than `Ra` bytes, crypting with as many as `Ra − Rs`, and none. -/
theorem witness_InjectCompletes : ∀ p ∈ ([(false, bytes 9 id, 8), (true, bytes 4 id, 4), (true, [], 0)] :
      List (Bool × Bytes × Nat)), ∃ (S : Bytes) (x : ByteStream) (ω : Nat), (withData p.2.1 1 0 0).Built ∧
    (withData p.2.1 1 0 0).pistons[(withData p.2.1 1 0 0).lineI]? = some S ∧
    (withData p.2.1 1 0 0).stream? (withData p.2.1 1 0 0).lines.src = some x ∧
    ω = (if p.1 then (withData p.2.1 1 0 0).cfg.rs else 0) ∧
    p.2.2 = min x.unread.length ((withData p.2.1 1 0 0).cfg.ra - ω) :=
  fun p hp => ⟨List.replicate 25 0, unreadStream p.2.1, _, ⟨small_built.1, small_built.2⟩, rfl, rfl, rfl, by
    revert p; decide⟩

theorem witness_SparkCompletes : ∃ S : Bytes, small.Built ∧ small.pistons[small.lineI]? = some S :=
  ⟨List.replicate 25 0, small_built, rfl⟩

/-- `l` = `Rs` and `l` = `Rs + 1`. -/
theorem witness_GetTagCompletes :
    (∃ (S : Bytes) (t : ByteStream), (withData [] 1 0 4).Built ∧ (withData [] 1 0 4).pistons[(withData [] 1 0 4).lineI]? = some S ∧
      (withData [] 1 0 4).stream? (withData [] 1 0 4).lines.dst = some t ∧
      (withData [] 1 0 4).lineL ≤ (withData [] 1 0 4).cfg.rs) ∧
    ∃ (S : Bytes) (t : ByteStream), (withData [] 1 0 5).Built ∧ (withData [] 1 0 5).pistons[(withData [] 1 0 5).lineI]? = some S ∧
      (withData [] 1 0 5).stream? (withData [] 1 0 5).lines.dst = some t ∧
      (withData [] 1 0 5).cfg.rs < (withData [] 1 0 5).lineL :=
  ⟨⟨List.replicate 25 0, ByteStream.empty, ⟨small_built.1, small_built.2⟩, rfl, rfl, by decide⟩,
    List.replicate 25 0, ByteStream.empty, ⟨small_built.1, small_built.2⟩, rfl, rfl, by decide⟩

/-- Three bytes wrapped on one side; the other side is given the three bytes that came out. -/
theorem witness_CryptDirectionsAgree : ∃ (s v t : State) (x o y p : ByteStream), s.Built ∧ s.lineI < s.cfg.pi ∧
    s.lines.src ≠ s.lines.dst ∧ v.cfg = s.cfg ∧ v.pistons = s.pistons ∧ v.lines = s.lines ∧
    s.stream? s.lines.src = some x ∧ s.stream? s.lines.dst = some o ∧ v.stream? s.lines.src = some y ∧
    v.stream? s.lines.dst = some p ∧ exec (.pCrypt false) s = .next t ∧
    ∃ q more, t.stream? s.lines.dst = some { buf := o.buf ++ q, pos := o.pos } ∧ y.unread = q ++ more ∧
      (q.length < s.cfg.rs - s.lineOffset → more = []) :=
  ⟨withData [1, 2, 3] 1 0 0, withData [1, 2, 3] 1 0 0, _, _, _, _, _, ⟨small_built.1, small_built.2⟩, by decide,
    by decide, rfl, rfl, rfl, rfl, rfl, rfl, rfl, next_after (by decide), [1, 2, 3], [], by decide, by decide,
    fun _ => rfl⟩

/-- A spark that completes, and a tag that is too long. -/
theorem witness_PistonsAreIsolated :
    (∃ (op : Instr) (s t : State) (j : Nat),
      (∃ b, op = .pCrypt b ∨ op = .pInject b ∨ op = .pSpark b ∨ op = .pGetTag) ∧ j ≠ s.lineI ∧ exec op s = .next t) ∧
    ∃ (op : Instr) (s t : State) (j : Nat) (r : Raise),
      (∃ b, op = .pCrypt b ∨ op = .pInject b ∨ op = .pSpark b ∨ op = .pGetTag) ∧ j ≠ s.lineI ∧
      exec op s = .fault (.latched r t) :=
  ⟨⟨.pSpark true, withData [1, 2, 3] 1 0 0, _, 0, ⟨true, .inr (.inr (.inl rfl))⟩, by decide, next_after (by decide)⟩,
    .pGetTag, withData [] 1 0 5, _, 0, .tagTooLong 5, ⟨true, .inr (.inr (.inr rfl))⟩, by decide,
    latched_after (by decide)⟩

/-- A Piston that differs above `Rs` only. -/
theorem witness_CapacityNeverLeaves : ∃ (op : Instr) (s t : State) (S T : Bytes),
    (op = .pGetTag ∨ ∃ u, op = .pCrypt u) ∧ s.Built ∧ s.pistons[s.lineI]? = some S ∧ T.length = S.length ∧
    (∀ k, k < s.cfg.rs → byteAt T k = byteAt S k) ∧ T ≠ S ∧ exec op s = .next t :=
  ⟨.pCrypt true, withData [1, 2, 3] 1 0 0, _, List.replicate 25 0, List.replicate 4 0 ++ List.replicate 21 9,
    .inr ⟨true, rfl⟩, ⟨small_built.1, small_built.2⟩, rfl, by decide, by decide, by decide, next_after (by decide)⟩

theorem witness_CapacityNeverLeaves_fault : ∃ (s t : State) (S T : Bytes) (r : Raise), s.Built ∧
    s.pistons[s.lineI]? = some S ∧ T.length = S.length ∧ (∀ k, k < s.cfg.rs → byteAt T k = byteAt S k) ∧ T ≠ S ∧
    exec .pGetTag s = .fault (.latched r t) :=
  ⟨withData [] 1 0 5, _, List.replicate 25 0, List.replicate 4 0 ++ List.replicate 21 9, .tagTooLong 5,
    ⟨small_built.1, small_built.2⟩, rfl, by decide, by decide, by decide, latched_after (by decide)⟩

theorem witness_EngineCryptCompletes : ∃ (x o : ByteStream), (withData [1] 0 0 0).Built ∧ (withData [1] 0 0 0).phaseE = .fresh ∧
    (withData [1] 0 0 0).lines.src ≠ (withData [1] 0 0 0).lines.dst ∧
    (withData [1] 0 0 0).stream? (withData [1] 0 0 0).lines.src = some x ∧
    (withData [1] 0 0 0).stream? (withData [1] 0 0 0).lines.dst = some o :=
  ⟨_, _, ⟨small_built.1, small_built.2⟩, rfl, by decide, rfl, rfl⟩

/-- From `fresh` with exactly the room, from `endOfCrypt` with one byte more, from `crypted` with nothing. -/
theorem witness_EngineInjectCompletes :
    ∀ p ∈ ([(.fresh, bytes 16 id, false), (.endOfCrypt, bytes 9 id, true), (.crypted, [], true)] :
      List (PhaseE × Bytes × Bool)),
    let s : State := { withData p.2.1 0 0 0 with phaseE := p.1 }
    ∃ (x : ByteStream) (room : Nat) (injected : List Bytes), s.Built ∧ s.phaseE ≠ .endOfMessage ∧ s.stream? s.lines.src = some x ∧
      (p.2.2 = true ↔ s.phaseE = .crypted ∨ s.phaseE = .endOfCrypt) ∧
      room = s.cfg.pi * (if p.2.2 then s.cfg.ra - s.cfg.rs else s.cfg.ra) ∧
      injected = injectAll s.cfg p.2.2 x.unread s.pistons :=
  fun p hp => ⟨unreadStream p.2.1, _, _, ⟨small_built.1, small_built.2⟩, by revert p; decide, rfl, by revert p; decide,
    rfl, rfl⟩

theorem witness_EngineSparkCompletes : small.Built ∧ small.lines.lens.length = small.cfg.pi := ⟨small_built, by decide⟩

/-- Lengths at the bound `Rs`, and one above it at Piston 1. -/
theorem witness_EngineGetTags :
    (let s : State := { smallEom with lines := { small.lines with lens := [4, 0] } }
    ∃ t : ByteStream, s.Built ∧ s.phaseE = .endOfMessage ∧ s.lines.lens.length = s.cfg.pi ∧
      (∀ l ∈ s.lines.lens, l.toNat ≤ s.cfg.rs) ∧ s.stream? s.lines.dst = some t) ∧
    (let s : State := { smallEom with lines := { small.lines with lens := [4, 5] } }
    ∃ (t : ByteStream) (k : Nat), s.Built ∧ s.phaseE = .endOfMessage ∧ s.lines.lens.length = s.cfg.pi ∧ k < s.cfg.pi ∧
      s.cfg.rs < s.lineLens.getD k 0 ∧ (∀ i, i < k → s.lineLens.getD i 0 ≤ s.cfg.rs) ∧
      s.stream? s.lines.dst = some t) :=
  ⟨⟨_, ⟨small_built.1, small_built.2⟩, rfl, by decide, by decide, rfl⟩, _, 1, ⟨small_built.1, small_built.2⟩, rfl, by decide,
    by decide, by decide, by decide, rfl⟩

theorem witness_EngineInjectCollective : ∃ x : ByteStream, (withData (bytes 9 id) 0 0 0).Built ∧
    (withData (bytes 9 id) 0 0 0).phaseE = .fresh ∧ (withData (bytes 9 id) 0 0 0).lines.src.standing = true ∧
    (withData (bytes 9 id) 0 0 0).stream? (withData (bytes 9 id) 0 0 0).lines.src = some x :=
  ⟨_, ⟨small_built.1, small_built.2⟩, rfl, rfl, rfl⟩

/-- Seven bytes: the two diversifier bytes fall into two groups. -/
theorem witness_DiversifierSeparatesPistons : ∀ d : Bool, ∃ (s t : State) (S : Bytes) (i j : Nat), s.Built ∧
    s.lines.src.standing = true ∧ s.pistons[i]? = some S ∧ s.pistons[j]? = some S ∧ i ≠ j ∧ s.phaseE = .fresh ∧
    exec (.eInjColl d) s = .next t :=
  fun d => ⟨withData (bytes 7 id) 0 0 0, _, List.replicate 25 0, 0, 1, ⟨small_built.1, small_built.2⟩, rfl, rfl, rfl,
    by decide, rfl, next_after (by cases d <;> decide +kernel)⟩

theorem witness_EnginePhaseViolation :
    smallEom.phaseE ≠ .fresh ∧ smallEom.phaseE = .endOfMessage ∧
    small.phaseE ≠ .endOfMessage := by decide

theorem witness_MotoristPhaseViolation :
    smallRiding.phaseM ≠ .ready ∧ small.phaseM ≠ .riding ∧
    ({ small with phaseM := .failed } : State).phaseM ≠ .ready ∧
    ({ small with phaseM := .failed } : State).phaseM ≠ .riding := by decide

theorem witness_KnotCompletes : smallEom.Built ∧ smallEom.phaseE = .endOfMessage :=
  ⟨⟨small_built.1, small_built.2⟩, rfl⟩

/-- A mismatch, and a tag not wanted. -/
theorem witness_HandleTagCompletes :
    ∀ p ∈ ([(true, true, false), (false, true, true), (true, false, true)] : List (Bool × Bool × Bool)),
    let s : State := smallEom
    ∃ sparked : List Bytes, s.Built ∧ s.phaseE = .endOfMessage ∧ sparked = sparkAll s.cfg true (tagRequest s.cfg p.1) s.pistons ∧
      (p.2.2 = false ↔ p.1 = true ∧ p.2.1 = true ∧ squeezedTag s.cfg sparked ≠ s.tag.buf) :=
  fun p hp => ⟨_, ⟨small_built.1, small_built.2⟩, rfl, rfl, by revert p; decide +kernel⟩

/-- A mismatch with the ratchet, and a plain start. -/
theorem witness_StartCompletes :
    ∀ p ∈ ([(true, true, true, false), (false, false, false, true)] : List (Bool × Bool × Bool × Bool)),
    let s : State := { small with suv := unreadStream [1, 2, 3] }
    ∃ absorbed knotted sparked : List Bytes, s.Built ∧ s.phaseM = .ready ∧ s.phaseE = .fresh ∧
      absorbed = (s.pistons.mapIdx fun i S => duplexAbsorb s.cfg S (collectiveInput s.cfg true i s.suv.unread)) ∧
      knotted = (if p.2.2.1 then knotAll s.cfg absorbed else absorbed) ∧
      sparked = sparkAll s.cfg true (tagRequest s.cfg p.1) knotted ∧
      (p.2.2.2 = false ↔ p.1 = true ∧ p.2.1 = true ∧ squeezedTag s.cfg sparked ≠ s.tag.buf) :=
  fun p hp => ⟨_, _, _, ⟨small_built.1, small_built.2⟩, rfl, rfl, rfl, rfl, rfl, by revert p; decide +kernel⟩

theorem witness_WrapCompletes : smallRiding.Built ∧ smallRiding.phaseM = .riding ∧ smallRiding.phaseE = .fresh ∧
    smallRiding.streamsOk = true := ⟨⟨small_built.1, small_built.2⟩, rfl, rfl, by decide⟩

/-- Both outcomes of an unwrap occur. -/
theorem witness_WrapCompletes_outcomes :
    (after (exec (.mWrap true false) { smallRiding with tag := unreadStream [0, 0] })).result = false ∧
    (after (exec (.mWrap true false) { smallRiding with
      tag := (after (exec (.mWrap false false) smallRiding)).tag })).result = true := by decide +kernel

theorem witness_StartSidesAgree : ∃ s v t : State, s.Built ∧ s.phaseM = .ready ∧ s.phaseE = .fresh ∧ v.cfg = s.cfg ∧
    v.pistons = s.pistons ∧ v.et = s.et ∧ v.phaseE = s.phaseE ∧ v.phaseM = s.phaseM ∧ v.suv.unread = s.suv.unread ∧
    exec (.mStart true false true) s = .next t ∧ v.tag.buf = t.tag.buf :=
  ⟨small, { small with tag := (after (exec (.mStart true false true) small)).tag }, _, small_built, rfl, rfl, rfl, rfl, rfl,
    rfl, rfl, rfl, next_after (by decide +kernel), rfl⟩

theorem witness_UnwrapUndoesWrap : ∃ s v t : State, s.Built ∧ s.phaseM = .riding ∧ s.phaseE = .fresh ∧ v.cfg = s.cfg ∧
    v.pistons = s.pistons ∧ v.et = s.et ∧ v.phaseE = s.phaseE ∧ v.phaseM = s.phaseM ∧ s.out = ByteStream.empty ∧
    v.out = ByteStream.empty ∧ v.ad.unread = s.ad.unread ∧ exec (.mWrap false false) s = .next t ∧
    v.inp.unread = t.out.buf ∧ v.tag.buf = t.tag.buf :=
  ⟨{ smallRiding with inp := unreadStream [1, 2, 3] },
    { smallRiding with
      inp := unreadStream (after (exec (.mWrap false false) { smallRiding with inp := unreadStream [1, 2, 3] })).out.buf
      tag := (after (exec (.mWrap false false) { smallRiding with inp := unreadStream [1, 2, 3] })).tag },
    _, ⟨small_built.1, small_built.2⟩, rfl, rfl, rfl, rfl, rfl, rfl, rfl, rfl, rfl, rfl, next_after (by decide +kernel), rfl, rfl⟩

theorem witness_MotoristPhaseMachine : ∃ (op : Instr) (s t : State), Leaves (exec op s) t ∧ t.phaseM ≠ s.phaseM :=
  ⟨.mStart false false false, small, _, .inl (next_after (by decide +kernel)), by decide +kernel⟩

theorem witness_Shape : ∃ s t : State, s.Shape ∧ s.HostDriven ∧ s.fault = false ∧ s.host = [.command 0xC8] ∧
    step s = .fault (.latched (.phaseViolationM 0xC8 .ready) t) ∧ Leaves (step s) t :=
  ⟨{ small with host := [.command 0xC8] }, _,
    ⟨by decide, by decide, by decide, by decide, by decide, fun _ => by decide⟩,
    ⟨rfl, rfl, rfl, fun _ => rfl, fun _ => by decide, (fun h => by cases h), fun h => by cases h⟩, rfl, rfl,
    latched_after (by decide), .inr ⟨.phaseViolationM 0xC8 .ready, latched_after (by decide)⟩⟩

/-- A refused word, then a reset that leaves the faulted condition. -/
def faultThenReset : State := { small with host := [.command 0xC8, .reset] }

theorem witness_FaultsAreTerminal :
    (∃ (s t : State) (r : Raise), step s = .fault (.latched r t)) ∧
    (∃ s t : State, s.fault = false ∧ Host.Core.run Sys2Proof.core 1 s = .next t) ∧
    ∃ s m t : State, s.fault = false ∧ Host.Core.run blockCore 1 s = .next m ∧ m.fault = true ∧
      Host.Core.run blockCore 1 m = .next t ∧ t.fault = false ∧ t.host = [] :=
  ⟨⟨faultThenReset, _, .phaseViolationM 0xC8 .ready, latched_after (by decide)⟩, ⟨small, _, rfl, next_after (by decide)⟩,
    faultThenReset, after (blockStep faultThenReset), after (blockStep (after (blockStep faultThenReset))), rfl,
    next_after (by decide), by decide, next_after (by decide), by decide, by decide⟩

/-- 60_exceptions R226: a run ends at the fault. Past it the block of `faultThenReset` has nothing left to do and no latch, and
the run is not final; that of a lone reset is. A reset that is refused is a fault too. -/
theorem test_faulted_run_not_final :
    goesOn (Host.Core.run Sys2Proof.core 2 faultThenReset) = false ∧
    (after (blockStep (after (blockStep faultThenReset)))).final = false ∧
    (after (step { small with host := [.reset] })).final = true ∧
    raised (step { small with cfgPort := { smallCfg with rs := 9 }, host := [.reset] }) = some (.rateOrder 9 8) := by decide

/-- The longest key that fits, one byte longer, and a length above one byte. -/
theorem witness_KeyPackFormat :
    ((bytes 38 id).length + 2 ≤ smallCfg.lk ∧ smallCfg.lk ≤ 255) ∧ smallCfg.lk < (bytes 39 id).length + 2 ∧
    (let c : Cfg := { smallCfg with lk := 256 }; (bytes 38 id).length + 2 ≤ c.lk ∧ 255 < c.lk) := by decide

end Sys2Proof.Tests
end

section
/-! The parameters of a configuration (00_scope R6, R8), the rotation of lanes (00_scope R9) and the static configuration
(00_scope R5): lemmas about the derived quantities and about what a step leaves behind, and the statements they settle. -/

namespace Sys2Proof.Machine

/-! Derived quantities (00_scope R6) -/

/-- `roundUp(v, m)` is a multiple of `m` that is ≥ `v`, and the least one. -/
theorem roundUp_least {m : Nat} (hm : 0 < m) (v : Nat) :
    m ∣ roundUp v m ∧ v ≤ roundUp v m ∧ ∀ k, m ∣ k → v ≤ k → roundUp v m ≤ k := by
  unfold roundUp
  refine ⟨Nat.dvd_mul_left .., ?_, ?_⟩
  · have := Nat.lt_div_mul_add (a := v + m - 1) hm
    omega
  · rintro k ⟨q, rfl⟩ hk
    have hq : (v + m - 1) / m < q + 1 := by
      rw [Nat.div_lt_iff_lt_mul hm, Nat.succ_mul, Nat.mul_comm q]
      omega
    calc (v + m - 1) / m * m ≤ q * m := Nat.mul_le_mul_right m (Nat.le_of_lt_succ hq)
      _ = m * q := Nat.mul_comm q m

/-- The widths of 00_scope R6 with the quantities printed for each: `b`, `W`, `stateBytes`, `N(b)`. -/
def widthTable : List (Nat × Nat × Nat × Nat) :=
  [(25, 1, 4, 12), (50, 2, 7, 14), (100, 4, 13, 16), (200, 8, 25, 18), (400, 16, 50, 20), (800, 32, 100, 22),
    (1600, 64, 200, 24)]

/-- A configuration of one of the seven widths has the quantities of its row, and a lane has a bit. -/
theorem widthTable_quantities {c : Cfg} {row : Nat × Nat × Nat × Nat} (hrow : row ∈ widthTable) (hb : c.b = row.1) :
    25 * c.w = c.b ∧ c.w = row.2.1 ∧ (c.b ≤ 8 * c.stateBytes ∧ 8 * c.stateBytes < c.b + 8) ∧
    c.stateBytes = row.2.2.1 ∧ nominalRounds c.b = row.2.2.2 ∧ nominalRounds c.b = 12 + 2 * Nat.log2 c.w ∧
    (200 ≤ c.b → 8 * c.wb = c.w) ∧ (c.b < 200 → ¬ 8 ∣ c.w) ∧ 0 < c.w := by
  unfold Cfg.wb Cfg.stateBytes Cfg.w
  rw [hb]
  clear hb
  revert row
  decide

/-- Settles O59: the seven rows one by one, and `c′` for every width at once. -/
theorem derivedQuantities : Obligations.DerivedQuantities := by
  unfold Obligations.DerivedQuantities
  refine fun c => ⟨fun row hrow hb => ?_, rfl, rfl, rfl, rfl⟩
  obtain ⟨hlanes, hw, hceil, hbytes, hrounds, hformula, hwb, hnowb, hpos⟩ := widthTable_quantities hrow hb
  exact ⟨hlanes, hw, hceil, hbytes, hrounds, hformula, hwb, hnowb, Nat.sub_add_cancel, roundUp_least hpos c.c⟩

/-! Admission (00_scope R8) -/

/-- For a width with a layout the state is a whole number of bytes and the nominal rounds follow the formula of R6. -/
theorem layout_quantities {c : Cfg} (h : c.hasLayout = true) :
    nominalRounds c.b = 12 + 2 * Nat.log2 (c.b / 25) ∧ c.stateBytes = c.b / 8 := by
  rcases (Cfg.hasLayout_iff c).mp h with hb | hb | hb | hb <;> rw [Cfg.stateBytes, hb] <;> decide

/-- The ratchet tag length with the rounding of `c` written out. -/
theorem knotBytes_eq {c : Cfg} (hw : 0 < c.w) :
    c.knotBytes = (c.c + (c.b / 25 - 1)) / (c.b / 25) * (c.b / 25) / 8 := by
  rw [Cfg.knotBytes, Cfg.cPrime, roundUp, Nat.add_sub_assoc hw, Cfg.w]

/-- Settles O9: the model's admission tests, with its derived quantities written out for the widths that pass the first. -/
theorem admissionConditions : Obligations.AdmissionConditions := by
  unfold Obligations.AdmissionConditions
  intro c
  rw [Cfg.admitted_iff, Cfg.hasLayout_iff]
  refine and_congr_right fun hb => ?_
  have hl : c.hasLayout = true := (Cfg.hasLayout_iff c).mpr hb
  obtain ⟨hrounds, hbytes⟩ := layout_quantities hl
  obtain ⟨_, hw, _, _⟩ := Cfg.layout_facts hl
  rw [hrounds, hbytes, knotBytes_eq hw, Cfg.tagBytes]
  exact Iff.rfl

/-! Rotation (00_scope R9, 40_permutation R111) -/

/-- The rotation of the model is the library's, by 0 too. -/
theorem rotl_eq_rotateLeft {w : Nat} (v : BitVec w) (n : Nat) : rotl v n = v.rotateLeft n := by
  rw [BitVec.rotateLeft_def, rotl]
  split
  · rename_i h
    rw [h, Nat.sub_zero, BitVec.shiftLeft_zero, BitVec.ushiftRight_eq_zero (Nat.le_refl w), BitVec.or_zero]
  · rfl

/-- Settles O19: the bits below `n mod W` come around from the top, the others move up by `n mod W`. -/
theorem rotationIsLeftRotation : Obligations.RotationIsLeftRotation := by
  unfold Obligations.RotationIsLeftRotation
  intro w v n i hi
  have hr : n % w < w := Nat.mod_lt n (by omega)
  rw [rotl_eq_rotateLeft, BitVec.getLsbD_rotateLeft]
  generalize n % w = r at hr
  by_cases h : i < r
  · have hsrc : (i + (w - r)) % w = w - r + i := by rw [Nat.mod_eq_of_lt (by omega), Nat.add_comm]
    simp [h, hsrc]
  · have hsrc : (i + (w - r)) % w = i - r := by
      rw [show i + (w - r) = i - r + w by omega, Nat.add_mod_right, Nat.mod_eq_of_lt (by omega)]
    simp [h, hi, hsrc]

/-! Where an outcome leaves the block -/

@[simp] theorem leaves_next (s t : State) : Leaves (.next s) t ↔ t = s := by simp [Leaves, eq_comm]

@[simp] theorem leaves_latched (r : Raise) (s t : State) : Leaves (.fault (.latched r s)) t ↔ t = s := by
  simp [Leaves, eq_comm]

@[simp] theorem leaves_stopped (f : Stop) (t : State) : ¬ Leaves (.fault (.stopped f)) t := by simp [Leaves]

@[simp] theorem leaves_refused (r : Refusal) (t : State) : ¬ Leaves (.refused r) t := by simp [Leaves]

@[simp] theorem leaves_latch (r : Raise) (s t : State) : Leaves (latch r s) t ↔ t = s.enterFault r :=
  leaves_latched ..

/-! The configuration in force (00_scope R5, 10_state R29) -/

/-- Wherever the outcome leaves the block, `c` is the configuration in force. -/
def LeavesCfg (c : Cfg) (o : Host.Outcome State Fault Refusal) : Prop := ∀ t, Leaves o t → t.cfg = c

/-- An operation that keeps the state it starts from, its value `a` made into the state `f a`, leaves the configuration. -/
theorem settle_map_leavesCfg {α : Type} {π f : α → State} {s : State} {r : Result α} (k : Keeps π s r)
    (hf : ∀ a, (f a).cfg = (π a).cfg) : LeavesCfg s.cfg (settle (r >>= fun a => .ok (f a))) := by
  intro t ht
  cases r with
  | ok a =>
    obtain rfl := (leaves_next _ t).mp ht
    exact (hf a).trans (Kept.cfg k)
  | error e =>
    cases e with
    | raised x u =>
      obtain rfl := (leaves_latch x u t).mp ht
      exact (State.enterFault_cfg u x).trans (Kept.cfg k)
    | stuck f => exact absurd ht (leaves_stopped f t)

theorem settle_leavesCfg {s : State} {r : Result State} (k : KeepsState s r) : LeavesCfg s.cfg (settle r) := by
  have := settle_map_leavesCfg (f := id) k fun _ => rfl
  cases r <;> exact this

theorem withArray_leavesCfg {s : State} {f : Bytes → State → Result (Bytes × State)}
    (k : ∀ A s, Keeps (fun r => r.2) s (f A s)) : LeavesCfg s.cfg (settle (withArray f s)) := by
  have := settle_map_leavesCfg (f := fun r => r.2.setArray r.1) (k s.lines.state s) fun _ => rfl
  unfold withArray
  cases h : f s.lines.state s <;> rw [h] at this <;> exact this

/-- No operation changes the configuration in force. -/
theorem exec_leavesCfg (op : Instr) (s : State) : LeavesCfg s.cfg (exec op s) := by
  cases op with
  | fTheta => exact withArray_leavesCfg fun _ s => onLanes_keeps _ _ _ _ (kept_emit s _)
  | fRhoPi => exact withArray_leavesCfg fun _ s => onLanes_keeps _ _ _ _ (kept_emit s _)
  | fChi => exact withArray_leavesCfg fun _ s => onLanes_keeps _ _ _ _ (kept_emit s _)
  | fIota => exact withArray_leavesCfg fun _ s => onLanes_keeps _ _ _ _ (kept_emit s _)
  | fRound => exact withArray_leavesCfg fun _ s => onLanes_keeps _ _ _ _ ((kept_emit s _).trans (kept_emitAll _ _))
  | fApply => exact withArray_leavesCfg fApply_keeps
  | pCrypt u => exact settle_leavesCfg (pCrypt_keeps ..)
  | pInject c => exact settle_leavesCfg (pInject_keeps ..)
  | pSpark e => exact settle_leavesCfg (pSpark_keeps ..)
  | pGetTag => exact settle_leavesCfg (pGetTag_keeps ..)
  | eCrypt u => exact settle_leavesCfg (eCrypt_keeps ..)
  | eInject => exact settle_leavesCfg (eInject_keeps ..)
  | eSpark e => exact settle_leavesCfg (eSpark_keeps ..)
  | eGetTags => exact settle_leavesCfg (eGetTags_keeps ..)
  | eInjColl d => exact settle_leavesCfg (eInjCollFrom_keeps ..)
  | mStart w u g => exact settle_leavesCfg (mStart_keeps ..)
  | mWrap u g => exact settle_leavesCfg (mWrap_keeps ..)
  | mKnot => exact settle_leavesCfg (mKnot_keeps ..)
  | mHandleTag w u =>
    exact settle_map_leavesCfg (f := fun r => r.2.setRet r.1) (mHandleTag_keeps w u s) fun _ => rfl

theorem next_leavesCfg {c : Cfg} {s : State} (h : s.cfg = c) : LeavesCfg c (.next s) := by
  intro t ht
  rwa [(leaves_next s t).mp ht]

theorem latch_leavesCfg (r : Raise) (s : State) : LeavesCfg s.cfg (latch r s) := by
  intro t ht
  rw [(leaves_latch r s t).mp ht, State.enterFault_cfg]

theorem acceptCommand_leavesCfg (w : Byte) (s : State) : LeavesCfg s.cfg (acceptCommand w s).outcome := by
  unfold acceptCommand
  split
  · exact next_leavesCfg rfl
  · split
    · split
      · exact exec_leavesCfg _ { s with done := false }
      · exact latch_leavesCfg _ s
    · exact latch_leavesCfg _ s

theorem acceptIssue_leavesCfg (w : Byte) (s : State) : LeavesCfg s.cfg (acceptIssue w s).outcome := by
  unfold acceptIssue
  split
  · exact next_leavesCfg rfl
  · split
    · exact exec_leavesCfg _ s
    · exact fun t h => absurd h (leaves_refused _ t)

/-- Of the host's moves only a reset samples the `cfg` port; `config` drives the port, not the configuration in force. -/
theorem hostMove_leavesCfg {m : HostMove} (hm : m ≠ .reset) (s : State) : LeavesCfg s.cfg (hostMove m s).outcome := by
  cases m with
  | config c => exact next_leavesCfg rfl
  | reset => exact absurd rfl hm
  | present p vs => exact next_leavesCfg (State.setPort_cfg s p _)
  | append p vs => exact next_leavesCfg (State.setPort_cfg s p _)
  | command w => exact acceptCommand_leavesCfg w s

/-- Settles O16: what a step fetches is an issued word, a move of the host other than a reset, or nothing. -/
theorem configurationIsStatic : Obligations.ConfigurationIsStatic := by
  unfold Obligations.ConfigurationIsStatic
  intro s t hnoreset
  rw [step_eq]
  unfold fetch
  split
  · rename_i w _
    exact acceptIssue_leavesCfg w { s with issue := none } t
  · rename_i hissue
    split
    · exact next_leavesCfg rfl t
    · rename_i m rest hhost
      have hm : m ≠ .reset := fun h => hnoreset.elim (· hissue) fun hr => hr rest (h ▸ hhost)
      exact hostMove_leavesCfg hm { s with host := rest } t

end Sys2Proof.Machine
end

section
/-! What an operation and a step leave behind, said once for every outcome (60_exceptions R225), and the shape of the block
(10_state R21, 20_memory R59, 00_scope R8). -/

namespace Sys2Proof.Machine

/-! What an operation leaves -/

/-- An operation ends with the state it gives, or with the state at its fault, entered (60_exceptions R225). -/
theorem leaves_settle {r : Result State} {t : State} (h : Leaves (settle r) t) :
    r = .ok t ∨ ∃ x u, r = .error (.raised x u) ∧ t = u.enterFault x := by
  cases r with
  | ok u => exact .inl (congrArg _ ((leaves_next u t).mp h).symm)
  | error e =>
    cases e with
    | raised x u => exact .inr ⟨x, u, rfl, (leaves_latch x u t).mp h⟩
    | stuck f => exact absurd h (leaves_stopped f t)

/-- Where a meaning can leave the block that started in `s`: what an operation keeps, its result on the lines when it is
issued by itself (log 7, 26), or the entry of a fault. -/
inductive ExecLeft (s : State) : State → Prop
  | kept {u : State} (k : Kept s u) : ExecLeft s u
  | array {u : State} (k : Kept s u) (A : Bytes) : ExecLeft s (u.setArray A)
  | ret {u : State} (k : Kept s u) (b : Bool) : ExecLeft s (u.setRet b)
  | fault {u : State} (k : Kept s u) (r : Raise) : ExecLeft s (u.enterFault r)

theorem execLeft_of_keeps {s t : State} {r : Result State} (k : KeepsState s r) (h : Leaves (settle r) t) :
    ExecLeft s t := by
  rcases leaves_settle h with rfl | ⟨x, u, rfl, rfl⟩
  · exact .kept k
  · exact .fault k x

/-- The same when the operation's value `a` is made into the state `f a` at the end. -/
theorem execLeft_of_value {α : Type} {π f : α → State} {s t : State} {r : Result α} (k : Keeps π s r)
    (hf : ∀ a, Kept s (π a) → ExecLeft s (f a)) (h : Leaves (settle (r >>= fun a => .ok (f a))) t) : ExecLeft s t := by
  cases r with
  | ok a =>
    obtain rfl := (leaves_next _ t).mp h
    exact hf a k
  | error e =>
    cases e with
    | raised x u =>
      obtain rfl := (leaves_latch x u t).mp h
      exact .fault k x
    | stuck f => exact absurd h (leaves_stopped f t)

/-- A Permutation operation issued by itself puts the array it gives on its line. -/
theorem withArray_eq (f : Bytes → State → Result (Bytes × State)) (s : State) :
    withArray f s = f s.lines.state s >>= fun r => .ok (r.2.setArray r.1) := by
  unfold withArray
  cases f s.lines.state s <;> rfl

theorem execLeft_of_withArray {s t : State} {f : Bytes → State → Result (Bytes × State)}
    (hf : ∀ A s, Keeps (fun r => r.2) s (f A s)) (h : Leaves (settle (withArray f s)) t) : ExecLeft s t := by
  rw [withArray_eq] at h
  exact execLeft_of_value (hf s.lines.state s) (fun r k => .array k r.1) h

/-- Everything the meaning of an operation can leave. -/
theorem leaves_exec {op : Instr} {s t : State} (h : Leaves (exec op s) t) : ExecLeft s t := by
  cases op with
  | fTheta => exact execLeft_of_withArray (fun _ s => onLanes_keeps _ _ _ _ (kept_emit s _)) h
  | fRhoPi => exact execLeft_of_withArray (fun _ s => onLanes_keeps _ _ _ _ (kept_emit s _)) h
  | fChi => exact execLeft_of_withArray (fun _ s => onLanes_keeps _ _ _ _ (kept_emit s _)) h
  | fIota => exact execLeft_of_withArray (fun _ s => onLanes_keeps _ _ _ _ (kept_emit s _)) h
  | fRound => exact execLeft_of_withArray (fun _ s => onLanes_keeps _ _ _ _ ((kept_emit s _).trans (kept_emitAll _ _))) h
  | fApply => exact execLeft_of_withArray fApply_keeps h
  | pCrypt u => exact execLeft_of_keeps (pCrypt_keeps ..) h
  | pInject c => exact execLeft_of_keeps (pInject_keeps ..) h
  | pSpark e => exact execLeft_of_keeps (pSpark_keeps ..) h
  | pGetTag => exact execLeft_of_keeps (pGetTag_keeps ..) h
  | eCrypt u => exact execLeft_of_keeps (eCrypt_keeps ..) h
  | eInject => exact execLeft_of_keeps (eInject_keeps ..) h
  | eSpark e => exact execLeft_of_keeps (eSpark_keeps ..) h
  | eGetTags => exact execLeft_of_keeps (eGetTags_keeps ..) h
  | eInjColl d => exact execLeft_of_keeps (eInjCollFrom_keeps ..) h
  | mStart w u g => exact execLeft_of_keeps (mStart_keeps ..) h
  | mWrap u g => exact execLeft_of_keeps (mWrap_keeps ..) h
  | mKnot => exact execLeft_of_keeps (mKnot_keeps ..) h
  | mHandleTag w u => exact execLeft_of_value (mHandleTag_keeps w u s) (fun r k => .ret k r.1) h

/-! What a step leaves -/

/-- Where a step can leave the block, once the word or the move it takes is taken (10_state R30, 44_host_interface R190,
R191, R194). -/
inductive StepLeft (u : State) : State → Prop
  | idle : StepLeft u u
  | ran {t : State} (op : Instr) (h : Leaves (exec op u) t) : StepLeft u t
  | illegal (word : Byte) : StepLeft u (u.enterFault (.illegalCommand word))
  | config (c : Cfg) : StepLeft u { u with cfgPort := c }
  | reset : StepLeft u u.applyReset
  | present (p : Port) (vs : Bytes) : StepLeft u (u.setPort p (ByteStream.ofBytes vs))
  | append (p : Port) (vs : Bytes) : StepLeft u (u.setPort p ((u.port p).putAll vs))

theorem leaves_resetOutcome {s t : State} (h : Leaves (resetOutcome s) t) : t = s.applyReset := by
  unfold resetOutcome at h
  cases hr : s.cfgPort.refusal with
  | none => rw [hr] at h; exact (leaves_next ..).mp h
  | some r => rw [hr] at h; exact (leaves_latched ..).mp h

theorem leaves_acceptCommand {w : Byte} {s t : State} (h : Leaves (acceptCommand w s).outcome t) :
    ∃ d, StepLeft { s with done := d } t := by
  unfold acceptCommand at h
  split at h
  · obtain rfl := (leaves_next ..).mp h
    exact ⟨t.done, .idle⟩
  · split at h
    · split at h
      · exact ⟨false, .ran _ h⟩
      · obtain rfl := (leaves_latch ..).mp h
        exact ⟨s.done, .illegal w⟩
    · obtain rfl := (leaves_latch ..).mp h
      exact ⟨s.done, .illegal w⟩

theorem leaves_acceptIssue {w : Byte} {s t : State} (h : Leaves (acceptIssue w s).outcome t) : StepLeft s t := by
  unfold acceptIssue at h
  split at h
  · obtain rfl := (leaves_next ..).mp h
    exact .idle
  · split at h
    · exact .ran _ h
    · exact absurd h (leaves_refused _ t)

theorem leaves_hostMove {m : HostMove} {s t : State} (h : Leaves (hostMove m s).outcome t) :
    ∃ d, StepLeft { s with done := d } t := by
  cases m with
  | config c => obtain rfl := (leaves_next ..).mp h; exact ⟨s.done, .config c⟩
  | reset => obtain rfl := leaves_resetOutcome h; exact ⟨s.done, .reset⟩
  | present p vs => obtain rfl := (leaves_next ..).mp h; exact ⟨s.done, .present p vs⟩
  | append p vs => obtain rfl := (leaves_next ..).mp h; exact ⟨s.done, .append p vs⟩
  | command w => exact leaves_acceptCommand h

/-- Everything a step can leave. -/
theorem leaves_step {s t : State} (h : Leaves (step s) t) :
    ∃ i hs d, StepLeft { s with issue := i, host := hs, done := d } t := by
  rw [step_eq] at h
  unfold fetch at h
  split at h
  · exact ⟨none, s.host, s.done, leaves_acceptIssue h⟩
  · split at h
    · obtain rfl := (leaves_next ..).mp h
      exact ⟨t.issue, t.host, t.done, .idle⟩
    · rename_i m rest _
      obtain ⟨d, hd⟩ := leaves_hostMove h
      exact ⟨s.issue, rest, d, hd⟩

/-! The shape of a state (10_state R21, 20_memory R59, 00_scope R8) -/

theorem Raise.cause_ne_none (r : Raise) : r.cause ≠ .none := by cases r <;> simp [Raise.cause]

theorem State.Shape.of_kept {s t : State} (h : s.Shape) (k : Kept s t) : t.Shape where
  memory := k.memory h.memory
  offsets := k.offsets h.offsets
  lengths := by rw [k.lines, k.cfg]; exact h.lengths
  streams := k.streams h.streams
  latch := by rw [k.fault, k.cause]; exact h.latch
  config := by rw [k.fault, k.cfg]; exact h.config

theorem State.Shape.enterFault {s : State} (h : s.Shape) (r : Raise) : (s.enterFault r).Shape where
  memory := h.memory
  offsets := h.offsets
  lengths := h.lengths
  streams := h.streams
  latch := by simp [r.cause_ne_none]
  config := by simp

theorem State.Shape.execLeft {s t : State} (h : s.Shape) (hl : ExecLeft s t) : t.Shape := by
  cases hl with
  | kept k => exact h.of_kept k
  | array k A =>
    have h := h.of_kept k
    exact ⟨h.memory, h.offsets, h.lengths, h.streams, h.latch, h.config⟩
  | ret k b =>
    have h := h.of_kept k
    exact ⟨h.memory, h.offsets, h.lengths, h.streams, h.latch, h.config⟩
  | fault k r => exact (h.of_kept k).enterFault r

/-- A reset puts every piece at its reset value and either admits the configuration or sets the latch (70_reset R240). -/
theorem shape_applyReset (s : State) : s.applyReset.Shape := by
  unfold State.applyReset
  split
  · rename_i hr
    exact ⟨Memory.wf_cleared s, by simp, by simp, rfl, by simp, fun _ => by simp [Cfg.admitted, hr]⟩
  · rename_i r hr
    exact ⟨Memory.wf_cleared s, by simp, by simp, rfl, by simp [r.cause_ne_none], by simp⟩

theorem State.Shape.stepLeft {s t : State} (h : s.Shape) (hl : StepLeft s t) : t.Shape := by
  cases hl with
  | idle => exact h
  | ran op he => exact h.execLeft (leaves_exec he)
  | illegal w => exact h.enterFault _
  | config c => exact ⟨h.memory, h.offsets, h.lengths, h.streams, h.latch, h.config⟩
  | reset => exact shape_applyReset s
  | present p vs => exact h.of_kept (kept_setPort p fun _ => ByteStream.ok_ofBytes vs)
  | append p vs =>
    exact h.of_kept (kept_setPort p fun hs => ByteStream.ok_putAll (((State.streamsOk_iff s).mp hs).1 p) vs)

/-- Settles O52: taking a word or a move does not touch the shape, and whatever a step then leaves has it. -/
theorem everyStepKeepsTheShape : Obligations.EveryStepKeepsTheShape := by
  unfold Obligations.EveryStepKeepsTheShape
  intro s t hs h
  obtain ⟨i, hm, d, hl⟩ := leaves_step h
  have hu : State.Shape { s with issue := i, host := hm, done := d } :=
    ⟨hs.memory, hs.offsets, hs.lengths, hs.streams, hs.latch, hs.config⟩
  exact hu.stepLeft hl

/-! The state after reset (10_state R34; log 1) -/

/-- Lake is admitted, so a reset of the reset state clears it, and it is cleared already. -/
theorem applyReset_reset : State.reset.applyReset = State.reset := by
  have h : State.reset.cfgPort.refusal = none := by decide
  rw [State.applyReset, h]
  rfl

/-- Settles O15: the fields as `State.reset` writes them, and a further reset changes none of them. -/
theorem resetStateValues : Obligations.ResetStateValues := by
  unfold Obligations.ResetStateValues
  exact ⟨rfl, rfl, rfl, rfl, rfl, rfl, rfl, rfl, rfl, rfl, rfl, rfl, rfl, rfl, applyReset_reset⟩

/-- Settles O53: the reset state is what a reset leaves, so it has the shape. -/
theorem resetHasTheShape : Obligations.ResetHasTheShape := by
  unfold Obligations.ResetHasTheShape
  refine ⟨?_, rfl, rfl, rfl, fun _ => rfl, fun _ => by decide, nofun, nofun⟩
  rw [← applyReset_reset]
  exact shape_applyReset State.reset

end Sys2Proof.Machine
end

section
/-! Which operations write which piece of state (10_state R20, column "Written by"; R35): the write set of each operation,
and one lemma for each operation that it writes nothing else, whether it ends normally or in a fault. -/

namespace Sys2Proof.Machine

/-- The pieces of 10_state R20 that operations write, and the lane line of log 7. -/
inductive Piece where
  | et | phaseE | phaseM | result | pistons | laneLine

/-- Two states hold the same in a piece. -/
def Piece.Same (s t : State) : Piece → Prop
  | .et => t.et = s.et
  | .phaseE => t.phaseE = s.phaseE
  | .phaseM => t.phaseM = s.phaseM
  | .result => t.result = s.result
  | .pistons => t.pistons = s.pistons
  | .laneLine => t.lines.state = s.lines.state

/-- Two states hold the same in every piece but those of `W`. -/
def SameBut (W : Set Piece) (s t : State) : Prop := ∀ p, p ∉ W → p.Same s t

/-- An operation has written only pieces of `W`, whatever state its result carries. -/
def Writes {α : Type} (W : Set Piece) (π : α → State) (s : State) : Result α → Prop
  | .ok a => SameBut W s (π a)
  | .error (.raised _ t) => SameBut W s t
  | .error (.stuck _) => True

section
variable {W : Set Piece}

theorem SameBut.refl (s : State) : SameBut W s s := fun p _ => by cases p <;> rfl

theorem SameBut.trans {s t u : State} (h : SameBut W s t) (k : SameBut W t u) : SameBut W s u := by
  intro p hp
  have h := h p hp
  have k := k p hp
  cases p <;> exact Eq.trans k h

/-- A piece that differs is one of those written. -/
theorem SameBut.mem {s t : State} (h : SameBut W s t) {p : Piece} (hne : ¬ p.Same s t) : p ∈ W :=
  by_contra fun hp => hne (h p hp)

theorem Writes.trans {α : Type} {π : α → State} {s t : State} {r : Result α} (h : SameBut W s t)
    (hr : Writes W π t r) : Writes W π s r := by
  cases r with
  | ok a => exact SameBut.trans h hr
  | error e =>
    cases e with
    | raised x u => exact SameBut.trans h hr
    | stuck f => trivial

theorem Writes.bind {α β : Type} {π : α → State} {ρ : β → State} {s : State} {r : Result α} {f : α → Result β}
    (h : Writes W π s r) (hf : ∀ a, Writes W ρ (π a) (f a)) : Writes W ρ s (r >>= f) := by
  cases r with
  | ok a => exact Writes.trans h (hf a)
  | error e =>
    cases e with
    | raised x u => exact h
    | stuck f => trivial

theorem writes_raise {α : Type} {π : α → State} (r : Raise) (s : State) : Writes W π s (raise r s : Result α) :=
  SameBut.refl s

theorem writes_stop {α : Type} {π : α → State} (f : Stop) (s : State) : Writes W π s (stop f : Result α) := trivial

theorem forEach_writes {f : Nat → State → Result State} (h : ∀ i s, Writes W id s (f i s)) (is : List Nat)
    (s : State) : Writes W id s (forEach f is s) := by
  induction is generalizing s with
  | nil => exact SameBut.refl s
  | cons i is ih =>
    rw [forEach_cons]
    exact Writes.bind (h i s) ih

/-! The named updates: those that write no piece, and those that write one. -/

theorem sameBut_emit (s : State) (i : Instr) : SameBut W s (s.emit i) := fun p _ => by cases p <;> rfl

theorem sameBut_emitAll (s : State) (is : List Instr) : SameBut W s (s.emitAll is) := fun p _ => by cases p <;> rfl

theorem sameBut_setStream (s : State) (n : StreamName) (x : ByteStream) : SameBut W s (s.setStream n x) :=
  fun p _ => by cases p <;> simp [Piece.Same]

theorem sameBut_setXt (s : State) (xs : List ByteStream) : SameBut W s (s.setXt xs) := fun p _ => by cases p <;> rfl

theorem sameBut_broadcast (src : StreamName) (x : ByteStream) (s : State) : SameBut W s (broadcast src x s) :=
  (sameBut_setStream s src _).trans (sameBut_setXt _ _)

theorem sameBut_enterFault (s : State) (r : Raise) : SameBut W s (s.enterFault r) := fun p _ => by cases p <;> rfl

theorem sameBut_setRet (s : State) (b : Bool) : SameBut W s (s.setRet b) := fun p _ => by cases p <;> rfl

theorem sameBut_setPiston (h : .pistons ∈ W) (s : State) (i : Nat) (S : Bytes) : SameBut W s (s.setPiston i S)
  | .pistons, hp => absurd h hp
  | .et, _ | .phaseE, _ | .phaseM, _ | .result, _ | .laneLine, _ => rfl

theorem sameBut_setEt (h : .et ∈ W) (s : State) (es : List Byte) : SameBut W s (s.setEt es)
  | .et, hp => absurd h hp
  | .pistons, _ | .phaseE, _ | .phaseM, _ | .result, _ | .laneLine, _ => rfl

theorem sameBut_setPhaseE (h : .phaseE ∈ W) (s : State) (e : PhaseE) : SameBut W s (s.setPhaseE e)
  | .phaseE, hp => absurd h hp
  | .pistons, _ | .et, _ | .phaseM, _ | .result, _ | .laneLine, _ => rfl

theorem sameBut_setPhaseM (h : .phaseM ∈ W) (s : State) (m : PhaseM) : SameBut W s (s.setPhaseM m)
  | .phaseM, hp => absurd h hp
  | .pistons, _ | .et, _ | .phaseE, _ | .result, _ | .laneLine, _ => rfl

theorem sameBut_complete (h : .result ∈ W) (s : State) (b : Bool) : SameBut W s (s.complete b)
  | .result, hp => absurd h hp
  | .pistons, _ | .et, _ | .phaseE, _ | .phaseM, _ | .laneLine, _ => rfl

theorem sameBut_setArray (h : .laneLine ∈ W) (s : State) (A : Bytes) : SameBut W s (s.setArray A)
  | .laneLine, hp => absurd h hp
  | .pistons, _ | .et, _ | .phaseE, _ | .phaseM, _ | .result, _ => rfl

/-! The shared operations. -/

theorem piston_writes (s : State) (i : Nat) : Writes W (fun _ => s) s (s.piston i) := by
  rcases State.piston_cases s i with ⟨S, h⟩ | h <;> rw [h]
  · exact SameBut.refl s
  · trivial

theorem stream_writes (s : State) (n : StreamName) : Writes W (fun _ => s) s (s.stream n) := by
  rcases State.stream_cases s n with ⟨x, h⟩ | h <;> rw [h]
  · exact SameBut.refl s
  · trivial

theorem onLanes_writes (f : {w : Nat} → Lanes w → Lanes w) (A : Bytes) {s t : State} (h : SameBut W s t) :
    Writes W (fun r => r.2) s (onLanes f A t) := by
  rcases onLanes_cases f A t with ⟨_, _, e⟩ | ⟨e', e⟩ <;> rw [e]
  · exact h
  · trivial

theorem fApply_writes (A : Bytes) (s : State) : Writes W (fun r => r.2) s (fApply A s) := by
  rcases fApply_cases A s with ⟨_, _, h⟩ | h | ⟨e, h⟩ <;> rw [h]
  · exact (sameBut_emit s .fApply).trans (sameBut_emitAll _ _)
  · exact sameBut_emit s .fApply
  · trivial

theorem pGetTag_writes (i : Nat) (dst : StreamName) (l : Nat) (s : State) : Writes W id s (pGetTag i dst l s) := by
  unfold pGetTag
  refine Writes.trans (sameBut_emit s .pGetTag) ?_
  refine Writes.bind (piston_writes _ _) fun S => ?_
  split
  · exact writes_raise _ _
  · exact Writes.bind (stream_writes _ _) fun t => sameBut_setStream _ _ _

theorem putCopy_writes (i v : Nat) (s : State) : Writes W id s (putCopy i v s) := by
  unfold putCopy
  cases enc8 v with
  | none => exact writes_raise _ _
  | some e => exact Writes.bind (stream_writes _ _) fun x => sameBut_setStream _ _ _

theorem diversifyCopies_writes (d : Bool) (s : State) : Writes W id s (diversifyCopies d s) := by
  unfold diversifyCopies
  split
  · exact forEach_writes (fun i s => Writes.bind (putCopy_writes ..) fun t => putCopy_writes ..) _ _
  · exact SameBut.refl s

/-- The tag protocol writes `phase_M` only when it unwraps. -/
theorem sameBut_settleTag {u : Bool} (hM : u = true → .phaseM ∈ W) (s : State) : SameBut W s (settleTag u s).2 := by
  cases u with
  | false => exact sameBut_setStream s (.port .tag) _
  | true =>
    unfold settleTag
    rw [Bool.not_true, if_neg Bool.false_ne_true]
    split
    · exact SameBut.refl s
    · exact sameBut_setPhaseM (hM rfl) s _

/-! The operations that write Piston states. -/

section
variable (hp : .pistons ∈ W)
include hp

theorem xorEnc8_writes (i k v : Nat) (s : State) : Writes W id s (s.xorEnc8 i k v) := by
  rcases State.xorEnc8_cases s i k v with ⟨_, h⟩ | ⟨_, h⟩ <;> rw [h]
  · exact sameBut_setPiston hp s i _
  · exact SameBut.refl s

theorem pCrypt_writes (i : Nat) (src dst : StreamName) (ω : Nat) (u : Bool) (s : State) :
    Writes W id s (pCrypt i src dst ω u s) := by
  unfold pCrypt
  refine Writes.trans (sameBut_emit s (.pCrypt u)) ?_
  set t := s.emit (.pCrypt u)
  split
  · exact writes_stop _ _
  · rcases State.piston_cases t i with ⟨S, hS⟩ | hS
    · rcases State.stream_cases t src with ⟨x, hx⟩ | hx
      · rcases State.stream_cases t dst with ⟨o, ho⟩ | ho
        · simp only [hS, hx, ho]
          exact Writes.trans ((sameBut_setPiston hp t i _).trans
            ((sameBut_setStream _ src _).trans (sameBut_setStream _ dst _))) (xorEnc8_writes hp _ _ _ _)
        · simp only [hS, hx, ho]; exact writes_stop (.noSuchStream dst) _
      · simp only [hS, hx]; exact writes_stop (.noSuchStream src) _
    · simp only [hS]; exact writes_stop (.noSuchPiston i) _

theorem injectData_writes (i : Nat) (src : StreamName) (start : Nat) (s : State) :
    Writes W (fun r => r.2) s (injectData i src start s) := by
  unfold injectData
  rcases State.piston_cases s i with ⟨S, hS⟩ | hS
  · rcases State.stream_cases s src with ⟨x, hx⟩ | hx
    · simp only [hS, hx]
      exact (sameBut_setPiston hp s i _).trans (sameBut_setStream _ src _)
    · simp only [hS, hx]; exact writes_stop (.noSuchStream src) _
  · simp only [hS]; exact writes_stop (.noSuchPiston i) _

theorem pInject_writes (i : Nat) (src : StreamName) (b : Bool) (s : State) : Writes W id s (pInject i src b s) := by
  unfold pInject
  refine Writes.trans (sameBut_emit s (.pInject b)) ?_
  refine Writes.bind (piston_writes _ _) fun S => ?_
  refine Writes.bind (xorEnc8_writes hp _ _ _ _) fun t => ?_
  exact Writes.bind (injectData_writes hp _ _ _ _) fun r => xorEnc8_writes hp _ _ _ _

theorem markEnd_writes (i l : Nat) (final : Bool) (s : State) : Writes W id s (s.markEnd i l final) := by
  unfold State.markEnd
  split
  · split
    · exact sameBut_setPiston hp s i _
    · exact xorEnc8_writes hp ..
  · exact sameBut_setPiston hp s i _

theorem pSpark_writes (i l : Nat) (final : Bool) (s : State) : Writes W id s (pSpark i l final s) := by
  unfold pSpark
  refine Writes.trans (sameBut_emit s (.pSpark final)) ?_
  refine Writes.bind (piston_writes _ _) fun S => ?_
  refine Writes.bind (markEnd_writes hp _ _ _ _) fun t => ?_
  refine Writes.bind (piston_writes _ _) fun S => ?_
  exact Writes.bind (fApply_writes _ _) fun r => sameBut_setPiston hp _ i _

theorem eCrypt_writes (hE : .phaseE ∈ W) (src dst : StreamName) (u : Bool) (s : State) :
    Writes W id s (eCrypt src dst u s) := by
  unfold eCrypt
  refine Writes.trans (sameBut_emit s (.eCrypt u)) ?_
  dsimp only
  split
  · exact writes_raise _ _
  · refine Writes.bind (forEach_writes (fun i s => pCrypt_writes hp ..) _ _) fun t => ?_
    exact Writes.bind (stream_writes _ _) fun x => sameBut_setPhaseE hE _ _

section
variable (he : .et ∈ W)
include he

theorem eSpark_writes (final : Bool) (l : List Nat) (s : State) : Writes W id s (eSpark final l s) := by
  unfold eSpark
  refine Writes.trans (sameBut_emit s (.eSpark final)) ?_
  dsimp only
  split
  · exact writes_stop _ _
  · exact Writes.bind (forEach_writes (fun i s => pSpark_writes hp ..) _ _) fun t => sameBut_setEt he _ _

theorem injectGroups_writes (n : Nat) (s : State) : Writes W id s (injectGroups n s) := by
  induction n generalizing s with
  | zero => exact writes_stop _ _
  | succ n ih =>
    unfold injectGroups
    refine Writes.bind (stream_writes _ _) fun x => ?_
    split
    · refine Writes.bind (forEach_writes (fun i s => pInject_writes hp ..) _ _) fun t => ?_
      refine Writes.bind (stream_writes _ _) fun y => ?_
      split
      · exact Writes.bind (eSpark_writes hp he _ _ _) ih
      · exact ih t
    · exact SameBut.refl s

/-! The operations that spark and write the Engine phase. -/

variable (hE : .phaseE ∈ W)
include hE

theorem eInject_writes (src : StreamName) (s : State) : Writes W id s (eInject src s) := by
  unfold eInject
  refine Writes.trans (sameBut_emit s .eInject) ?_
  dsimp only
  split
  · exact writes_raise _ _
  · refine Writes.bind (forEach_writes (fun i s => pInject_writes hp ..) _ _) fun t => ?_
    refine Writes.bind (stream_writes _ _) fun x => ?_
    split
    · exact Writes.bind (eSpark_writes hp he _ _ _) fun v => sameBut_setPhaseE hE _ _
    · exact sameBut_setPhaseE hE _ _

theorem eGetTags_writes (dst : StreamName) (l : List Nat) (s : State) : Writes W id s (eGetTags dst l s) := by
  unfold eGetTags
  refine Writes.trans (sameBut_emit s .eGetTags) ?_
  dsimp only
  split
  · exact writes_raise _ _
  · refine Writes.bind (eSpark_writes hp he _ _ _) fun t => ?_
    exact Writes.bind (forEach_writes (fun i s => pGetTag_writes ..) _ _) fun v => sameBut_setPhaseE hE _ _

theorem eInjColl_writes (src : StreamName) (d : Bool) (s : State) : Writes W id s (eInjColl src d s) := by
  unfold eInjColl
  refine Writes.trans (sameBut_emit s (.eInjColl d)) ?_
  dsimp only
  split
  · exact writes_raise _ _
  · refine Writes.bind (stream_writes _ _) fun x => ?_
    refine Writes.trans (sameBut_broadcast src x _) ?_
    refine Writes.bind (diversifyCopies_writes _ _) fun t => ?_
    exact Writes.bind (injectGroups_writes hp he _ _) fun v =>
      (sameBut_setXt v []).trans (sameBut_setPhaseE hE _ _)

theorem eInjCollFrom_writes (src : StreamName) (d : Bool) (s : State) : Writes W id s (eInjCollFrom src d s) := by
  unfold eInjCollFrom
  cases src with
  | port p => exact eInjColl_writes hp he hE ..
  | tPrime => exact eInjColl_writes hp he hE ..
  | xt k =>
    dsimp only
    split
    · exact writes_stop _ _
    · exact eInjColl_writes hp he hE ..

theorem mKnot_writes (s : State) : Writes W id s (mKnot s) := by
  unfold mKnot
  refine Writes.trans ((sameBut_emit s .mKnot).trans (sameBut_setStream _ .tPrime ByteStream.empty)) ?_
  refine Writes.bind (eGetTags_writes hp he hE _ _ _) fun t => ?_
  exact Writes.bind (eInjColl_writes hp he hE _ _ _) fun v => sameBut_setStream v .tPrime _

theorem knotIf_writes (b : Bool) (s : State) : Writes W id s (knotIf b s) := by
  unfold knotIf
  split
  · exact mKnot_writes hp he hE s
  · exact SameBut.refl s

theorem mHandleTag_writes {w u : Bool} (hM : w = true → u = true → .phaseM ∈ W) (s : State) :
    Writes W (fun r => r.2) s (mHandleTag w u s) := by
  unfold mHandleTag
  refine Writes.trans ((sameBut_emit s (.mHandleTag w u)).trans (sameBut_setStream _ .tPrime ByteStream.empty)) ?_
  cases w with
  | false => exact Writes.bind (eGetTags_writes hp he hE _ _ _) fun v => sameBut_setStream v .tPrime _
  | true =>
    refine Writes.bind (eGetTags_writes hp he hE _ _ _) fun v => ?_
    exact (sameBut_settleTag (hM rfl) v).trans (sameBut_setStream _ .tPrime _)

theorem handleTagAlone_writes {w u : Bool} (hM : w = true → u = true → .phaseM ∈ W) (s : State) :
    Writes W id s (handleTagAlone w u s) :=
  Writes.bind (mHandleTag_writes hp he hE hM s) fun r => sameBut_setRet r.2 r.1

theorem mStart_writes (hM : .phaseM ∈ W) (hr : .result ∈ W) (w u g : Bool) (s : State) :
    Writes W id s (mStart w u g s) := by
  unfold mStart
  split
  · exact writes_raise _ _
  · refine Writes.bind (eInjColl_writes hp he hE _ _ _) fun a => ?_
    refine Writes.bind (knotIf_writes hp he hE _ _) fun b => ?_
    refine Writes.bind (mHandleTag_writes hp he hE (fun _ _ => hM) _) fun r => ?_
    unfold finishStart
    split
    · exact (sameBut_setPhaseM hM r.2 _).trans (sameBut_complete hr _ _)
    · exact sameBut_complete hr r.2 _

theorem wrapBlocks_writes (u : Bool) (n : Nat) (s : State) : Writes W id s (wrapBlocks u n s) := by
  induction n generalizing s with
  | zero => exact writes_stop _ _
  | succ n ih =>
    unfold wrapBlocks
    split
    · exact Writes.bind (eCrypt_writes hp hE _ _ _ _) fun a => Writes.bind (eInject_writes hp he hE _ _) ih
    · exact SameBut.refl s

theorem wrapRest_writes (n : Nat) (s : State) : Writes W id s (wrapRest n s) := by
  induction n generalizing s with
  | zero => exact writes_stop _ _
  | succ n ih =>
    unfold wrapRest
    split
    · exact Writes.bind (eInject_writes hp he hE _ _) ih
    · exact SameBut.refl s

theorem wrapBody_writes (u : Bool) (s : State) : Writes W id s (wrapBody u s) := by
  have hempty : Writes W id s (wrapEmpty s) := by
    unfold wrapEmpty
    split
    · exact eInject_writes hp he hE _ s
    · exact SameBut.refl s
  exact Writes.bind hempty fun a => Writes.bind (wrapBlocks_writes hp he hE u _ _) fun b => wrapRest_writes hp he hE _ _

theorem mWrap_writes {u : Bool} (hM : u = true → .phaseM ∈ W) (hr : .result ∈ W) (g : Bool) (s : State) :
    Writes W id s (mWrap u g s) := by
  unfold mWrap
  split
  · exact writes_raise _ _
  · refine Writes.bind (wrapBody_writes hp he hE _ _) fun a => ?_
    refine Writes.bind (knotIf_writes hp he hE _ _) fun b => ?_
    refine Writes.bind (mHandleTag_writes hp he hE (fun _ => hM) _) fun r => ?_
    unfold finishWrap
    split
    · exact sameBut_complete hr r.2 _
    · exact (sameBut_setStream r.2 (.port .out) _).trans (sameBut_complete hr _ _)

end
end

/-! The write sets (10_state R20) -/

theorem sameBut_of_settle {s t : State} {r : Result State} (k : Writes W id s r) (h : Leaves (settle r) t) :
    SameBut W s t := by
  rcases leaves_settle h with rfl | ⟨x, u, rfl, rfl⟩
  · exact k
  · exact SameBut.trans k (sameBut_enterFault u x)

theorem withArray_writes (hl : .laneLine ∈ W) {f : Bytes → State → Result (Bytes × State)}
    (k : ∀ A s, Writes W (fun r => r.2) s (f A s)) (s : State) : Writes W id s (withArray f s) := by
  rw [withArray_eq]
  exact Writes.bind (k s.lines.state s) fun r => sameBut_setArray hl r.2 r.1

end

/-- What each operation may write (10_state R20, column "Written by"): what it writes itself, and what the operations it
owns write (R35). -/
def written : Instr → Set Piece
  | .fTheta | .fRhoPi | .fChi | .fIota | .fRound | .fApply => {.laneLine}
  | .pCrypt _ | .pInject _ | .pSpark _ => {.pistons}
  | .pGetTag => ∅
  | .eCrypt _ => {.pistons, .phaseE}
  | .eSpark _ => {.pistons, .et}
  | .eInject | .eGetTags | .eInjColl _ | .mKnot => {.pistons, .et, .phaseE}
  | .mHandleTag w u => {p | p ∈ ({.pistons, .et, .phaseE} : Set Piece) ∨ p = .phaseM ∧ w = true ∧ u = true}
  | .mWrap u _ => {p | p ∈ ({.pistons, .et, .phaseE, .result} : Set Piece) ∨ p = .phaseM ∧ u = true}
  | .mStart _ _ _ => {.pistons, .et, .phaseE, .result, .phaseM}

/-- Every operation writes pieces of its write set only, a faulting one included. -/
theorem exec_sameBut {op : Instr} {s t : State} (h : Leaves (exec op s) t) : SameBut (written op) s t := by
  have hlane : Piece.laneLine ∈ ({.laneLine} : Set Piece) := Set.mem_singleton _
  have hpistons : Piece.pistons ∈ ({.pistons} : Set Piece) := Set.mem_singleton _
  cases op with
  | fTheta => exact sameBut_of_settle (withArray_writes hlane (fun A s => onLanes_writes _ A (sameBut_emit s _)) s) h
  | fRhoPi => exact sameBut_of_settle (withArray_writes hlane (fun A s => onLanes_writes _ A (sameBut_emit s _)) s) h
  | fChi => exact sameBut_of_settle (withArray_writes hlane (fun A s => onLanes_writes _ A (sameBut_emit s _)) s) h
  | fIota => exact sameBut_of_settle (withArray_writes hlane (fun A s => onLanes_writes _ A (sameBut_emit s _)) s) h
  | fRound =>
    exact sameBut_of_settle (withArray_writes hlane
      (fun A s => onLanes_writes _ A ((sameBut_emit s _).trans (sameBut_emitAll _ _))) s) h
  | fApply => exact sameBut_of_settle (withArray_writes hlane fApply_writes s) h
  | pCrypt u => exact sameBut_of_settle (pCrypt_writes hpistons ..) h
  | pInject b => exact sameBut_of_settle (pInject_writes hpistons ..) h
  | pSpark e => exact sameBut_of_settle (pSpark_writes hpistons ..) h
  | pGetTag => exact sameBut_of_settle (pGetTag_writes ..) h
  | eCrypt u => refine sameBut_of_settle (eCrypt_writes ?_ ?_ ..) h <;> simp [written]
  | eInject => refine sameBut_of_settle (eInject_writes ?_ ?_ ?_ ..) h <;> simp [written]
  | eSpark e => refine sameBut_of_settle (eSpark_writes ?_ ?_ ..) h <;> simp [written]
  | eGetTags => refine sameBut_of_settle (eGetTags_writes ?_ ?_ ?_ ..) h <;> simp [written]
  | eInjColl d => refine sameBut_of_settle (eInjCollFrom_writes ?_ ?_ ?_ ..) h <;> simp [written]
  | mStart w u g => refine sameBut_of_settle (mStart_writes ?_ ?_ ?_ ?_ ?_ ..) h <;> simp [written]
  | mWrap u g => refine sameBut_of_settle (mWrap_writes ?_ ?_ ?_ ?_ ?_ ..) h <;> simp [written]
  | mKnot => refine sameBut_of_settle (mKnot_writes ?_ ?_ ?_ ..) h <;> simp [written]
  | mHandleTag w u =>
    refine sameBut_of_settle (handleTagAlone_writes ?_ ?_ ?_ (fun hw hu => ?_) s) h <;> simp [written, *]

/-! The column "Written by", read piece by piece. -/

theorem wordUnit_packWord : ∀ (unit : BitVec 2) (op : BitVec 3) (f2 f1 f0 : Bool),
    wordUnit (packWord unit op f2 f1 f0) = unit.toNat := by decide

theorem writer_of_result {op : Instr} (h : .result ∈ written op) :
    (∃ w u g, op = .mStart w u g) ∨ ∃ u g, op = .mWrap u g := by
  cases op <;> simp_all [written]

theorem writer_of_phaseM {op : Instr} (h : .phaseM ∈ written op) :
    (∃ w u g, op = .mStart w u g) ∨ (∃ g, op = .mWrap true g) ∨ op = .mHandleTag true true := by
  cases op <;> simp_all [written]

theorem writer_of_et {op : Instr} (h : .et ∈ written op) :
    (wordUnit (encodeWord op) = 2 ∧ ∀ u, op ≠ .eCrypt u) ∨ wordUnit (encodeWord op) = 3 := by
  cases op <;> simp_all [written, encodeWord, wordUnit_packWord]

theorem writer_of_phaseE {op : Instr} (h : .phaseE ∈ written op) :
    (wordUnit (encodeWord op) = 2 ∧ ∀ e, op ≠ .eSpark e) ∨ wordUnit (encodeWord op) = 3 := by
  cases op <;> simp_all [written, encodeWord, wordUnit_packWord]

theorem writer_of_pistons {op : Instr} (h : .pistons ∈ written op) :
    wordUnit (encodeWord op) ≠ 0 ∧ op ≠ .pGetTag := by
  cases op <;> simp_all [written, encodeWord, wordUnit_packWord]

theorem writer_of_laneLine {op : Instr} (h : .laneLine ∈ written op) : wordUnit (encodeWord op) = 0 := by
  cases op <;> simp_all [written, encodeWord, wordUnit_packWord]

/-- No operation writes the configuration, the host's side or the issue line, and none leaves the latch. -/
theorem ExecLeft.frame {s t : State} (h : ExecLeft s t) :
    t.cfg = s.cfg ∧ t.cfgPort = s.cfgPort ∧ t.host = s.host ∧ t.issue = s.issue ∧
      (s.fault = true → t.fault = true) := by
  cases h with
  | kept k => exact ⟨k.cfg, k.cfgPort, k.host, k.issue, k.fault.trans⟩
  | array k A => exact ⟨k.cfg, k.cfgPort, k.host, k.issue, k.fault.trans⟩
  | ret k b => exact ⟨k.cfg, k.cfgPort, k.host, k.issue, k.fault.trans⟩
  | fault k r => exact ⟨k.cfg, k.cfgPort, k.host, k.issue, fun _ => rfl⟩

/-- Settles O51: a piece that differs is in the operation's write set, and the write sets are the column of R20. -/
theorem writersOfState : Obligations.WritersOfState := by
  unfold Obligations.WritersOfState
  intro op s t h
  have hw := exec_sameBut h
  exact ⟨fun hne => writer_of_result (hw.mem (p := .result) hne), fun hne => writer_of_et (hw.mem (p := .et) hne),
    fun hne => writer_of_phaseE (hw.mem (p := .phaseE) hne), fun hne => writer_of_phaseM (hw.mem (p := .phaseM) hne),
    fun hne => writer_of_pistons (hw.mem (p := .pistons) hne),
    fun hne => writer_of_laneLine (hw.mem (p := .laneLine) hne), (leaves_exec h).frame⟩

end Sys2Proof.Machine
end

section
/-! The isolation of Pistons and of their capacity (10_state R22): what a Piston operation does when a buffer is another one. -/

namespace Sys2Proof.Machine

/-! The result of an operation with another buffer for Piston `j` -/

/-- A result with the buffer `S` for Piston `j` in the state it carries, a fault's included; `f` puts it into a value. -/
def withBuffer {α : Type} (j : Nat) (S : Bytes) (f : α → α) : Result α → Result α
  | .ok a => .ok (f a)
  | .error (.raised r t) => .error (.raised r (t.setPiston j S))
  | .error (.stuck e) => .error (.stuck e)

/-- The same for a result that is a state. -/
abbrev stateWithBuffer (j : Nat) (S : Bytes) : Result State → Result State := withBuffer j S (·.setPiston j S)

/-- The same for a state that comes with something else. -/
abbrev pairWithBuffer {α : Type} (j : Nat) (S : Bytes) : Result (α × State) → Result (α × State) :=
  withBuffer j S fun r => (r.1, r.2.setPiston j S)

theorem bind_withBuffer {α β : Type} {j : Nat} {S : Bytes} {f : α → α} {g : β → β} {r r' : Result α}
    {k k' : α → Result β} (hr : r' = withBuffer j S f r) (hk : ∀ a, k' (f a) = withBuffer j S g (k a)) :
    (r' >>= k') = withBuffer j S g (r >>= k) := by
  subst hr
  cases r with
  | ok a => exact hk a
  | error e => cases e <;> rfl

theorem settle_withBuffer_next {j : Nat} {S : Bytes} {r : Result State} {t : State} (h : settle r = .next t) :
    settle (stateWithBuffer j S r) = .next (t.setPiston j S) := by
  cases r with
  | ok u => cases h; rfl
  | error e => cases e <;> cases h

theorem settle_withBuffer_latched {j : Nat} {S : Bytes} {r : Result State} {x : Raise} {t : State}
    (h : settle r = .fault (.latched x t)) :
    settle (stateWithBuffer j S r) = .fault (.latched x (t.setPiston j S)) := by
  cases r with
  | ok u => cases h
  | error e =>
    cases e with
    | raised y u => cases h; rfl
    | stuck f => cases h

/-! Another Piston's buffer -/

section
variable {i j : Nat} (S : Bytes) (s : State)

theorem State.stream_setPiston (n : StreamName) : (s.setPiston j S).stream n = s.stream n := by
  simp [State.stream]

theorem stream_withBuffer (n : StreamName) : (s.setPiston j S).stream n = withBuffer j S id (s.stream n) := by
  rw [State.stream_setPiston]
  rcases State.stream_cases s n with ⟨x, h⟩ | h <;> rw [h] <;> rfl

theorem fApply_withBuffer (A : Bytes) : fApply A (s.setPiston j S) = pairWithBuffer j S (fApply A s) := by
  by_cases hlen : A.length = s.cfg.stateBytes
  · by_cases hlay : s.cfg.hasLayout = true
    · rw [fApply_ok hlay hlen, fApply_ok (s := s.setPiston j S) hlay hlen]; rfl
    · simp [fApply, hlen, hlay, stop, withBuffer]
  · simp [fApply, hlen, raise, withBuffer, State.emit_setPiston]

variable (hj : j ≠ i)
include hj

theorem State.piston_setPiston_ne : (s.setPiston j S).piston i = s.piston i := by
  unfold State.piston
  rw [State.setPiston_get_ne s S hj.symm]
  rfl

theorem State.setPiston_comm (T : Bytes) : (s.setPiston j S).setPiston i T = (s.setPiston i T).setPiston j S := by
  simp only [State.setPiston, List.set_comm _ _ hj]

theorem State.xorByte_setPiston_ne (k : Nat) (v : Byte) :
    (s.setPiston j S).xorByte i k v = (s.xorByte i k v).setPiston j S := by
  unfold State.xorByte
  rw [State.setPiston_comm S s hj]
  simp [List.getD_eq_getElem?_getD, hj]

theorem piston_withBuffer : (s.setPiston j S).piston i = withBuffer j S id (s.piston i) := by
  rw [State.piston_setPiston_ne S s hj]
  rcases State.piston_cases s i with ⟨T, h⟩ | h <;> rw [h] <;> rfl

theorem xorEnc8_withBuffer (k v : Nat) : (s.setPiston j S).xorEnc8 i k v = stateWithBuffer j S (s.xorEnc8 i k v) := by
  unfold State.xorEnc8
  cases enc8 v with
  | none => rfl
  | some e => exact congrArg Except.ok (State.xorByte_setPiston_ne S s hj k e)

theorem pCrypt_withBuffer (src dst : StreamName) (ω : Nat) (u : Bool) :
    pCrypt i src dst ω u (s.setPiston j S) = stateWithBuffer j S (pCrypt i src dst ω u s) := by
  unfold pCrypt
  rw [State.emit_setPiston]
  set t := s.emit (.pCrypt u)
  by_cases hd : src = dst
  · simp only [if_pos hd]; rfl
  · simp only [if_neg hd, State.piston_setPiston_ne S t hj, State.stream_setPiston]
    rcases State.piston_cases t i with ⟨T, hT⟩ | hT
    · rcases State.stream_cases t src with ⟨x, hx⟩ | hx
      · rcases State.stream_cases t dst with ⟨o, ho⟩ | ho
        · simp only [hT, hx, ho, State.setPiston_cfg]
          rw [State.setPiston_comm S t hj, ← State.setStream_setPiston, ← State.setStream_setPiston]
          exact xorEnc8_withBuffer S _ hj _ _
        · simp only [hT, hx, ho]; rfl
      · simp only [hT, hx]; rfl
    · simp only [hT]; rfl

theorem injectData_withBuffer (src : StreamName) (start : Nat) :
    injectData i src start (s.setPiston j S) = pairWithBuffer j S (injectData i src start s) := by
  unfold injectData
  rw [State.piston_setPiston_ne S s hj, State.stream_setPiston]
  rcases State.piston_cases s i with ⟨T, hT⟩ | hT
  · rcases State.stream_cases s src with ⟨x, hx⟩ | hx
    · simp only [hT, hx, State.setPiston_cfg]
      rw [State.setPiston_comm S s hj, ← State.setStream_setPiston]; rfl
    · simp only [hT, hx]; rfl
  · simp only [hT]; rfl

theorem pInject_withBuffer (src : StreamName) (b : Bool) :
    pInject i src b (s.setPiston j S) = stateWithBuffer j S (pInject i src b s) := by
  unfold pInject
  refine bind_withBuffer (piston_withBuffer S (s.emit (.pInject b)) hj) fun T => ?_
  refine bind_withBuffer (xorEnc8_withBuffer S (s.emit (.pInject b)) hj _ _) fun t => ?_
  refine bind_withBuffer (injectData_withBuffer S t hj _ _) fun r => ?_
  exact xorEnc8_withBuffer S r.2 hj _ _

theorem markEnd_withBuffer (l : Nat) (final : Bool) :
    (s.setPiston j S).markEnd i l final = stateWithBuffer j S (s.markEnd i l final) := by
  unfold State.markEnd
  split
  · split
    · exact congrArg Except.ok (State.xorByte_setPiston_ne S s hj _ _)
    · exact xorEnc8_withBuffer S s hj _ _
  · exact congrArg Except.ok (State.xorByte_setPiston_ne S s hj _ _)

theorem pSpark_withBuffer (l : Nat) (final : Bool) :
    pSpark i l final (s.setPiston j S) = stateWithBuffer j S (pSpark i l final s) := by
  unfold pSpark
  refine bind_withBuffer (piston_withBuffer S (s.emit (.pSpark final)) hj) fun T => ?_
  refine bind_withBuffer (markEnd_withBuffer S (s.emit (.pSpark final)) hj _ _) fun t => ?_
  refine bind_withBuffer (piston_withBuffer S t hj) fun U => ?_
  refine bind_withBuffer (fApply_withBuffer S t U) fun r => ?_
  exact congrArg Except.ok (State.setPiston_comm S r.2 hj r.1)

theorem pGetTag_withBuffer (dst : StreamName) (l : Nat) :
    pGetTag i dst l (s.setPiston j S) = stateWithBuffer j S (pGetTag i dst l s) := by
  unfold pGetTag
  refine bind_withBuffer (piston_withBuffer S (s.emit .pGetTag) hj) fun T => ?_
  rw [State.emit_setPiston, State.setPiston_cfg]
  split
  · rfl
  · refine bind_withBuffer (stream_withBuffer S _ dst) fun t => ?_
    exact congrArg Except.ok (State.setStream_setPiston ..).symm

end

/-- What a Piston operation does on a block that has another buffer for Piston `j`: the same, with that buffer there. -/
def RunsAlike (op : Instr) (s u : State) (j : Nat) (S : Bytes) : Prop :=
  ∃ r : Result State, exec op s = settle r ∧ exec op u = settle (stateWithBuffer j S r)

theorem RunsAlike.next {op : Instr} {s u t : State} {j : Nat} {S : Bytes} (h : RunsAlike op s u j S)
    (ht : exec op s = .next t) : exec op u = .next (t.setPiston j S) := by
  obtain ⟨r, hs, hu⟩ := h
  rw [hu]
  exact settle_withBuffer_next (hs ▸ ht)

theorem RunsAlike.latched {op : Instr} {s u t : State} {j : Nat} {S : Bytes} {x : Raise} (h : RunsAlike op s u j S)
    (ht : exec op s = .fault (.latched x t)) : exec op u = .fault (.latched x (t.setPiston j S)) := by
  obtain ⟨r, hs, hu⟩ := h
  rw [hu]
  exact settle_withBuffer_latched (hs ▸ ht)

theorem runsAlike_setPiston_ne {op : Instr} (s : State) {j : Nat} (S : Bytes)
    (hop : ∃ b, op = .pCrypt b ∨ op = .pInject b ∨ op = .pSpark b ∨ op = .pGetTag) (hj : j ≠ s.lineI) :
    RunsAlike op s (s.setPiston j S) j S := by
  obtain ⟨b, rfl | rfl | rfl | rfl⟩ := hop
  · exact ⟨_, rfl, congrArg settle (pCrypt_withBuffer S s hj _ _ _ _)⟩
  · exact ⟨_, rfl, congrArg settle (pInject_withBuffer S s hj _ _)⟩
  · exact ⟨_, rfl, congrArg settle (pSpark_withBuffer S s hj _ _)⟩
  · exact ⟨_, rfl, congrArg settle (pGetTag_withBuffer S s hj _ _)⟩

/-- Settles O32: every Piston operation carries another Piston's buffer through unread. -/
theorem pistonsAreIsolated : Obligations.PistonsAreIsolated := by
  unfold Obligations.PistonsAreIsolated
  intro op s t j S hop hj
  have h := runsAlike_setPiston_ne s S hop hj
  exact ⟨h.next, fun r => h.latched⟩

/-! The bytes of the Piston's own buffer at offsets from `Rs` on -/

theorem take_eq_of_byteAt {S T : Bytes} {n : Nat} (hl : T.length = S.length)
    (h : ∀ k, k < n → byteAt T k = byteAt S k) : T.take n = S.take n := by
  refine ext_byteAt (by simp [hl]) fun k hk => ?_
  have hkn : k < n := lt_of_lt_of_le hk (List.length_take_le ..)
  simpa [byteAt, List.getD_eq_getElem?_getD, List.getElem?_take, hkn] using h k hkn

/-- What a `P.CRYPT` emits is read from the first `n` bytes of the state while it stays inside them. -/
theorem duplexOutput_eq_take (S : Bytes) {data : Bytes} {ω n : Nat} (hd : data.length ≤ n - ω) :
    duplexOutput ω S data = duplexOutput ω (S.take n) data := by
  apply List.ext_getElem?
  intro k
  by_cases hk : k < data.length
  · have : ω + k < n := by omega
    simp [duplexOutput, List.getElem?_zipWith, this]
  · simp [duplexOutput, List.getElem?_zipWith, List.getElem?_eq_none (Nat.le_of_not_lt hk)]

theorem duplexOutput_congr {S T data : Bytes} {ω n : Nat} (h : T.take n = S.take n) (hd : data.length ≤ n - ω) :
    duplexOutput ω T data = duplexOutput ω S data := by
  rw [duplexOutput_eq_take T hd, h, ← duplexOutput_eq_take S hd]

/-- A Piston of a built block whose buffer is replaced by one of the same length is there, with that buffer. -/
theorem State.Built.piston_setPiston {s : State} (h : s.Built) {i : Nat} {S T : Bytes} (hS : s.pistons[i]? = some S)
    (hl : T.length = S.length) : (s.setPiston i T).piston i = .ok T :=
  have hT : T.length = s.cfg.stateBytes := hl.trans (Memory.wf_get h.memory hS)
  have hb : (s.setPiston i T).Built := h.of_eq rfl (Memory.wf_set h.memory i hT)
  hb.piston_ok (State.setPiston_get hS)

/-- `P.CRYPT` of a Piston that exists has its two streams, or stops. -/
theorem pCrypt_operands {i : Nat} {s : State} {S : Bytes} (hS : s.piston i = .ok S) (src dst : StreamName) (ω : Nat)
    (u : Bool) : (src ≠ dst ∧ ∃ x o, s.stream? src = some x ∧ s.stream? dst = some o) ∨
      ∃ f, pCrypt i src dst ω u s = .error (.stuck f) := by
  have hS' : (s.emit (.pCrypt u)).piston i = .ok S := hS
  unfold pCrypt
  by_cases hd : src = dst
  · exact .inr ⟨_, by simp only [if_pos hd]; rfl⟩
  · simp only [if_neg hd, hS']
    rcases State.stream_cases (s.emit (.pCrypt u)) src with ⟨x, hx⟩ | hx
    · rcases State.stream_cases (s.emit (.pCrypt u)) dst with ⟨o, ho⟩ | ho
      · rw [State.stream_eq_ok_iff, State.emit_stream] at hx ho
        exact .inl ⟨hd, x, o, hx, ho⟩
      · exact .inr ⟨.noSuchStream dst, by simp only [hx, ho]⟩
    · exact .inr ⟨.noSuchStream src, by simp only [hx]⟩

section
variable {s : State} {S T : Bytes} (hb : s.Built) (hS : s.pistons[s.lineI]? = some S) (hl : T.length = S.length)
  (htake : T.take s.cfg.rs = S.take s.cfg.rs)
include hb hS hl htake

/-- `P.CRYPT` emits the same from two Pistons that are equal below `Rs`; only the Piston's own buffer is another one. -/
theorem pCrypt_capacity (u : Bool) :
    (∃ B, RunsAlike (.pCrypt u) s (s.setPiston s.lineI T) s.lineI B) ∨
      ∃ f, exec (.pCrypt u) s = .fault (.stopped f) := by
  have hSp := hb.piston_ok hS
  have hTp := hb.piston_setPiston hS hl
  rcases pCrypt_operands hSp s.lines.src s.lines.dst s.lineOffset u with ⟨hd, x, o, hx, ho⟩ | ⟨f, hf⟩
  · left
    set data := x.unread.take (s.cfg.rs - s.lineOffset) with hdata
    have hlen : data.length ≤ s.cfg.rs - s.lineOffset := List.length_take_le ..
    have hω : s.lineOffset + data.length ≤ 255 := by
      obtain ⟨_, hrs, _, hra, _⟩ := hb.facts
      have : s.lineOffset < 256 := s.lines.ω.isLt
      omega
    refine ⟨duplexCrypt s.cfg u s.lineOffset T data, _, congrArg settle (pCrypt_ok hSp hd hx ho hω), ?_⟩
    refine congrArg settle ((pCrypt_ok hTp hd (by simpa using hx) (by simpa using ho) hω).trans ?_)
    simp only [State.setPiston_cfg, ← hdata, duplexOutput_congr htake hlen, stateWithBuffer, withBuffer,
      State.setStream_setPiston, State.emit_setPiston, State.setPiston_setPiston]
  · exact .inr ⟨f, congrArg settle hf⟩

/-- `P.GETTAG` takes the same tag from two Pistons that are equal below `Rs`, or finds the same length too long. -/
theorem pGetTag_capacity :
    (∃ B, RunsAlike .pGetTag s (s.setPiston s.lineI T) s.lineI B) ∨
      ∃ f, exec .pGetTag s = .fault (.stopped f) := by
  have hSp := hb.piston_ok hS
  have hTp := hb.piston_setPiston hS hl
  by_cases hlong : s.cfg.rs < s.lineL
  · exact .inl ⟨T, _, congrArg settle (pGetTag_too_long hSp hlong), congrArg settle (pGetTag_too_long hTp hlong)⟩
  · have hle : s.lineL ≤ s.cfg.rs := Nat.le_of_not_lt hlong
    rcases State.stream_cases (s.emit .pGetTag) s.lines.dst with ⟨t, ht⟩ | ht
    · rw [State.stream_eq_ok_iff, State.emit_stream] at ht
      have htag : T.take s.lineL = S.take s.lineL := by
        simpa [List.take_take, Nat.min_eq_left hle] using congrArg (List.take s.lineL) htake
      refine .inl ⟨T, _, congrArg settle (pGetTag_ok hSp hle ht), ?_⟩
      refine congrArg settle ((pGetTag_ok hTp hle (by simpa using ht)).trans ?_)
      rw [htag, State.emit_setPiston, ← State.setStream_setPiston]
      rfl
    · right
      have hSe : (s.emit .pGetTag).piston s.lineI = .ok S := hSp
      have hnl : ¬ (s.emit .pGetTag).cfg.rs < s.lineL := hlong
      have hstuck : pGetTag s.lineI s.lines.dst s.lineL s = .error (.stuck (.noSuchStream s.lines.dst)) := by
        unfold pGetTag
        simp only [bind, Except.bind, hSe, if_neg hnl, ht]
      exact ⟨_, congrArg settle hstuck⟩

end

/-- Settles O33: both operations run alike on the two Pistons, up to the Piston's own buffer, which is no stream. -/
theorem capacityNeverLeaves : Obligations.CapacityNeverLeaves := by
  unfold Obligations.CapacityNeverLeaves
  intro op s t S T hop hb hS hl hbytes
  have htake := take_eq_of_byteAt hl hbytes
  have h : (∃ B, RunsAlike op s (s.setPiston s.lineI T) s.lineI B) ∨ ∃ f, exec op s = .fault (.stopped f) := by
    obtain rfl | ⟨u, rfl⟩ := hop
    · exact pGetTag_capacity hb hS hl htake
    · exact pCrypt_capacity hb hS hl htake u
  obtain ⟨B, h⟩ | ⟨f, h⟩ := h
  · exact ⟨fun ht => ⟨_, h.next ht, State.setPiston_stream t _ B, rfl⟩,
      fun r ht => ⟨_, h.latched ht, State.setPiston_stream t _ B, rfl⟩⟩
  · rw [h]
    exact ⟨nofun, nofun⟩

end Sys2Proof.Machine
end

section
/-! Memory (20_memory): the streams (R59 to R63), and the lane view of a state beside its byte view (R51, R52). A lane is the
sum of its bytes, so two lanes with the same bytes are equal; each view is undone by comparing bytes. -/

namespace Sys2Proof.Machine

/-! The streams (20_memory R60 to R63) -/

theorem ByteStream.hasMore_iff_pos_lt (x : ByteStream) : x.hasMore = true ↔ x.pos < x.buf.length := decide_eq_true_iff

theorem ByteStream.get_of_hasMore {x : ByteStream} (h : x.hasMore = true) :
    x.get = some (byteAt x.buf x.pos, { buf := x.buf, pos := x.pos + 1 }) := by
  have hpos := x.hasMore_iff_pos_lt.mp h
  simp [ByteStream.get, byteAt, hpos]

theorem ByteStream.put_unread {x : ByteStream} (h : x.pos ≤ x.buf.length) (v : Byte) :
    (x.put v).unread = x.unread ++ [v] :=
  List.drop_append_of_le_length h

/-- Settles O60: `put` leaves the cursor, so an exhausted stream has the new byte to read. -/
theorem streamPrimitives : Obligations.StreamPrimitives := by
  unfold Obligations.StreamPrimitives
  refine fun x v => ⟨x.hasMore_iff_pos_lt, ByteStream.get_of_hasMore, rfl, fun h => ⟨?_, ByteStream.put_unread h v⟩, rfl⟩
  rw [ByteStream.hasMore_iff, ByteStream.put_unread h]
  simp

/-! The bytes of a lane (20_memory R51) -/

/-- Byte `k` of a lane: its bits `8k + 7` to `8k`. -/
def laneByte {w : Nat} (v : BitVec w) (k : Nat) : Byte := v.extractLsb' (8 * k) 8

/-- The low `8n` bits of a lane are the sum of its first `n` bytes. -/
theorem toNat_mod_eq_sum_laneByte {w : Nat} (v : BitVec w) (n : Nat) :
    v.toNat % 2 ^ (8 * n) = ((List.range n).map fun k => (laneByte v k).toNat * 2 ^ (8 * k)).sum := by
  induction n with
  | zero => simp [Nat.mod_one]
  | succ n ih =>
    rw [List.range_succ, List.map_append, List.sum_append, ← ih, Nat.mul_succ, Nat.pow_add, Nat.mod_mul]
    simp [laneByte, Nat.shiftRight_eq_div_pow, Nat.mul_comm]

theorem toNat_eq_sum_laneByte {w : Nat} (hw : 8 ∣ w) (v : BitVec w) :
    v.toNat = ((List.range (w / 8)).map fun k => (laneByte v k).toNat * 2 ^ (8 * k)).sum := by
  rw [← toNat_mod_eq_sum_laneByte, Nat.mul_div_cancel' hw, Nat.mod_eq_of_lt v.isLt]

theorem eq_of_laneByte_eq {w : Nat} (hw : 8 ∣ w) {u v : BitVec w} (h : ∀ k, k < w / 8 → laneByte u k = laneByte v k) :
    u = v := by
  apply BitVec.eq_of_toNat_eq
  rw [toNat_eq_sum_laneByte hw u, toNat_eq_sum_laneByte hw v]
  refine congrArg List.sum (List.map_congr_left fun k hk => ?_)
  rw [h k (List.mem_range.mp hk)]

/-! Loading a lane (20_memory R52) -/

/-- A byte moved to place `n` of a lane is byte `n` of it, and the other bytes are zero. -/
theorem laneByte_shifted {w n k : Nat} (b : Byte) (hk : k < w / 8) :
    laneByte (b.setWidth w <<< (8 * n)) k = if k = n then b else 0 := by
  ext i hi
  have hin : 8 * k + i < w := by omega
  rcases lt_trichotomy k n with hkn | rfl | hkn
  · have : 8 * k + i < 8 * n := by omega
    simp [laneByte, this, hkn.ne]
  · simp [laneByte, hin, hi, BitVec.getLsbD_eq_getElem]
  · have : 8 ≤ 8 * k + i - 8 * n := by omega
    simp [laneByte, hkn.ne', BitVec.getLsbD_of_ge _ _ this]

theorem laneByte_or {w : Nat} (u v : BitVec w) (k : Nat) : laneByte (u ||| v) k = laneByte u k ||| laneByte v k :=
  BitVec.extractLsb'_or

/-- Byte `k` of the lane collected from the first `n` bytes at offset `o`. -/
theorem laneByte_foldl {w k : Nat} (S : Bytes) (o n : Nat) (hk : k < w / 8) :
    laneByte ((List.range n).foldl (fun v j => v ||| ((byteAt S (o + j)).setWidth w <<< (8 * j))) 0#w) k =
      if k < n then byteAt S (o + k) else 0 := by
  induction n with
  | zero => simp [laneByte]
  | succ n ih =>
    rw [List.range_succ, List.foldl_append, List.foldl_cons, List.foldl_nil, laneByte_or, ih, laneByte_shifted _ hk]
    rcases lt_trichotomy k n with hkn | rfl | hkn
    · simp [hkn, hkn.ne, Nat.lt_succ_of_lt hkn]
    · simp
    · simp [hkn.ne', hkn.not_gt, Nat.not_lt.mpr (Nat.succ_le_of_lt hkn)]

theorem laneByte_loadLane {w k : Nat} (S : Bytes) (o : Nat) (hk : k < w / 8) :
    laneByte (loadLane w S o) k = byteAt S (o + k) :=
  (laneByte_foldl S o (w / 8) hk).trans (if_pos hk)

/-! The two views (20_memory R52), lane by lane in the order of the lane number `x + 5y` -/

theorem lane_eq_getD {w x y : Nat} (A : Lanes w) (hx : x < 5) (hy : y < 5) : lane A x y = A.getD (x + 5 * y) 0#w := by
  rw [lane, Nat.mod_eq_of_lt hx, Nat.mod_eq_of_lt hy]

/-- Lane `j` of the lane view is loaded from offset `Wb·j`. -/
theorem lanesOf_getD {w j : Nat} (S : Bytes) (hj : j < 25) : (lanesOf w S).getD j 0#w = loadLane w S (w / 8 * j) := by
  have hsplit : j % 5 + 5 * (j / 5) = j := Nat.mod_add_div j 5
  simp [lanesOf, mkLanes, hj, hsplit]

theorem byteAt_laneBytes {w k : Nat} (v : BitVec w) (hk : k < w / 8) : byteAt (laneBytes v) k = laneByte v k := by
  simp [byteAt, laneBytes, laneByte, hk]

theorem bytesOf_cons {w : Nat} (v : BitVec w) (A : Lanes w) : bytesOf (v :: A) = laneBytes v ++ bytesOf A :=
  List.flatMap_cons

/-- Byte `k` of lane `j` stands at offset `Wb·j + k` of the byte view. -/
theorem byteAt_bytesOf {w j k : Nat} (A : Lanes w) (hj : j < A.length) (hk : k < w / 8) :
    byteAt (bytesOf A) (w / 8 * j + k) = laneByte (A.getD j 0#w) k := by
  induction A generalizing j with
  | nil => exact absurd hj (Nat.not_lt_zero j)
  | cons v A ih =>
    rw [bytesOf_cons]
    cases j with
    | zero =>
      rw [Nat.mul_zero, Nat.zero_add, List.getD_cons_zero, ← byteAt_laneBytes v hk]
      exact List.getD_append _ _ _ _ (by simpa using hk)
    | succ j =>
      rw [List.getD_cons_succ, ← ih (Nat.lt_of_succ_lt_succ hj), Nat.mul_succ, Nat.add_right_comm]
      refine (List.getD_append_right _ _ _ _ (by simp)).trans ?_
      rw [laneBytes_length, Nat.add_sub_cancel]
      rfl

/-- The lane view of the byte view is the lane array: each lane has its bytes again. -/
theorem lanesOf_bytesOf {w : Nat} (hw : 8 ∣ w) {A : Lanes w} (hA : A.length = 25) : lanesOf w (bytesOf A) = A := by
  refine List.ext_getElem (by simp [hA]) fun j hj hjA => ?_
  rw [← List.getD_eq_getElem _ 0#w hj, ← List.getD_eq_getElem _ 0#w hjA, lanesOf_getD _ (hA ▸ hjA)]
  refine eq_of_laneByte_eq hw fun k hk => ?_
  rw [laneByte_loadLane _ _ hk, byteAt_bytesOf A hjA hk]

/-- The byte view of the lane view is the state: offset `i` is byte `i mod Wb` of lane `i / Wb`. -/
theorem bytesOf_lanesOf {w : Nat} {S : Bytes} (hS : S.length = 25 * (w / 8)) : bytesOf (lanesOf w S) = S := by
  have hlen : (bytesOf (lanesOf w S)).length = S.length := by rw [bytesOf_length, lanesOf_length, hS]
  refine ext_byteAt hlen fun i hi => ?_
  have hi' : i < 25 * (w / 8) := hS ▸ hlen ▸ hi
  have hlane : i / (w / 8) < 25 := Nat.div_lt_of_lt_mul (Nat.mul_comm 25 _ ▸ hi')
  have hbyte : i % (w / 8) < w / 8 := Nat.mod_lt i (by omega)
  rw [← Nat.div_add_mod i (w / 8), byteAt_bytesOf _ (by rwa [lanesOf_length]) hbyte, lanesOf_getD S hlane,
    laneByte_loadLane _ _ hbyte]

/-- Settles O18, for every lane width of whole bytes. -/
theorem laneViewOfAState : Obligations.LaneViewOfAState := by
  unfold Obligations.LaneViewOfAState
  intro w hwidth
  have hw : 8 ∣ w := by omega
  refine ⟨fun S _ x y hx hy => ?_, fun A hA x y k hx hy hk => ?_, fun A => lanesOf_bytesOf hw, fun S => bytesOf_lanesOf⟩
  · rw [lanesOf, lane_mkLanes _ hx hy, toNat_eq_sum_laneByte hw]
    refine congrArg List.sum (List.map_congr_left fun k hk => ?_)
    rw [laneByte_loadLane _ _ (List.mem_range.mp hk)]
  · rw [lane_eq_getD A hx hy]
    exact byteAt_bytesOf A (by omega) hk

end Sys2Proof.Machine
end

section
/-! The encoding (30_encoding): the word and its fields (R80, R84, R86), the named sets and their `CONFIG` lines (R94, 00_scope
R7), and the status port (R91, R92). -/

namespace Sys2Proof.Machine

/-! The word of an operation (30_encoding R80, R84) -/

/-- The laws of the word, one for each row of the opcode table, taken together. -/
theorem wordShape : ∀ i : Instr, Laws.WordShape.Statement i
  | .fTheta => Laws.WordShape.fTheta
  | .fRhoPi => Laws.WordShape.fRhoPi
  | .fChi => Laws.WordShape.fChi
  | .fIota => Laws.WordShape.fIota
  | .fRound => Laws.WordShape.fRound
  | .fApply => Laws.WordShape.fApply
  | .pCrypt u => Laws.WordShape.pCrypt u
  | .pInject c => Laws.WordShape.pInject c
  | .pSpark e => Laws.WordShape.pSpark e
  | .pGetTag => Laws.WordShape.pGetTag
  | .eCrypt u => Laws.WordShape.eCrypt u
  | .eInject => Laws.WordShape.eInject
  | .eSpark e => Laws.WordShape.eSpark e
  | .eGetTags => Laws.WordShape.eGetTags
  | .eInjColl d => Laws.WordShape.eInjColl d
  | .mStart t u g => Laws.WordShape.mStart t u g
  | .mWrap u g => Laws.WordShape.mWrap u g
  | .mKnot => Laws.WordShape.mKnot
  | .mHandleTag t u => Laws.WordShape.mHandleTag t u

@[simp] theorem decodeWord_encodeWord (i : Instr) : decodeWord (encodeWord i) = some i := (wordShape i).1

/-- A row of the table has the fields its operation is packed from. -/
theorem encodeWord_of_decodeFields {unit op : Nat} {f2 f1 f0 : Bool} {i : Instr}
    (h : decodeFields unit op f2 f1 f0 = some i) :
    encodeWord i = packWord (BitVec.ofNat 2 unit) (BitVec.ofNat 3 op) f2 f1 f0 := by
  unfold decodeFields at h
  split at h <;> cases h <;> rfl

/-- The fields of a word are all of it. -/
theorem packWord_fields : ∀ v : Byte,
    packWord (v.extractLsb' 6 2) (v.extractLsb' 3 3) (v.getLsbD 2) (v.getLsbD 1) (v.getLsbD 0) = v := by decide

/-- A word that decodes to an operation is that operation's word. -/
theorem encodeWord_of_decodeWord {v : Byte} {i : Instr} (h : decodeWord v = some i) : encodeWord i = v := by
  have hfields := encodeWord_of_decodeFields h
  rwa [wordUnit, wordOp, BitVec.ofNat_toNat, BitVec.ofNat_toNat, BitVec.setWidth_eq, BitVec.setWidth_eq,
    packWord_fields] at hfields

theorem decode_cons_of_some {v : Byte} {i : Instr} (h : decodeWord v = some i) (rest : Bytes) :
    decode (v :: rest) = .ok (i, rest) := by simp [decode, h]

theorem decode_cons_of_none {v : Byte} (h : decodeWord v = none) (rest : Bytes) :
    decode (v :: rest) = .error (.reserved v) := by simp [decode, h]

theorem decode_encode (i : Instr) (rest : Bytes) : decode (encode i ++ rest) = .ok (i, rest) :=
  decode_cons_of_some (decodeWord_encodeWord i) rest

theorem eq_encode_of_decode {bs rest : Bytes} {i : Instr} (h : decode bs = .ok (i, rest)) : bs = encode i ++ rest := by
  cases bs with
  | nil => cases h
  | cons v tail =>
    cases hv : decodeWord v with
    | none => rw [decode_cons_of_none hv] at h; cases h
    | some j =>
      rw [decode_cons_of_some hv] at h
      cases h
      rw [encode, encodeWord_of_decodeWord hv, List.singleton_append]

/-- Settles O1: each row of the opcode table decodes its own word, and a word is all in the fields that chose its row. -/
theorem decodeEncodeAgree : Obligations.DecodeEncodeAgree := by
  unfold Obligations.DecodeEncodeAgree
  exact ⟨decode_encode, fun _ _ _ => eq_encode_of_decode⟩

/-! The reserved words, unit by unit (30_encoding R86) -/

theorem decodeFields_permutation_eq_none : ∀ (op : BitVec 3) (f2 f1 f0 : Bool),
    decodeFields 0 op.toNat f2 f1 f0 = none ↔ 6 ≤ op.toNat ∨ f2 ∨ f1 ∨ f0 := by decide

theorem decodeFields_piston_eq_none : ∀ (op : BitVec 3) (f2 f1 f0 : Bool),
    decodeFields 1 op.toNat f2 f1 f0 = none ↔ 4 ≤ op.toNat ∨ f2 ∨ f1 ∨ (op = 3 ∧ f0) := by decide

theorem decodeFields_engine_eq_none : ∀ (op : BitVec 3) (f2 f1 f0 : Bool),
    decodeFields 2 op.toNat f2 f1 f0 = none ↔ 5 ≤ op.toNat ∨ f2 ∨ f1 ∨ ((op = 1 ∨ op = 3) ∧ f0) := by decide

theorem decodeFields_motorist_eq_none : ∀ (op : BitVec 3) (f2 f1 f0 : Bool),
    decodeFields 3 op.toNat f2 f1 f0 = none ↔
      4 ≤ op.toNat ∨ (op = 1 ∧ f2) ∨ (op = 2 ∧ (f2 ∨ f1 ∨ f0)) ∨ (op = 3 ∧ f0) := by decide

/-- Settles O2: the unit field is one of four, and each unit has its own list of reserved fields. -/
theorem reservedWordsDecodeToNothing : Obligations.ReservedWordsDecodeToNothing := by
  unfold Obligations.ReservedWordsDecodeToNothing
  intro v
  have hunits : ∀ u : BitVec 2, u = 0 ∨ u = 1 ∨ u = 2 ∨ u = 3 := by decide
  rw [decodeWord, wordUnit, wordOp]
  generalize v.extractLsb' 6 2 = unit, v.extractLsb' 3 3 = op, v.getLsbD 2 = f2, v.getLsbD 1 = f1, v.getLsbD 0 = f0
  rcases hunits unit with rfl | rfl | rfl | rfl
  · simpa using decodeFields_permutation_eq_none op f2 f1 f0
  · simpa using decodeFields_piston_eq_none op f2 f1 f0
  · simpa using decodeFields_engine_eq_none op f2 f1 f0
  · simpa using decodeFields_motorist_eq_none op f2 f1 f0

/-- Settles O3: nine of the words are the words of the operations named, and `0xCC` is reserved in the Motorist's unit. -/
theorem sampleWordsDecodeRight : Obligations.SampleWordsDecodeRight := by
  unfold Obligations.SampleWordsDecodeRight
  have hreserved : decodeWord 0b11001100 = none := (decodeFields_motorist_eq_none 1 true false false).mpr (by decide)
  exact ⟨decode_encode .fRhoPi [], decode_encode .fApply [], decode_encode (.pCrypt true) [], decode_encode .pGetTag [],
    decode_encode (.eSpark true) [], decode_encode (.eInjColl true) [], decode_encode (.mStart true false false) [],
    decode_encode (.mWrap true false) [], decode_encode (.mHandleTag true false) [], decode_cons_of_none hreserved []⟩

/-! The named sets (00_scope R7, 30_encoding R94) -/

theorem namedSet_admitted (n : NamedSet) : n.cfg.admitted = true := by cases n <;> decide

/-- The name of a set stands for the line that writes out its parameters: a named set has the default `Lk` (log 28). -/
theorem configNamed_eq_configLine (n : NamedSet) :
    configNamed n = configLine n.cfg.b n.cfg.nr n.cfg.pi n.cfg.c n.cfg.tau n.cfg.rs n.cfg.ra := by cases n <;> rfl

/-- Settles O11: the default formulas at the numbers of each set, and for each name the line of its own configuration. -/
theorem namedSetsAsPrinted : Obligations.NamedSetsAsPrinted := by
  unfold Obligations.NamedSetsAsPrinted
  refine ⟨rfl, rfl, rfl, rfl, rfl, ⟨rfl, rfl, rfl⟩, fun n hn => ?_, fun n => ⟨?_, ?_, namedSet_admitted n⟩,
    configNamed_eq_configLine .river, configNamed_eq_configLine .lake, configNamed_eq_configLine .sea,
    configNamed_eq_configLine .ocean, configNamed_eq_configLine .lunar⟩
  · cases n with
    | river => exact absurd rfl hn
    | lake | sea | ocean | lunar => exact ⟨rfl, rfl, rfl⟩
  · cases n <;> rfl
  · cases n <;> rfl

/-! The status port (30_encoding R91, R92) -/

theorem State.status_result {s : State} (h : s.fault = false) : s.status.result = s.result := by simp [State.status, h]

/-- Settles O17: every field but `RESULT` shows its latch or phase in every state, `RESULT` in a state with no fault. -/
theorem statusPortCodes : Obligations.StatusPortCodes := by
  unfold Obligations.StatusPortCodes
  refine ⟨fun s => ⟨rfl, rfl, rfl, rfl, rfl, rfl, State.status_result⟩, ?_⟩
  decide

end Sys2Proof.Machine
end

section
/-! The steps of the Permutation engine (40_permutation): the generated round constants (R102) and the rotation+permutation
step as the printed table (R105, R106). -/

namespace Sys2Proof.Machine

/-! Round constants (40_permutation R102) -/

/-- The bits `2^j − 1` of `RC[r]` for `j < n`, in a lane of `w` bits. -/
def roundConstantBits (w r n : Nat) : BitVec w :=
  (List.range n).foldl (fun v j => if rcBit (j + 7 * r) then v ||| BitVec.ofNat w (2 ^ (2 ^ j - 1)) else v) 0#w

theorem roundConstant_eq_bits (l r : Nat) : roundConstant (2 ^ l) r = roundConstantBits (2 ^ l) r (l + 1) := by
  rw [roundConstant, Nat.log2_two_pow]
  rfl

theorem roundConstantBits_succ (w r n : Nat) : roundConstantBits w r (n + 1) =
    if rcBit (n + 7 * r) then roundConstantBits w r n ||| BitVec.ofNat w (2 ^ (2 ^ n - 1))
    else roundConstantBits w r n := by
  rw [roundConstantBits, List.range_succ, List.foldl_append]
  rfl

theorem setWidth_roundConstantBits {w v : Nat} (h : w ≤ v) (r n : Nat) :
    (roundConstantBits v r n).setWidth w = roundConstantBits w r n := by
  induction n with
  | zero => simp [roundConstantBits]
  | succ n ih =>
    rw [roundConstantBits_succ, roundConstantBits_succ, ← ih, ← BitVec.setWidth_ofNat_of_le h, ← BitVec.setWidth_or]
    split <;> rfl

/-- A lane of `2^l` bits has no room for a bit above the one `j = l` stands for. -/
theorem roundConstantBits_of_lt {l n : Nat} (h : l < n) (r : Nat) :
    roundConstantBits (2 ^ l) r n = roundConstantBits (2 ^ l) r (l + 1) := by
  induction n, h using Nat.le_induction with
  | base => rfl
  | succ n hn ih =>
    have hbit : 2 ^ l ≤ 2 ^ n - 1 := Nat.le_sub_one_of_lt (Nat.pow_lt_pow_right Nat.one_lt_two hn)
    have hzero : BitVec.ofNat (2 ^ l) (2 ^ (2 ^ n - 1)) = 0#(2 ^ l) :=
      BitVec.eq_of_toNat_eq (Nat.mod_eq_zero_of_dvd (Nat.pow_dvd_pow 2 hbit))
    rw [roundConstantBits_succ, hzero, BitVec.or_zero, ite_self, ih]

/-- The constants of narrower lanes are those of wider ones, truncated. -/
theorem setWidth_roundConstant {l m : Nat} (h : l ≤ m) (r : Nat) :
    (roundConstant (2 ^ m) r).setWidth (2 ^ l) = roundConstant (2 ^ l) r := by
  rw [roundConstant_eq_bits, roundConstant_eq_bits, setWidth_roundConstantBits (Nat.pow_le_pow_right Nat.two_pos h),
    roundConstantBits_of_lt (Nat.lt_succ_of_le h)]

theorem roundConstantTable_eq : roundConstantTable = (List.range 24).map (roundConstant 64) := by decide +kernel

/-- Settles O20: the generator run 24 times gives the table, and truncation only drops bits beyond the lane. -/
theorem roundConstantsAsPrinted : Obligations.RoundConstantsAsPrinted := by
  unfold Obligations.RoundConstantsAsPrinted
  refine ⟨fun r hr => by simp [roundConstantTable_eq, hr], ?_⟩
  rintro w r (rfl | rfl | rfl) _
  · exact (setWidth_roundConstant (l := 3) (m := 6) (by decide) r).symm
  · exact (setWidth_roundConstant (l := 4) (m := 6) (by decide) r).symm
  · exact (setWidth_roundConstant (l := 5) (m := 6) (by decide) r).symm

/-! Writing lanes at places all different -/

section
variable {α β : Type} (place : β → Nat) (value : β → α)

theorem getD_foldl_set_of_notMem {d : α} {j : Nat} {ps : List β} (h : j ∉ ps.map place) (B : List α) :
    (ps.foldl (fun B p => B.set (place p) (value p)) B).getD j d = B.getD j d := by
  induction ps generalizing B with
  | nil => rfl
  | cons p ps ih =>
    obtain ⟨hp, hps⟩ : j ≠ place p ∧ j ∉ ps.map place := by simpa using h
    rw [List.foldl_cons, ih hps, List.getD_eq_getElem?_getD, List.getElem?_set_ne hp.symm,
      ← List.getD_eq_getElem?_getD]

theorem getD_foldl_set_of_mem {d : α} {p : β} {ps : List β} (hp : p ∈ ps) (hdistinct : (ps.map place).Nodup)
    {B : List α} (hlen : place p < B.length) :
    (ps.foldl (fun B p => B.set (place p) (value p)) B).getD (place p) d = value p := by
  induction ps generalizing B with
  | nil => cases hp
  | cons q ps ih =>
    obtain ⟨hq, hps⟩ := List.nodup_cons.mp hdistinct
    rcases List.mem_cons.mp hp with rfl | hp
    · rw [List.foldl_cons, getD_foldl_set_of_notMem place value hq]
      simp [hlen]
    · exact ih hp hps (by simpa using hlen)

end

/-! The rotation+permutation step (40_permutation R105, R106) -/

/-- The lane number of the destination of a row of the printed table. -/
def rotationPlace (p : Nat × Nat × Nat) : Nat := p.2.1 + 5 * ((2 * p.1 + 3 * p.2.1) % 5)

/-- The lane a row of the printed table moves and rotates. -/
def rotatedLane {w : Nat} (A : Lanes w) (p : Nat × Nat × Nat) : BitVec w := rotl (lane A p.1 p.2.1) p.2.2

/-- The rows of `n` steps of the walk from position `(x, y)` at step `t`. -/
def walkRows : Nat → Nat → Nat → Nat → List (Nat × Nat × Nat)
  | 0, _, _, _ => []
  | n + 1, t, x, y => (x, y, (t + 1) * (t + 2) / 2) :: walkRows n (t + 1) y ((2 * x + 3 * y) % 5)

theorem rotationTable_eq_walkRows : rotationTable = walkRows 24 0 1 0 := by decide

/-- A walk that carries the lane it stands on moves and rotates the lanes of its rows. -/
theorem rhoPiWalk_eq_foldl {w : Nat} (A B : Lanes w) (n t x y : Nat) : rhoPiWalk A n t x y (lane A x y) B =
    (walkRows n t x y).foldl (fun B p => B.set (rotationPlace p) (rotatedLane A p)) B := by
  induction n generalizing t x y B with
  | zero => rfl
  | succ n ih => exact ih ..

/-- The step is the printed table. -/
theorem rhoPi_eq_foldl_rotationTable {w : Nat} (A : Lanes w) :
    rhoPi A = rotationTable.foldl (fun B p => B.set (rotationPlace p) (rotatedLane A p)) A := by
  rw [rotationTable_eq_walkRows]
  exact rhoPiWalk_eq_foldl A A 24 0 1 0

theorem rotationPlaces_nodup : (rotationTable.map rotationPlace).Nodup := by decide

theorem zero_notMem_rotationPlaces : 0 ∉ rotationTable.map rotationPlace := by decide

theorem rotationTable_bounds : ∀ p ∈ rotationTable, p.2.1 < 5 ∧ rotationPlace p < 25 := by decide

/-- Lane `(0,0)` is not on the cycle. -/
theorem lane_rhoPi_zero {w : Nat} (A : Lanes w) : lane (rhoPi A) 0 0 = lane A 0 0 := by
  rw [rhoPi_eq_foldl_rotationTable]
  exact getD_foldl_set_of_notMem rotationPlace (rotatedLane A) zero_notMem_rotationPlaces A

theorem lane_rhoPi_of_mem {w : Nat} {A : Lanes w} (hA : A.length = 25) {p : Nat × Nat × Nat} (hp : p ∈ rotationTable) :
    lane (rhoPi A) p.2.1 ((2 * p.1 + 3 * p.2.1) % 5) = rotl (lane A p.1 p.2.1) p.2.2 := by
  obtain ⟨hx, hplace⟩ := rotationTable_bounds p hp
  rw [rhoPi_eq_foldl_rotationTable, lane_eq_getD _ hx (Nat.mod_lt _ (by decide))]
  exact getD_foldl_set_of_mem rotationPlace (rotatedLane A) hp rotationPlaces_nodup (hA ▸ hplace)

/-! The other steps (40_permutation R103, R107, R108) -/

theorem lane_mod {w : Nat} (A : Lanes w) (x y : Nat) : lane A (x % 5) y = lane A x y := by simp [lane]

theorem columnParity_getD {w : Nat} (A : Lanes w) (x : Nat) : (columnParity A).getD (x % 5) 0#w =
    lane A x 0 ^^^ lane A x 1 ^^^ lane A x 2 ^^^ lane A x 3 ^^^ lane A x 4 := by
  have hx : x % 5 < 5 := Nat.mod_lt x (by decide)
  simp [columnParity, hx, lane_mod]

theorem lane_theta {w : Nat} (A : Lanes w) {x y : Nat} (hx : x < 5) (hy : y < 5) : lane (theta A) x y =
    lane A x y ^^^ ((columnParity A).getD ((x + 4) % 5) 0#w ^^^ rotl ((columnParity A).getD ((x + 1) % 5) 0#w) 1) := by
  rw [theta, addColumns, lane_mkLanes _ hx hy]
  simp [thetaEffect, hx]

theorem lane_chi {w : Nat} (A : Lanes w) {x y : Nat} (hx : x < 5) (hy : y < 5) :
    lane (chi A) x y = lane A x y ^^^ (~~~ lane A ((x + 1) % 5) y &&& lane A ((x + 2) % 5) y) := by
  rw [chi, lane_mkLanes _ hx hy, lane_mod, lane_mod]

theorem lane_iota_zero {w : Nat} (r : Nat) {A : Lanes w} (hA : A.length = 25) :
    lane (iota r A) 0 0 = lane A 0 0 ^^^ roundConstant w r := by
  have hpos : 0 < A.length := by omega
  rw [iota, lane_eq_getD _ (by decide) (by decide)]
  simp [hpos]

theorem lane_iota_of_ne {w : Nat} (r : Nat) (A : Lanes w) {x y : Nat} (hx : x < 5) (hy : y < 5) (hxy : (x, y) ≠ (0, 0)) :
    lane (iota r A) x y = lane A x y := by
  have hplace : 0 ≠ x + 5 * y := fun h => hxy (by rw [show x = 0 by omega, show y = 0 by omega])
  rw [iota, lane_eq_getD _ hx hy, lane_eq_getD _ hx hy, List.getD_eq_getElem?_getD, List.getElem?_set_ne hplace,
    ← List.getD_eq_getElem?_getD]

/-! Steps on the byte view, and rounds (40_permutation R104, R110) -/

/-- A step on the byte view of a lane array. -/
def stepBytes {w : Nat} (f : Lanes w → Lanes w) (S : Bytes) : Bytes := bytesOf (f (lanesOf w S))

/-- The second step works on the lanes the first one made. -/
theorem stepBytes_stepBytes {w : Nat} (hw : 8 ∣ w) (f g : Lanes w → Lanes w) {S : Bytes}
    (hf : (f (lanesOf w S)).length = 25) : stepBytes g (stepBytes f S) = stepBytes (fun A => g (f A)) S := by
  rw [stepBytes, stepBytes, lanesOf_bytesOf hw hf, stepBytes]

/-- A round on the byte view is its four steps on the byte view. -/
theorem stepBytes_permRound {w : Nat} (hw : 8 ∣ w) (r : Nat) (S : Bytes) : stepBytes (permRound (w := w) r) S =
    stepBytes (w := w) (iota r) (stepBytes (w := w) chi (stepBytes (w := w) rhoPi (stepBytes (w := w) theta S))) := by
  rw [stepBytes_stepBytes hw theta rhoPi (theta_length _), stepBytes_stepBytes hw _ chi (by simp),
    stepBytes_stepBytes hw (fun A => chi (rhoPi (theta A))) (iota r) (chi_length _)]
  rfl

/-- One more round is the round that comes next, on the result of those before. -/
theorem permRounds_succ {w : Nat} (n r : Nat) (A : Lanes w) :
    permRounds r (n + 1) A = permRound (r + n) (permRounds r n A) := by
  induction n generalizing r A with
  | zero => rfl
  | succ n ih =>
    calc permRounds r (n + 1 + 1) A = permRounds (r + 1) (n + 1) (permRound r A) := rfl
      _ = permRound (r + 1 + n) (permRounds r (n + 1) A) := ih (r + 1) (permRound r A)
      _ = permRound (r + (n + 1)) (permRounds r (n + 1) A) := by rw [Nat.add_assoc, Nat.add_comm 1 n]

end Sys2Proof.Machine
end

section
/-! The operations of the Permutation engine issued by themselves (40_permutation R103 to R110; log 7, 11): the exact state
each leaves, and the statements they settle. -/

namespace Sys2Proof.Machine

/-! What each operation leaves -/

/-- `lines.state` is the byte view of 25 lanes (20_memory R52). -/
structure State.HasLanes (s : State) : Prop where
  layout : s.cfg.hasLayout = true
  length : s.lines.state.length = s.cfg.stateBytes

/-- A width with a layout has lanes of whole bytes (20_memory R52). -/
theorem Cfg.eight_dvd_w {c : Cfg} (h : c.hasLayout = true) : 8 ∣ c.w := by
  obtain ⟨_, _, hw, _⟩ := Cfg.layout_facts h
  exact hw

theorem bytesOf_length_eq_stateBytes {c : Cfg} (hc : c.hasLayout = true) {A : Lanes c.w} (hA : A.length = 25) :
    (bytesOf A).length = c.stateBytes := by
  rw [bytesOf_length, hA, (Cfg.layout_facts hc).1]

theorem State.emitAll_emit (s : State) (i : Instr) (is : List Instr) : (s.emit i).emitAll is = s.emitAll (i :: is) := by
  simp [State.emit, State.emitAll]

theorem settle_withArray_of_ok {f : Bytes → State → Result (Bytes × State)} {s t : State} {A : Bytes}
    (h : f s.lines.state s = .ok (A, t)) : settle (withArray f s) = .next (t.setArray A) := by
  rw [withArray, h]
  rfl

/-- The state `s` with the result of the step `f` on the line and the word of `i` on the trace. -/
def State.afterStep (s : State) (i : Instr) (f : {w : Nat} → Lanes w → Lanes w) : State :=
  (s.emit i).setArray (stepBytes (w := s.cfg.w) f s.lines.state)

section
variable {s : State} (h : s.HasLanes)
include h

/-- A step of the unit, issued by itself on a lane array, leaves its result and its word. -/
theorem settle_onLanes (i : Instr) (f : {w : Nat} → Lanes w → Lanes w) :
    settle (withArray (fun A t => onLanes f A (t.emit i)) s) = .next (s.afterStep i f) :=
  settle_withArray_of_ok (onLanes_ok f (s := s.emit i) h.layout h.length)

theorem exec_fTheta : exec .fTheta s = .next (s.afterStep .fTheta theta) := settle_onLanes h .fTheta theta

theorem exec_fRhoPi : exec .fRhoPi s = .next (s.afterStep .fRhoPi rhoPi) := settle_onLanes h .fRhoPi rhoPi

theorem exec_fChi : exec .fChi s = .next (s.afterStep .fChi chi) := settle_onLanes h .fChi chi

theorem exec_fIota : exec .fIota s = .next (s.afterStep .fIota (iota s.lineR)) := settle_onLanes h .fIota (iota s.lineR)

theorem exec_fRound : exec .fRound s = .next ((s.emitAll (.fRound :: roundTrace)).setArray
    (stepBytes (w := s.cfg.w) (permRound s.lineR) s.lines.state)) := by
  rw [← State.emitAll_emit]
  exact settle_withArray_of_ok (onLanes_ok (permRound s.lineR) (s := (s.emit .fRound).emitAll roundTrace) h.layout h.length)

theorem exec_fApply : exec .fApply s = .next ((s.emitAll (.fApply :: applyTrace s.cfg.nr)).setArray
    (permute s.cfg.w s.cfg.nr s.cfg.start s.lines.state)) := by
  rw [← State.emitAll_emit]
  exact settle_withArray_of_ok (fApply_ok h.layout h.length)

theorem State.HasLanes.afterStep {i : Instr} {f : {w : Nat} → Lanes w → Lanes w}
    (hf : (f (lanesOf s.cfg.w s.lines.state)).length = 25) : (s.afterStep i f).HasLanes :=
  ⟨h.layout, bytesOf_length_eq_stateBytes h.layout hf⟩

end

theorem exec_fApply_of_length_ne {s : State} (h : s.lines.state.length ≠ s.cfg.stateBytes) :
    exec .fApply s = latch (.stateLengthMismatch s.lines.state.length) (s.emit .fApply) := by
  show settle (withArray fApply s) = _
  rw [withArray, fApply, if_pos h]
  rfl

/-! The four steps -/

/-- Settles O21: a column's effect is made of the parities of its two neighbours. -/
theorem thetaCompletes : Obligations.ThetaCompletes := by
  unfold Obligations.ThetaCompletes
  refine ⟨decode_encode .fTheta [], fun s A C hlay hlen hA hC => ?_⟩
  subst hA
  refine ⟨theta (lanesOf s.cfg.w s.lines.state), theta_length _, fun x y hx hy => ?_, exec_fTheta ⟨hlay, hlen⟩⟩
  rw [lane_theta _ hx hy, columnParity_getD, columnParity_getD, hC, hC]

/-- Settles O22: the walk is the printed table, whose destinations are all different and never lane `(0,0)`. -/
theorem rhoPiCompletes : Obligations.RhoPiCompletes := by
  unfold Obligations.RhoPiCompletes
  refine ⟨decode_encode .fRhoPi [], fun s A hlay hlen hA => ?_⟩
  subst hA
  have hlanes := lanesOf_length (w := s.cfg.w) s.lines.state
  exact ⟨rhoPi (lanesOf s.cfg.w s.lines.state), (rhoPi_length _).trans hlanes, lane_rhoPi_zero _,
    fun p => lane_rhoPi_of_mem hlanes, exec_fRhoPi ⟨hlay, hlen⟩⟩

/-- Settles O23: every lane is built from three lanes of the array before the step. -/
theorem chiCompletes : Obligations.ChiCompletes := by
  unfold Obligations.ChiCompletes
  refine ⟨decode_encode .fChi [], fun s A hlay hlen hA => ?_⟩
  subst hA
  exact ⟨chi (lanesOf s.cfg.w s.lines.state), chi_length _, fun x y => lane_chi _, exec_fChi ⟨hlay, hlen⟩⟩

/-- Settles O24: one lane is written. -/
theorem iotaCompletes : Obligations.IotaCompletes := by
  unfold Obligations.IotaCompletes
  refine ⟨decode_encode .fIota [], fun s A hlay hlen hA => ?_⟩
  subst hA
  have hlanes := lanesOf_length (w := s.cfg.w) s.lines.state
  exact ⟨iota s.lineR (lanesOf s.cfg.w s.lines.state), (iota_length _ _).trans hlanes, lane_iota_zero _ hlanes,
    fun x y => lane_iota_of_ne _ _, exec_fIota ⟨hlay, hlen⟩⟩

/-! The round and the permutation -/

/-- Settles O25: the lane view of each step's result is the lane array the step made. -/
theorem roundIsTheFourSteps : Obligations.RoundIsTheFourSteps := by
  unfold Obligations.RoundIsTheFourSteps
  refine ⟨decode_encode .fRound [], fun s hlay hlen => ?_⟩
  have h : s.HasLanes := ⟨hlay, hlen⟩
  have h₁ := h.afterStep (i := .fTheta) (f := theta) (theta_length _)
  have h₂ := h₁.afterStep (i := .fRhoPi) (f := rhoPi) ((rhoPi_length _).trans (lanesOf_length _))
  have h₃ := h₂.afterStep (i := .fChi) (f := chi) (chi_length _)
  refine ⟨_, _, _, _, exec_fTheta h, exec_fRhoPi h₁, exec_fChi h₂, exec_fIota h₃, ?_⟩
  rw [exec_fRound h, stepBytes_permRound (Cfg.eight_dvd_w hlay)]
  -- what the steps leave alone is read back to `s`
  dsimp [State.afterStep, State.lineR]
  rfl

/-- The block before round `k` of the permutation: the round's index and the lanes made so far on the lines. -/
def State.beforeRound (s : State) (k : Nat) : State :=
  { s with lines := { s.lines with
      r := BitVec.ofNat 8 (s.cfg.start + k)
      state := bytesOf (permRounds s.cfg.start k (lanesOf s.cfg.w s.lines.state)) } }

theorem State.HasLanes.beforeRound {s : State} (h : s.HasLanes) (k : Nat) : (s.beforeRound k).HasLanes :=
  ⟨h.layout, bytesOf_length_eq_stateBytes h.layout (permRounds_length _ _ _ (lanesOf_length _))⟩

theorem State.lineR_beforeRound {s : State} {k : Nat} (hk : s.cfg.start + k < 256) :
    (s.beforeRound k).lineR = s.cfg.start + k :=
  (BitVec.toNat_ofNat ..).trans (Nat.mod_eq_of_lt hk)

/-- `F.ROUND` makes the lanes of the next round from those of this one. -/
theorem exec_fRound_beforeRound {s : State} (h : s.HasLanes) {k : Nat} (hk : s.cfg.start + k < 256) :
    ∃ t, exec .fRound (s.beforeRound k) = .next t ∧ t.lines.state = (s.beforeRound (k + 1)).lines.state := by
  refine ⟨_, exec_fRound (h.beforeRound k), ?_⟩
  have hlanes : lanesOf s.cfg.w (s.beforeRound k).lines.state = _ :=
    lanesOf_bytesOf (Cfg.eight_dvd_w h.layout) (permRounds_length k s.cfg.start _ (lanesOf_length s.lines.state))
  show bytesOf (permRound _ (lanesOf s.cfg.w (s.beforeRound k).lines.state)) = bytesOf (permRounds _ (k + 1) _)
  rw [State.lineR_beforeRound hk, hlanes, permRounds_succ]

/-- A configuration with a layout has at most 24 nominal rounds (00_scope R6). -/
theorem nominalRounds_le {c : Cfg} (h : c.hasLayout = true) : nominalRounds c.b ≤ 24 := by
  rcases (Cfg.hasLayout_iff c).mp h with hb | hb | hb | hb <;> rw [hb] <;> decide

theorem applyTrace_words (n : Nat) : (applyTrace n).map encodeWord =
    (List.replicate n [0x20, 0x00, 0x08, 0x10, 0x18]).flatten := by
  rw [applyTrace, List.map_flatten, List.map_replicate]
  rfl

/-- Settles O26: the rounds one by one, each on the block before it. -/
theorem applyRunsTheLastRounds : Obligations.ApplyRunsTheLastRounds := by
  unfold Obligations.ApplyRunsTheLastRounds
  refine ⟨decode_encode .fApply [], fun s hadm hlen => ?_, fun s hlen => exec_fApply_of_length_ne hlen⟩
  obtain ⟨hlay, _, hnr, _⟩ := (Cfg.admitted_iff s.cfg).mp hadm
  have h : s.HasLanes := ⟨hlay, hlen⟩
  have hrounds := nominalRounds_le hlay
  refine ⟨s.beforeRound, ?_, fun k hk => ?_, (h.beforeRound _).length, ?_⟩
  · exact bytesOf_lanesOf (hlen.trans (Cfg.layout_facts hlay).1)
  · have hindex : s.cfg.start + k < 256 := by unfold Cfg.start; omega
    exact ⟨rfl, State.lineR_beforeRound hindex, exec_fRound_beforeRound h hindex⟩
  · rw [exec_fApply h, ← applyTrace_words]
    rfl

end Sys2Proof.Machine
end

section
/-! The Piston operations issued by themselves (41_piston R130 to R133; log 6, 11): the duplex functions byte by byte, the exact
state each operation leaves, and the statements they settle. -/

namespace Sys2Proof.Machine

/-! Data in a Piston's state (41_piston R130, R131) -/

theorem byteAt_storeAt_ne (S : Bytes) {j k : Nat} (v : Byte) (h : j ≠ k) : byteAt (storeAt S k v) j = byteAt S j := by
  simp [byteAt, storeAt, h.symm]

theorem byteAt_take (S : Bytes) {k n : Nat} (h : k < n) : byteAt (S.take n) k = byteAt S k := by
  simp [byteAt, h]

/-- Crypting leaves the bytes outside the data's place. -/
theorem byteAt_cryptData_outside (u : Bool) (S data : Bytes) {ω j : Nat} (h : ¬ (ω ≤ j ∧ j < ω + data.length)) :
    byteAt (cryptData u S ω data) j = byteAt S j := by
  induction data generalizing S ω with
  | nil => rfl
  | cons x xs ih =>
    rw [List.length_cons] at h
    rw [cryptData, ih _ (by omega), byteAt_storeAt_ne S _ (by omega)]

/-- Crypting puts the byte received, when unwrapping, or the byte emitted at each offset of the data's place. -/
theorem byteAt_cryptData (u : Bool) {S data : Bytes} {ω k : Nat} (hk : k < data.length) (hS : ω + k < S.length) :
    byteAt (cryptData u S ω data) (ω + k) = if u then byteAt data k else byteAt S (ω + k) ^^^ byteAt data k := by
  induction data generalizing S ω k with
  | nil => exact absurd hk (Nat.not_lt_zero k)
  | cons x xs ih =>
    cases k with
    | zero =>
      have hfirst : byteAt (cryptData u S ω (x :: xs)) ω = if u then x else byteAt S ω ^^^ x := by
        rw [cryptData, byteAt_cryptData_outside u _ xs (by omega), byteAt_storeAt S ω ω _ hS, if_pos rfl]
      exact hfirst
    | succ k =>
      have hplace : ω + (k + 1) = ω + 1 + k := by omega
      rw [hplace] at hS ⊢
      rw [cryptData, ih (Nat.lt_of_succ_lt_succ hk) (by rwa [storeAt_length]), byteAt_storeAt_ne S _ (by omega)]
      rfl

/-- Injecting stores what crypting in the wrapping direction does: data XORed in. -/
theorem xorData_eq_cryptData (S data : Bytes) (ω : Nat) : xorData S ω data = cryptData false S ω data := by
  induction data generalizing S ω with
  | nil => rfl
  | cons x xs ih => exact ih (xorAt S ω x) (ω + 1)

theorem duplexOutput_length_of_fits {S data : Bytes} {ω : Nat} (h : data.length ≤ S.length - ω) :
    (duplexOutput ω S data).length = data.length := by
  simpa [duplexOutput] using h

theorem byteAt_duplexOutput {S data : Bytes} {ω k : Nat} (hk : k < data.length) (hS : ω + k < S.length) :
    byteAt (duplexOutput ω S data) k = byteAt S (ω + k) ^^^ byteAt data k := by
  have hdrop : k < S.length - ω := by omega
  simp [byteAt, duplexOutput, hk, hS, hdrop]

/-- What an unwrapping Piston emits for bytes a wrapping one emitted from the same state: the data given to that one. -/
theorem duplexOutput_duplexOutput {S data : Bytes} {ω : Nat} (h : data.length ≤ S.length - ω) :
    duplexOutput ω S (duplexOutput ω S data) = data := by
  have hlen := duplexOutput_length_of_fits h
  have hlen' := (duplexOutput_length_of_fits (hlen.trans_le h)).trans hlen
  refine ext_byteAt hlen' fun k hk => ?_
  have hkd : k < data.length := by omega
  rw [byteAt_duplexOutput (by omega) (by omega), byteAt_duplexOutput hkd (by omega), ← BitVec.xor_assoc, BitVec.xor_self,
    BitVec.zero_xor]

/-- An unwrapping Piston stores the bytes it receives, which a wrapping one stored as it emitted them. -/
theorem cryptData_duplexOutput {S data : Bytes} {ω : Nat} (h : data.length ≤ S.length - ω) :
    cryptData true S ω (duplexOutput ω S data) = cryptData false S ω data := by
  induction data generalizing S ω with
  | nil => simp [duplexOutput, cryptData]
  | cons x xs ih =>
    rw [List.length_cons] at h
    rw [duplexOutput_cons (by omega) x xs (byteAt S ω ^^^ x)]
    exact ih (by rw [storeAt_length]; omega)

/-! A built Piston's state after `P.CRYPT` and `P.INJECT` (41_piston R130, R131): the data stands below `Ra`, the reserved
bytes above. -/

section
variable {c : Cfg} {S data : Bytes} (hS : pistonBuilt c S = true)
include hS

section
variable {ω : Nat} (hfit : data.length ≤ c.rs - ω)
include hfit

theorem fits_of_pistonBuilt : data.length ≤ S.length - ω := by
  obtain ⟨hlen, hrs, hra⟩ := (pistonBuilt_iff c S).mp hS
  omega

theorem byteAt_duplexCrypt_data (u : Bool) {k : Nat} (hk : k < data.length) :
    byteAt (duplexCrypt c u ω S data) (ω + k) = if u then byteAt data k else byteAt S (ω + k) ^^^ byteAt data k := by
  obtain ⟨hlen, hrs, hra⟩ := (pistonBuilt_iff c S).mp hS
  have hend : ω + k ≠ c.cryptEnd := by unfold Cfg.cryptEnd; omega
  rw [duplexCrypt, byteAt_xorAt_ne _ _ hend, byteAt_cryptData u hk (by omega)]

theorem byteAt_duplexCrypt_cryptEnd (u : Bool) : byteAt (duplexCrypt c u ω S data) c.cryptEnd =
    byteAt S c.cryptEnd ^^^ BitVec.ofNat 8 (ω + data.length) := by
  obtain ⟨hlen, hrs, hra⟩ := (pistonBuilt_iff c S).mp hS
  have hend : c.cryptEnd = c.ra + 1 := rfl
  rw [duplexCrypt, byteAt_xorAt _ _ _ _ (by rw [cryptData_length]; omega), if_pos rfl,
    byteAt_cryptData_outside u S data (by omega)]

/-- What corner case b of R130 says of one Piston's bytes. -/
theorem duplexCrypt_duplexOutput :
    duplexCrypt c true ω S (duplexOutput ω S data) = duplexCrypt c false ω S data := by
  have h := fits_of_pistonBuilt hS hfit
  rw [duplexCrypt, cryptData_duplexOutput h, duplexOutput_length_of_fits h, duplexCrypt]

end

section
variable {b : Bool} (hfit : data.length ≤ injectRoom c b)
include hfit

theorem byteAt_duplexInject_data {k : Nat} (hk : k < data.length) :
    byteAt (duplexInject c b S data) (injectFrom c b + k) = byteAt S (injectFrom c b + k) ^^^ byteAt data k := by
  obtain ⟨hlen, -, hra⟩ := (pistonBuilt_iff c S).mp hS
  unfold injectRoom at hfit
  have hstart : injectFrom c b + k ≠ c.injectStart := by unfold Cfg.injectStart; omega
  have hend : injectFrom c b + k ≠ c.injectEnd := by unfold Cfg.injectEnd; omega
  rw [duplexInject, byteAt_xorAt_ne _ _ hend, xorData_eq_cryptData, byteAt_cryptData false hk (by rw [xorAt_length]; omega),
    byteAt_xorAt_ne S _ hstart]
  rfl

theorem byteAt_duplexInject_injectStart : byteAt (duplexInject c b S data) c.injectStart =
    byteAt S c.injectStart ^^^ BitVec.ofNat 8 (injectFrom c b) := by
  obtain ⟨hlen, -, hra⟩ := (pistonBuilt_iff c S).mp hS
  unfold injectRoom at hfit
  have hstart : c.injectStart = c.ra + 2 := rfl
  have hend : c.injectEnd = c.ra + 3 := rfl
  rw [duplexInject, byteAt_xorAt_ne _ _ (by omega), xorData_eq_cryptData, byteAt_cryptData_outside false _ data (by omega),
    byteAt_xorAt S _ _ _ (by omega), if_pos rfl]

theorem byteAt_duplexInject_injectEnd : byteAt (duplexInject c b S data) c.injectEnd =
    byteAt S c.injectEnd ^^^ BitVec.ofNat 8 (injectFrom c b + data.length) := by
  obtain ⟨hlen, -, hra⟩ := (pistonBuilt_iff c S).mp hS
  unfold injectRoom at hfit
  have hstart : c.injectStart = c.ra + 2 := rfl
  have hend : c.injectEnd = c.ra + 3 := rfl
  rw [duplexInject, byteAt_xorAt _ _ _ _ (by rw [xorData_length, xorAt_length]; omega), if_pos rfl, xorData_eq_cryptData,
    byteAt_cryptData_outside false _ data (by omega), byteAt_xorAt_ne S _ (by omega)]

end

end

theorem byteAt_duplexCrypt_frame {c : Cfg} (u : Bool) (S : Bytes) {data : Bytes} {ω j : Nat}
    (hdata : ¬ (ω ≤ j ∧ j < ω + data.length)) (hend : j ≠ c.cryptEnd) :
    byteAt (duplexCrypt c u ω S data) j = byteAt S j := by
  rw [duplexCrypt, byteAt_xorAt_ne _ _ hend, byteAt_cryptData_outside u S data hdata]

theorem byteAt_duplexInject_frame {c : Cfg} {b : Bool} (S : Bytes) {data : Bytes} {j : Nat}
    (hdata : ¬ (injectFrom c b ≤ j ∧ j < injectFrom c b + data.length)) (hstart : j ≠ c.injectStart)
    (hend : j ≠ c.injectEnd) : byteAt (duplexInject c b S data) j = byteAt S j := by
  rw [duplexInject, byteAt_xorAt_ne _ _ hend, xorData_eq_cryptData, byteAt_cryptData_outside false _ data hdata,
    byteAt_xorAt_ne S _ hstart]

/-! The words (30_encoding R84) -/

theorem encodeWord_pCrypt (u : Bool) : encodeWord (.pCrypt u) = if u then 0x41 else 0x40 := by cases u <;> rfl

theorem encodeWord_pInject (b : Bool) : encodeWord (.pInject b) = if b then 0x49 else 0x48 := by cases b <;> rfl

theorem encodeWord_pSpark (e : Bool) : encodeWord (.pSpark e) = if e then 0x51 else 0x50 := by cases e <;> rfl

theorem decode_encodeWord (i : Instr) : decode [encodeWord i] = .ok (i, []) := decode_encode i []

theorem sparkTrace_words (c : Cfg) (e : Bool) : (sparkTrace c e).map encodeWord =
    (if e then 0x51 else 0x50) :: 0x28 :: (List.replicate c.nr [0x20, 0x00, 0x08, 0x10, 0x18]).flatten := by
  rw [sparkTrace, List.map_cons, List.map_cons, applyTrace_words, encodeWord_pSpark]
  rfl

/-! What each operation leaves on a built block -/

theorem State.Built.pistonBuilt {s : State} (h : s.Built) {i : Nat} {S : Bytes} (hS : s.pistons[i]? = some S) :
    pistonBuilt s.cfg S = true :=
  ((State.piston_eq_ok_iff s i S).mp (h.piston_ok hS)).2

theorem State.setCore_stream (s : State) (ps : List Bytes) (tr : List Byte) (n : StreamName) :
    (s.setCore ps tr).stream? n = s.stream? n := by
  cases n with
  | port p => cases p <;> rfl
  | tPrime => rfl
  | xt k => rfl

/-- The bytes a `P.CRYPT` issued by itself takes from `x`: what is unread, as far as `Rs` (41_piston R130). -/
def State.cryptTaken (s : State) (x : ByteStream) : Bytes := x.unread.take (s.cfg.rs - s.lineOffset)

/-- The bytes it emits (41_piston R130). -/
def State.cryptEmitted (s : State) (S : Bytes) (x : ByteStream) : Bytes :=
  duplexOutput s.lineOffset S (s.cryptTaken x)

/-- The block after a `P.CRYPT` issued by itself (41_piston R130; log 6, 11). -/
def State.afterCrypt (s : State) (u : Bool) (S : Bytes) (x o : ByteStream) : State :=
  ((s.setStream s.lines.src (x.advance (s.cryptTaken x).length)).setStream s.lines.dst
      (o.putAll (s.cryptEmitted S x))).setCore
    (s.pistons.set s.lineI (duplexCrypt s.cfg u s.lineOffset S (s.cryptTaken x)))
    (s.trace ++ [encodeWord (.pCrypt u)])

theorem State.afterCrypt_output {s : State} {x o : ByteStream} (u : Bool) (S : Bytes) (hd : s.lines.src ≠ s.lines.dst)
    (hx : s.stream? s.lines.src = some x) (ho : s.stream? s.lines.dst = some o) :
    (s.afterCrypt u S x o).stream? s.lines.dst = some (o.putAll (s.cryptEmitted S x)) := by
  have ho' : (s.setStream s.lines.src (x.advance (s.cryptTaken x).length)).stream? s.lines.dst = some o := by
    rw [State.setStream_stream _ _ _ _ _ hx, if_neg hd.symm, ho]
  rw [State.afterCrypt, State.setCore_stream, State.setStream_stream _ _ _ _ _ ho', if_pos rfl]

section
variable {s : State} {S : Bytes} (hb : s.Built) (hS : s.pistons[s.lineI]? = some S)
include hb hS

theorem exec_pCrypt {x o : ByteStream} (u : Bool) (hd : s.lines.src ≠ s.lines.dst) (hx : s.stream? s.lines.src = some x)
    (ho : s.stream? s.lines.dst = some o) : exec (.pCrypt u) s = .next (s.afterCrypt u S x o) := by
  have hω : s.lineOffset + (s.cryptTaken x).length ≤ 255 := by
    obtain ⟨_, hrs, _, hra, _⟩ := hb.facts
    have htaken : (s.cryptTaken x).length ≤ s.cfg.rs - s.lineOffset := List.length_take_le ..
    have hoffset : s.lineOffset < 256 := s.lines.ω.isLt
    omega
  refine (congrArg settle (pCrypt_ok (hb.piston_ok hS) hd hx ho hω)).trans (congrArg Host.Outcome.next ?_)
  rw [State.afterCrypt, ← State.setCore_setStream, ← State.setCore_setStream]
  rfl

theorem exec_pInject {x : ByteStream} (b : Bool) (hx : s.stream? s.lines.src = some x) : exec (.pInject b) s = .next
    ((s.setStream s.lines.src (x.advance (x.unread.take (injectRoom s.cfg b)).length)).setCore
      (s.pistons.set s.lineI (duplexInject s.cfg b S (x.unread.take (injectRoom s.cfg b))))
      (s.trace ++ [encodeWord (.pInject b)])) := by
  obtain ⟨_, _, _, hra, _⟩ := hb.facts
  refine (congrArg settle (pInject_ok (hb.piston_ok hS) hx hra)).trans (congrArg Host.Outcome.next ?_)
  rw [← State.setCore_setStream]
  rfl

theorem exec_pSpark (e : Bool) : exec (.pSpark e) s = .next (s.setCore
    (s.pistons.set s.lineI (duplexSpark s.cfg e s.lineL S)) (s.trace ++ (sparkTrace s.cfg e).map encodeWord)) := by
  obtain ⟨hlay, _⟩ := hb.facts
  have hl : s.lineL ≤ 255 := Nat.le_of_lt_succ s.lines.l.isLt
  exact congrArg settle (pSpark_ok (hb.piston_ok hS) hlay hl)

theorem exec_pGetTag {t : ByteStream} (hl : s.lineL ≤ s.cfg.rs) (ht : s.stream? s.lines.dst = some t) :
    exec .pGetTag s = .next ((s.setStream s.lines.dst (t.putAll (S.take s.lineL))).emit .pGetTag) := by
  rw [State.emit_setStream]
  exact congrArg settle (pGetTag_ok (hb.piston_ok hS) hl ht)

theorem exec_pGetTag_of_lt (hl : s.cfg.rs < s.lineL) :
    exec .pGetTag s = latch (.tagTooLong s.lineL) (s.emit .pGetTag) :=
  congrArg settle (pGetTag_too_long (hb.piston_ok hS) hl)

end

/-! The statements -/

/-- Settles O27: the data stands below `Rs`, so `CryptEnd` is none of its offsets. -/
theorem cryptCompletes : Obligations.CryptCompletes := by
  unfold Obligations.CryptCompletes
  intro u s S x o n hb hS hd hx ho hn
  have hc := hb.pistonBuilt hS
  have hlen : (s.cryptTaken x).length = n := by rw [State.cryptTaken, List.length_take, hn, Nat.min_comm]
  have hfit : (s.cryptTaken x).length ≤ s.cfg.rs - s.lineOffset := List.length_take_le ..
  have hin := fits_of_pistonBuilt hc hfit
  have hbyte (k : Nat) (hk : k < n) : byteAt (s.cryptTaken x) k = byteAt x.unread k := byteAt_take _ (by omega)
  rw [← encodeWord_pCrypt]
  refine ⟨decode_encodeWord _, duplexCrypt s.cfg u s.lineOffset S (s.cryptTaken x), s.cryptEmitted S x,
    duplexCrypt_length .., (duplexOutput_length_of_fits hin).trans hlen, fun k hk => ?_, fun k hk => ?_, ?_,
    fun j hj hend => ?_, ?_⟩
  · rw [State.cryptEmitted, byteAt_duplexOutput (by omega) (by omega), hbyte k hk]
  · rw [byteAt_duplexCrypt_data hc hfit u (by omega), hbyte k hk]
  · rw [← hlen]
    exact byteAt_duplexCrypt_cryptEnd hc hfit u
  · exact byteAt_duplexCrypt_frame u S (by rwa [hlen]) hend
  · rw [exec_pCrypt hb hS u hd hx ho, ← hlen]
    rfl

/-- Settles O28: the data stands below `Ra`, so the two offset bytes are none of its offsets. -/
theorem injectCompletes : Obligations.InjectCompletes := by
  unfold Obligations.InjectCompletes
  intro b s S x ω n hb hS hx hω hn
  obtain rfl : ω = injectFrom s.cfg b := hω
  have hc := hb.pistonBuilt hS
  set data := x.unread.take (injectRoom s.cfg b) with hdata
  have hlen : data.length = n := by rw [hdata, List.length_take, hn, Nat.min_comm, injectRoom]
  have hfit : data.length ≤ injectRoom s.cfg b := List.length_take_le ..
  have hbyte (k : Nat) (hk : k < n) : byteAt data k = byteAt x.unread k := byteAt_take _ (by omega)
  rw [← encodeWord_pInject]
  refine ⟨decode_encodeWord _, duplexInject s.cfg b S data, duplexInject_length .., fun k hk => ?_,
    byteAt_duplexInject_injectStart hc hfit, ?_, fun j hj hstart hend => ?_, ?_⟩
  · rw [byteAt_duplexInject_data hc hfit (by omega), hbyte k hk]
  · rw [← hlen]
    exact byteAt_duplexInject_injectEnd hc hfit
  · exact byteAt_duplexInject_frame S (by rwa [hlen]) hstart hend
  · rw [exec_pInject hb hS b hx, ← hlen]
    rfl

/-- Settles O29: the state with its `EOM` byte written goes through the permutation. -/
theorem sparkCompletes : Obligations.SparkCompletes := by
  unfold Obligations.SparkCompletes
  intro e s S hb hS
  obtain ⟨hlen, -, hra⟩ := (pistonBuilt_iff s.cfg S).mp (hb.pistonBuilt hS)
  have heom : byteAt (xorAt S s.cfg.ra (endByte e s.lineL)) s.cfg.ra = byteAt S s.cfg.ra ^^^ endByte e s.lineL := by
    rw [byteAt_xorAt S _ _ _ (by omega), if_pos rfl]
  have hbyte : endByte e s.lineL = if e then (if s.lineL = 0 then 0xFF else s.lines.l) else 0x00 := by
    rw [endByte, State.lineL, BitVec.ofNat_toNat, BitVec.setWidth_eq]
  refine ⟨?_, xorAt S s.cfg.ra (endByte e s.lineL), xorAt_length .., hbyte ▸ heom, fun j => byteAt_xorAt_ne S _, ?_⟩
  · rw [← encodeWord_pSpark]
    exact decode_encodeWord _
  · rw [exec_pSpark hb hS, sparkTrace_words]
    rfl

/-- Settles O30: the length is tested before the stream is touched. -/
theorem getTagCompletes : Obligations.GetTagCompletes := by
  unfold Obligations.GetTagCompletes
  refine ⟨decode_encodeWord .pGetTag, fun s S t hb hS ht => ⟨fun hl => ?_, fun hl => exec_pGetTag_of_lt hb hS hl⟩⟩
  rw [exec_pGetTag hb hS hl ht, State.emit, State.setStream_trace]
  rfl

/-- Settles O31: the second Piston receives the bytes the first emitted, which are the bytes the first stored. -/
theorem cryptDirectionsAgree : Obligations.CryptDirectionsAgree := by
  unfold Obligations.CryptDirectionsAgree
  intro s v t x o y p hb hi hd hcfg hpistons hlines hx ho hy hp ht ⟨q, more, hq, hyq, hmore⟩
  obtain ⟨S, hS⟩ := hb.get hi
  have hI : v.lineI = s.lineI := by rw [State.lineI, hlines, State.lineI]
  have hω : v.lineOffset = s.lineOffset := by rw [State.lineOffset, hlines, State.lineOffset]
  have hvb : v.Built := hb.of_eq hcfg (hpistons ▸ hb.memory)
  have hvS : v.pistons[v.lineI]? = some S := by rw [hpistons, hI, hS]
  have hfit : (s.cryptTaken x).length ≤ s.cfg.rs - s.lineOffset := List.length_take_le ..
  have hin := fits_of_pistonBuilt (hb.pistonBuilt hS) hfit
  rw [exec_pCrypt hb hS false hd hx ho] at ht
  cases ht
  rw [State.afterCrypt_output false S hd hx ho] at hq
  have hqe : s.cryptEmitted S x = q := by simpa [ByteStream.putAll] using hq
  have hqlen : q.length = (s.cryptTaken x).length := by rw [← hqe]; exact duplexOutput_length_of_fits hin
  have htaken : v.cryptTaken y = s.cryptEmitted S x := by
    rw [State.cryptTaken, hcfg, hω, hyq, hqe]
    rcases Nat.lt_or_ge q.length (s.cfg.rs - s.lineOffset) with hshort | hfull
    · rw [hmore hshort, List.append_nil, List.take_of_length_le hshort.le]
    · rw [List.take_append_of_le_length hfull, List.take_of_length_le (by omega)]
  have hemitted : v.cryptEmitted S y = s.cryptTaken x := by
    rw [State.cryptEmitted, htaken, hω]
    exact duplexOutput_duplexOutput hin
  rw [← hlines] at hy hp hd ⊢
  refine ⟨v.afterCrypt true S y p, exec_pCrypt hvb hvS true hd hy hp, ?_, ?_⟩
  · show v.pistons.set v.lineI _ = s.pistons.set s.lineI _
    rw [hpistons, hI, hcfg, hω, htaken]
    exact congrArg _ (duplexCrypt_duplexOutput (hb.pistonBuilt hS) hfit)
  · rw [State.afterCrypt_output true S hd hy hp, hemitted]
    rfl

end Sys2Proof.Machine
end

section
/-! The Engine operations issued by themselves (42_engine R150 to R158; log 6, 8, 9, 11): the phase tests, the exact state each
operation leaves, and what the diversifier of `E.INJCOLL` is for (R155). -/

namespace Sys2Proof.Machine

/-! The phase tests (42_engine R158, 60_exceptions R224 item 4) -/

section
variable {s : State}

theorem eCrypt_of_phaseE_ne (src dst : StreamName) (u : Bool) (h : s.phaseE ≠ .fresh) : eCrypt src dst u s =
    .error (.raised (.phaseViolationE (encodeWord (.eCrypt u)) s.phaseE) (s.emit (.eCrypt u))) :=
  if_pos (c := (s.emit (.eCrypt u)).phaseE ≠ .fresh) h

theorem eInject_of_endOfMessage (src : StreamName) (h : s.phaseE = .endOfMessage) : eInject src s =
    .error (.raised (.phaseViolationE (encodeWord .eInject) s.phaseE) (s.emit .eInject)) :=
  if_pos (c := (s.emit .eInject).phaseE = .endOfMessage) h

theorem eGetTags_of_phaseE_ne (dst : StreamName) (l : List Nat) (h : s.phaseE ≠ .endOfMessage) : eGetTags dst l s =
    .error (.raised (.phaseViolationE (encodeWord .eGetTags) s.phaseE) (s.emit .eGetTags)) :=
  if_pos (c := (s.emit .eGetTags).phaseE ≠ .endOfMessage) h

theorem eInjColl_of_phaseE_ne (src : StreamName) (d : Bool) (h : s.phaseE ≠ .fresh) : eInjColl src d s =
    .error (.raised (.phaseViolationE (encodeWord (.eInjColl d)) s.phaseE) (s.emit (.eInjColl d))) :=
  if_pos (c := (s.emit (.eInjColl d)).phaseE ≠ .fresh) h

theorem eInjCollFrom_of_phaseE_ne (src : StreamName) (d : Bool) (h : s.phaseE ≠ .fresh) :
    eInjCollFrom src d s = eInjColl src d s := by
  cases src with
  | port p => rfl
  | tPrime => rfl
  | xt k => exact if_neg h

theorem mKnot_of_phaseE_ne (h : s.phaseE ≠ .endOfMessage) :
    mKnot s = .error (.raised (.phaseViolationE (encodeWord .eGetTags) s.phaseE)
      (((s.emit .mKnot).setTPrime ByteStream.empty).emit .eGetTags)) := by
  have e := eGetTags_of_phaseE_ne (s := (s.emit .mKnot).setTPrime ByteStream.empty) .tPrime s.knotLens h
  exact congrArg (· >>= _) e

theorem mHandleTag_of_phaseE_ne (w u : Bool) (h : s.phaseE ≠ .endOfMessage) :
    mHandleTag w u s = .error (.raised (.phaseViolationE (encodeWord .eGetTags) s.phaseE)
      (((s.emit (.mHandleTag w u)).setTPrime ByteStream.empty).emit .eGetTags)) := by
  have e (l : List Nat) := eGetTags_of_phaseE_ne (s := (s.emit (.mHandleTag w u)).setTPrime ByteStream.empty) .tPrime l h
  cases w with
  | false => exact congrArg (· >>= _) (e s.zeroLens)
  | true => exact congrArg (· >>= _) (e s.tagLens)

end

/-- Settles O40: the phase is tested before anything is changed; `M.KNOT` and `M.HANDLETAG` have created `T′` before. -/
theorem enginePhaseViolation : Obligations.EnginePhaseViolation := by
  unfold Obligations.EnginePhaseViolation
  constructor
  · rintro op s (⟨h, b, rfl | rfl⟩ | ⟨h, rfl⟩ | ⟨h, rfl⟩)
    · exact congrArg settle (eCrypt_of_phaseE_ne _ _ b h)
    · exact congrArg settle ((eInjCollFrom_of_phaseE_ne _ b h).trans (eInjColl_of_phaseE_ne _ b h))
    · exact congrArg settle (eInject_of_endOfMessage _ h)
    · exact congrArg settle (eGetTags_of_phaseE_ne _ _ h)
  · rintro op s h (rfl | ⟨w, u, rfl⟩)
    · exact congrArg settle (mKnot_of_phaseE_ne h)
    · exact congrArg (fun r => settle (r >>= fun r => .ok (r.2.setRet r.1))) (mHandleTag_of_phaseE_ne w u h)

/-! `E.CRYPT`, `E.INJECT` and `E.SPARK` (42_engine R150 to R152) -/

/-- Settles O34: the turns of the Pistons in phase `fresh`, and the phase test before them in another. -/
theorem engineCryptCompletes : Obligations.EngineCryptCompletes := by
  unfold Obligations.EngineCryptCompletes
  refine ⟨fun u s x o hb hE hd hx ho => ⟨_, congrArg settle (eCrypt_ok hb hd hx ho hE)⟩, fun u s hE => ?_⟩
  have h := enginePhaseViolation.1 (.eCrypt u) s (.inl ⟨hE, u, .inl rfl⟩)
  cases u <;> exact h

theorem PhaseE.crypting_iff (p : PhaseE) : p.crypting = true ↔ p = .crypted ∨ p = .endOfCrypt := by
  simp [PhaseE.crypting]

theorem injectRoom_eq (c : Cfg) (b : Bool) : injectRoom c b = if b then c.ra - c.rs else c.ra := by cases b <;> rfl

theorem injectSparks_iff (p : PhaseE) (len room : Nat) : injectSparks p len room = true ↔ p = .crypted ∨ room < len := by
  simp [injectSparks]

/-- Settles O35: the flag of the injections and the spark are those of the phase at entry. -/
theorem engineInjectCompletes : Obligations.EngineInjectCompletes := by
  unfold Obligations.EngineInjectCompletes
  refine ⟨?_, fun s hE => enginePhaseViolation.1 .eInject s (.inr (.inl ⟨hE, rfl⟩))⟩
  rintro s x b room _ hb hE hx hbE hroom rfl
  have hcrypting : s.phaseE.crypting = b := Bool.eq_iff_iff.mpr (s.phaseE.crypting_iff.trans hbE.symm)
  rw [← injectRoom_eq] at hroom
  by_cases hsp : s.phaseE = .crypted ∨ room < x.unread.length
  · have e := eInject_ok hb hx hE hcrypting hroom.symm ((injectSparks_iff ..).mpr hsp)
    simp only [if_pos hsp]
    exact ⟨_, congrArg settle e⟩
  · have e := eInject_ok hb hx hE hcrypting hroom.symm (Bool.eq_false_iff.mpr fun h => hsp ((injectSparks_iff ..).mp h))
    simp only [if_neg hsp, State.setStream_et]
    exact ⟨_, congrArg settle e⟩

theorem State.map_lineLens (s : State) : s.lineLens.map (BitVec.ofNat 8) = s.lines.lens := by
  simp [State.lineLens, Function.comp_def]

theorem State.lineLens_length (s : State) : s.lineLens.length = s.lines.lens.length := List.length_map ..

theorem State.lineLens_le_255 (s : State) : ∀ v ∈ s.lineLens, v ≤ 255 := by
  intro v hv
  obtain ⟨e, -, rfl⟩ := List.mem_map.mp hv
  exact Nat.le_of_lt_succ e.isLt

/-- Settles O36: a length on the lines is one byte, and `Et` gets that byte. -/
theorem engineSparkCompletes : Obligations.EngineSparkCompletes := by
  unfold Obligations.EngineSparkCompletes
  intro e s hb hl
  have h := eSpark_ok hb e (s.lineLens_length.trans hl) s.lineLens_le_255
  rw [s.map_lineLens] at h
  exact ⟨_, congrArg settle h⟩

/-! `E.GETTAGS` (42_engine R153, 90_conflicts C8) -/

/-- A loop over the Pistons ends in the fault of the first turn that raises one. -/
theorem forEach_range_error {f : Nat → State → Result State} {s t : State} {e : Abort} {k n : Nat}
    (hok : forEach f (List.range k) s = .ok t) (he : f k t = .error e) (hk : k < n) :
    forEach f (List.range n) s = .error e := by
  induction n, hk using Nat.le_induction with
  | base =>
    rw [List.range_succ, forEach_append, hok]
    show forEach f [k] t = _
    rw [forEach_cons, he]
    rfl
  | succ n _ ih =>
    rw [List.range_succ, forEach_append, ih]
    rfl

/-- The tags of the first `k` Pistons. -/
theorem gatherTags_take (ps : List Bytes) {l : List Nat} {k : Nat} (hk : k ≤ l.length) :
    gatherTags ps (l.take k) = (List.range k).flatMap fun i => (ps.getD i []).take (l.getD i 0) := by
  rw [gatherTags, List.length_take_of_le hk]
  refine List.flatMap_congr fun i hi => ?_
  have hget : (l.take k).getD i 0 = l.getD i 0 := by
    rw [List.getD_eq_getElem?_getD, List.getD_eq_getElem?_getD, List.getElem?_take_of_lt (List.mem_range.mp hi)]
  rw [hget]

theorem gatherTags_take_succ (ps : List Bytes) {l : List Nat} {k : Nat} (hk : k < l.length) :
    gatherTags ps (l.take (k + 1)) = gatherTags ps (l.take k) ++ (ps.getD k []).take (l.getD k 0) := by
  rw [gatherTags_take ps hk, gatherTags_take ps hk.le, List.range_succ]
  simp

/-- The block once the first `k` Pistons have put their tags on the stream `dst`, which held `t`. -/
def State.gathered (s : State) (dst : StreamName) (t : ByteStream) (l : List Nat) (k : Nat) : State :=
  (s.emitAll (turnsTrace [.pGetTag] k)).setStream dst (t.putAll (gatherTags s.pistons (l.take k)))

@[simp] theorem State.gathered_cfg (s : State) (dst : StreamName) (t : ByteStream) (l : List Nat) (k : Nat) :
    (s.gathered dst t l k).cfg = s.cfg := by simp [State.gathered]

@[simp] theorem State.gathered_pistons (s : State) (dst : StreamName) (t : ByteStream) (l : List Nat) (k : Nat) :
    (s.gathered dst t l k).pistons = s.pistons := by simp [State.gathered]

section
variable {s : State} {dst : StreamName} {t : ByteStream} (ht : s.stream? dst = some t) (l : List Nat)
include ht

theorem State.gathered_stream (k : Nat) :
    (s.gathered dst t l k).stream? dst = some (t.putAll (gatherTags s.pistons (l.take k))) := by
  rw [State.gathered, State.setStream_stream _ _ _ _ t (by simpa using ht), if_pos rfl]

theorem State.gathered_zero : s.gathered dst t l 0 = s := by
  have htags : t.putAll (gatherTags s.pistons (l.take 0)) = t := by simp [gatherTags, ByteStream.putAll]
  have hemit : s.emitAll (turnsTrace [.pGetTag] 0) = s := by simp [State.emitAll, turnsTrace]
  rw [State.gathered, htags, hemit, State.setStream_self ht]

end

theorem State.Built.gathered_piston {s : State} (hb : s.Built) (dst : StreamName) (t : ByteStream) (l : List Nat) (k : Nat)
    {i : Nat} {S : Bytes} (hS : s.pistons[i]? = some S) : (s.gathered dst t l k).piston i = .ok S :=
  (hb.of_eq (s.gathered_cfg dst t l k) (by simpa using hb.memory)).piston_ok (by simpa using hS)

section
variable {s : State} (hb : s.Built) {dst : StreamName} {t : ByteStream} (ht : s.stream? dst = some t) {l : List Nat}
  (hl : l.length = s.cfg.pi)
include hb ht hl

/-- One more Piston puts its tag. -/
theorem pGetTag_gathered {k : Nat} (hk : k < s.cfg.pi) (hle : l.getD k 0 ≤ s.cfg.rs) :
    pGetTag k dst (l.getD k 0) (s.gathered dst t l k) = .ok (s.gathered dst t l (k + 1)) := by
  obtain ⟨S, hS⟩ := hb.get hk
  rw [pGetTag_ok (hb.gathered_piston dst t l k hS) (by simpa using hle) (State.gathered_stream ht l k),
    State.gathered, State.emit_setStream, State.setStream_setStream, ByteStream.putAll_putAll, State.gathered,
    gatherTags_take_succ _ (hl ▸ hk), turnsTrace_succ]
  simp [State.emit, State.emitAll, hS]

/-- The tags before the first one that is too long are put; that one ends the operation (42_engine R153, 90_conflicts C8). -/
theorem gatherTurns_too_long {k : Nat} (hk : k < s.cfg.pi) (hle : ∀ i, i < k → l.getD i 0 ≤ s.cfg.rs)
    (hlong : s.cfg.rs < l.getD k 0) :
    forEach (fun i s => pGetTag i dst (l.getD i 0) s) (List.range s.cfg.pi) s =
      .error (.raised (.tagTooLong (l.getD k 0)) ((s.gathered dst t l k).emit .pGetTag)) := by
  obtain ⟨v, hv, rfl⟩ := forEach_range_ok (f := fun i s => pGetTag i dst (l.getD i 0) s) (n := k)
    (P := fun k v => v = s.gathered dst t l k) (State.gathered_zero ht l).symm
    fun i v hi hv => ⟨_, hv ▸ pGetTag_gathered hb ht hl (hi.trans hk) (hle i hi), rfl⟩
  obtain ⟨S, hS⟩ := hb.get hk
  exact forEach_range_error hv (pGetTag_too_long (hb.gathered_piston dst t l k hS) (by simpa using hlong)) hk

end

/-- A fault in the turns of an `E.GETTAGS`, after its spark, is the operation's. -/
theorem eGetTags_of_turns {s u : State} {dst : StreamName} {l : List Nat} {e : Abort} (hE : s.phaseE = .endOfMessage)
    (hspark : eSpark true l (s.emit .eGetTags) = .ok u)
    (hturns : forEach (fun i s => pGetTag i dst (l.getD i 0) s) (List.range u.cfg.pi) u = .error e) :
    eGetTags dst l s = .error e := by
  have hne : ¬ (s.emit .eGetTags).phaseE ≠ .endOfMessage := not_not_intro hE
  refine (if_neg hne).trans ?_
  rw [hspark]
  exact congrArg (fun r : Result State => r >>= fun s => .ok (s.setPhaseE .fresh)) hturns

/-- The buffers, the offsets and the trace written. -/
def State.setSparked (s : State) (ps : List Bytes) (es : List Byte) (tr : List Byte) : State :=
  { s with pistons := ps, et := es, trace := tr }

theorem State.setSparked_setStream (s : State) (ps : List Bytes) (es tr : List Byte) (n : StreamName) (x : ByteStream) :
    (s.setSparked ps es tr).setStream n x = (s.setStream n x).setSparked ps es tr := by
  cases n with
  | port p => cases p <;> rfl
  | tPrime => rfl
  | xt k => rfl

theorem State.setSparked_stream (s : State) (ps : List Bytes) (es tr : List Byte) (n : StreamName) :
    (s.setSparked ps es tr).stream? n = s.stream? n := by
  cases n with
  | port p => cases p <;> rfl
  | tPrime => rfl
  | xt k => rfl

/-- `E.GETTAGS` with a length above the squeezing rate: the sparks are done, and the tags before that length are put. -/
theorem eGetTags_too_long {s : State} (hb : s.Built) {dst : StreamName} {t : ByteStream} {l : List Nat} {k : Nat}
    (hl : l.length = s.cfg.pi) (h255 : ∀ v ∈ l, v ≤ 255) (hk : k < s.cfg.pi)
    (hle : ∀ i, i < k → l.getD i 0 ≤ s.cfg.rs) (hlong : s.cfg.rs < l.getD k 0)
    (ht : s.stream? dst = some t) (hE : s.phaseE = .endOfMessage) :
    ∃ tr, eGetTags dst l s = .error (.raised (.tagTooLong (l.getD k 0))
      ((s.setStream dst (t.putAll (gatherTags (sparkAll s.cfg true l s.pistons) (l.take k)))).setSparked
        (sparkAll s.cfg true l s.pistons) (l.map (BitVec.ofNat 8)) (s.trace ++ tr))) := by
  obtain ⟨hlay, _⟩ := hb.facts
  have hspark := eSpark_ok (s := s.emit .eGetTags) (hb.of_eq rfl hb.memory) true hl h255
  have hturns := gatherTurns_too_long (s := s.setSparked (sparkAll s.cfg true l s.pistons) (l.map (BitVec.ofNat 8))
      ((s.emit .eGetTags).trace ++ (eSparkTrace s.cfg true).map encodeWord))
    (hb.of_eq rfl (sparkAll_wf hlay hb.memory _ _)) ((State.setSparked_stream ..).trans ht) hl hk hle hlong
  refine ⟨(.eGetTags :: (eSparkTrace s.cfg true ++ turnsTrace [.pGetTag] k ++ [.pGetTag])).map encodeWord, ?_⟩
  rw [eGetTags_of_turns hE hspark hturns, State.gathered, State.emit_setStream, ← State.setSparked_setStream]
  simp [State.setSparked, State.emit, State.emitAll]

/-- Settles O37: no length is tested before the sparks, and each is tested before its own tag only. -/
theorem engineGetTagsCompletes : Obligations.EngineGetTagsCompletes := by
  unfold Obligations.EngineGetTagsCompletes
  refine ⟨fun s t hb hE hl hle ht => ?_, fun s t k hb hE hl hk hlong hle ht => ?_,
    fun s hE => enginePhaseViolation.1 .eGetTags s (.inr (.inr ⟨hE, rfl⟩))⟩
  · have hle' : ∀ v ∈ s.lineLens, v ≤ s.cfg.rs := List.forall_mem_map.mpr hle
    have e := eGetTags_ok hb (s.lineLens_length.trans hl) hle' ht hE
    rw [s.map_lineLens] at e
    exact ⟨_, congrArg settle e⟩
  · obtain ⟨tr, e⟩ := eGetTags_too_long hb (s.lineLens_length.trans hl) s.lineLens_le_255 hk hle hlong ht hE
    rw [s.map_lineLens] at e
    refine ⟨tr, (congrArg settle e).trans ?_⟩
    simp [settle, latch, State.enterFault, State.setSparked, Raise.cause]

/-! `E.INJCOLL` (42_engine R155, R156) -/

theorem State.stream_of_standing (s : State) {n : StreamName} (hn : n.standing = true) : ∃ x, s.stream? n = some x := by
  cases n with
  | port p => exact ⟨_, rfl⟩
  | tPrime => exact ⟨_, rfl⟩
  | xt k => cases hn

theorem eInjCollFrom_of_standing {src : StreamName} (hn : src.standing = true) (d : Bool) (s : State) :
    eInjCollFrom src d s = eInjColl src d s := by
  cases src with
  | port p => rfl
  | tPrime => rfl
  | xt k => cases hn

/-- Settles O38: an input that is no copy is read by the operation itself. -/
theorem engineInjectCollectiveCompletes : Obligations.EngineInjectCollectiveCompletes := by
  unfold Obligations.EngineInjectCollectiveCompletes
  refine ⟨fun d s x hb hE hn hx => ?_, fun d s hE => ?_⟩
  · obtain ⟨tr, e⟩ := eInjColl_ok (d := d) hb hn hx hE
    exact ⟨tr, congrArg settle ((eInjCollFrom_of_standing hn d s).trans e)⟩
  · have h := enginePhaseViolation.1 (.eInjColl d) s (.inl ⟨hE, d, .inr rfl⟩)
    cases d <;> exact h

/-- A last byte is absorbed with the last group, after the groups before it. -/
theorem absorbGroups_concat (c : Cfg) (n : Nat) (S xs : Bytes) (v : Byte) : absorbGroups c (n + 1) S (xs ++ [v]) =
    if c.ra ≤ xs.length then
      absorbGroups c n (duplexSpark c false 0 (duplexInject c false S (xs.take c.ra))) (xs.drop c.ra ++ [v])
    else duplexInject c false S (xs ++ [v]) := by
  rw [absorbGroups, if_neg (by simp)]
  refine if_ctx_congr (by simp) (fun h => ?_) fun _ => rfl
  rw [List.take_append_of_le_length h, List.drop_append_of_le_length h]

/-- Two Pistons in one state that inject data with different last bytes come to differ. -/
theorem duplexInject_concat_ne {c : Cfg} {S xs : Bytes} {v w : Byte} (hS : pistonBuilt c S = true)
    (hxs : xs.length < c.ra) (hvw : v ≠ w) : duplexInject c false S (xs ++ [v]) ≠ duplexInject c false S (xs ++ [w]) := by
  intro h
  have hbyte (v : Byte) : byteAt (duplexInject c false S (xs ++ [v])) xs.length = byteAt S xs.length ^^^ v := by
    have := byteAt_duplexInject_data (data := xs ++ [v]) (b := false) hS (by simpa [injectRoom, injectFrom] using hxs)
      (k := xs.length) (by simp)
    simpa [injectFrom, byteAt] using this
  exact hvw ((BitVec.xor_right_inj _).mp ((hbyte v).symm.trans ((congrArg (byteAt · xs.length) h).trans (hbyte w))))

theorem absorbGroups_concat_ne {c : Cfg} (hlay : c.hasLayout = true) (hra : 1 ≤ c.ra) {v w : Byte} (hvw : v ≠ w) (n : Nat)
    {S xs : Bytes} (hS : pistonBuilt c S = true) (hn : xs.length < n) :
    absorbGroups c n S (xs ++ [v]) ≠ absorbGroups c n S (xs ++ [w]) := by
  induction n generalizing S xs with
  | zero => exact absurd hn (Nat.not_lt_zero _)
  | succ n ih =>
    rw [absorbGroups_concat, absorbGroups_concat]
    split
    · refine ih (pistonBuilt_of_length hS ?_) (by rw [List.length_drop]; omega)
      rw [duplexSpark_length hlay, ((pistonBuilt_iff c S).mp hS).1]
    · exact duplexInject_concat_ne hS (by omega) hvw

/-- Different diversifier bytes take one state to different states. -/
theorem duplexAbsorb_diversified_ne {c : Cfg} (hlay : c.hasLayout = true) (hra : 1 ≤ c.ra) {S : Bytes}
    (hS : pistonBuilt c S = true) {i j : Nat} (hi : i ≤ 255) (hj : j ≤ 255) (hij : i ≠ j) (data : Bytes) :
    duplexAbsorb c S (collectiveInput c true i data) ≠ duplexAbsorb c S (collectiveInput c true j data) := by
  have hbytes : BitVec.ofNat 8 i ≠ BitVec.ofNat 8 j := fun h => hij (by
    simpa [Nat.mod_eq_of_lt (Nat.lt_succ_of_le hi), Nat.mod_eq_of_lt (Nat.lt_succ_of_le hj)] using congrArg BitVec.toNat h)
  have hsplit (k : Nat) : collectiveInput c true k data = (data ++ [BitVec.ofNat 8 c.pi]) ++ [BitVec.ofNat 8 k] := by
    simp [collectiveInput]
  rw [duplexAbsorb, duplexAbsorb, collectiveInput_length, collectiveInput_length, hsplit, hsplit]
  exact absorbGroups_concat_ne hlay hra hbytes _ hS (by simp [collectiveLength])

/-- Settles O39: the index of a Piston is the last byte of its diversifier. -/
theorem diversifierSeparatesPistons : Obligations.DiversifierSeparatesPistons := by
  unfold Obligations.DiversifierSeparatesPistons
  intro d s t S i j hb hn hi hj hij hE ht
  obtain ⟨hlay, _, _, _, hpi, _, _, _, hra⟩ := hb.facts
  obtain ⟨x, hx⟩ := s.stream_of_standing hn
  obtain ⟨tr, e⟩ := engineInjectCollectiveCompletes.1 d s x hb hE hn hx
  rw [e] at ht
  cases ht
  have hlt {k : Nat} (hk : s.pistons[k]? = some S) : k ≤ 255 := by
    have := (List.getElem?_eq_some_iff.mp hk).1
    have := hb.length
    omega
  simp only [List.getElem?_mapIdx, hi, hj, Option.map_some]
  constructor
  · rintro rfl h
    exact duplexAbsorb_diversified_ne hlay hra (hb.pistonBuilt hi) (hlt hi) (hlt hj) hij _ (Option.some.inj h)
  · rintro rfl
    rfl

end Sys2Proof.Machine
end

section
/-! What a block driven by its host alone keeps between commands (42_engine R159, 10_state R23, R32). A command it accepts goes
through operations none of which can raise a fault, and each hands the next one the Engine phase it needs. -/

namespace Sys2Proof.Machine

/-! Operations that raise no fault -/

/-- The operation completes with a value of which `P` holds, or its loop never ends; it raises no fault. -/
inductive Yields {α : Type} (P : α → Prop) : Result α → Prop
  | ok {a : α} (h : P a) : Yields P (.ok a)
  | endless : Yields P (.error (.stuck .endlessLoop))

theorem Yields.bind {α β : Type} {P : α → Prop} {Q : β → Prop} {r : Result α} {f : α → Result β} (h : Yields P r)
    (hf : ∀ a, P a → Yields Q (f a)) : Yields Q (r >>= f) := by
  cases h with
  | ok h => exact hf _ h
  | endless => exact .endless

theorem Yields.mono {α : Type} {P Q : α → Prop} {r : Result α} (h : Yields P r) (hPQ : ∀ a, P a → Q a) : Yields Q r := by
  cases h with
  | ok h => exact .ok (hPQ _ h)
  | endless => exact .endless

/-- An operation that raises no fault leaves the block only where it completes. -/
theorem Yields.of_leaves {P : State → Prop} {r : Result State} {t : State} (h : Yields P r) (ht : Leaves (settle r) t) :
    P t := by
  rcases leaves_settle ht with rfl | ⟨x, u, rfl, rfl⟩
  · cases h with
    | ok h => exact h
  · nomatch h

/-! Inside a command -/

/-- What holds from one operation of an accepted command to the next, in the Motorist phase `m`: the copies of a broadcast
are discarded (10_state R32) and the offsets are inside the squeezing rate (R23). -/
structure State.InCommand (m : PhaseM) (s : State) : Prop where
  built : s.Built
  issue : s.issue = none
  phaseM : s.phaseM = m
  xt : s.xt = []
  offsets : ∀ e ∈ s.et, e.toNat ≤ s.cfg.rs

theorem toNat_le_of_mem_replicate_zero {n k : Nat} {e : Byte} (he : e ∈ List.replicate n 0) : e.toNat ≤ k := by
  simp [List.eq_of_mem_replicate he]

/-- A spark with no lengths, where there is one, sets every offset to 0. -/
theorem offsets_of_spark {p : Prop} [Decidable p] {n k : Nat} {et : List Byte} (h : ∀ e ∈ et, e.toNat ≤ k) :
    ∀ e ∈ if p then List.replicate n 0 else et, e.toNat ≤ k := by
  split
  · exact fun _ => toNat_le_of_mem_replicate_zero
  · exact h

theorem State.Built.tagLens_le {s : State} (hb : s.Built) : ∀ v ∈ s.tagLens, v ≤ s.cfg.rs := by
  obtain ⟨_, _, _, _, _, _, htag, _⟩ := hb.facts
  intro v hv
  obtain ⟨i, -, rfl⟩ := List.mem_map.mp hv
  split
  · exact htag
  · exact Nat.zero_le _

section
variable {m : PhaseM} {s : State} (h : s.InCommand m)
include h

theorem State.InCommand.emit (i : Instr) : (s.emit i).InCommand m :=
  ⟨h.built.of_eq rfl h.built.memory, h.issue, h.phaseM, h.xt, h.offsets⟩

theorem State.InCommand.setTPrime (x : ByteStream) : (s.setTPrime x).InCommand m :=
  ⟨h.built.of_eq rfl h.built.memory, h.issue, h.phaseM, h.xt, h.offsets⟩

theorem State.InCommand.setPort (p : Port) (x : ByteStream) : (s.setPort p x).InCommand m := by
  cases p <;> exact ⟨h.built.of_eq rfl h.built.memory, h.issue, h.phaseM, h.xt, h.offsets⟩

theorem State.InCommand.setPhaseM (p : PhaseM) : (s.setPhaseM p).InCommand p :=
  ⟨h.built.of_eq rfl h.built.memory, h.issue, rfl, h.xt, h.offsets⟩

/-- An operation that completes keeps the rest; what it does to the phase, the copies and the offsets is its own. -/
theorem State.InCommand.of_ok {t : State} {r : Result State} (k : KeepsState s r) (hr : r = .ok t)
    (hM : t.phaseM = s.phaseM) (hxt : t.xt = s.xt ∨ t.xt = []) (hoff : ∀ e ∈ t.et, e.toNat ≤ s.cfg.rs) :
    t.InCommand m := by
  have hb := h.built.of_keeps k hr
  subst hr
  have k : Kept s t := k
  exact ⟨hb, k.issue.trans h.issue, hM.trans h.phaseM, hxt.elim (·.trans h.xt) id, k.cfg ▸ hoff⟩

theorem eInjColl_yields (hE : s.phaseE = .fresh) {src : StreamName} (hn : src.standing = true) (d : Bool) :
    Yields (fun t => t.InCommand m ∧ t.phaseE = .endOfMessage) (eInjColl src d s) := by
  obtain ⟨x, hx⟩ := s.stream_of_standing hn
  obtain ⟨tr, e⟩ := eInjColl_ok (d := d) h.built hn hx hE
  rw [e]
  exact .ok ⟨h.of_ok (eInjColl_keeps src d s) e (State.setStream_phaseM ..) (.inr rfl) (offsets_of_spark h.offsets), rfl⟩

theorem eGetTags_yields (hE : s.phaseE = .endOfMessage) {l : List Nat} (hl : l.length = s.cfg.pi)
    (hle : ∀ v ∈ l, v ≤ s.cfg.rs) : Yields (fun t => t.InCommand m ∧ t.phaseE = .fresh) (eGetTags .tPrime l s) := by
  have e := eGetTags_ok h.built hl hle (dst := .tPrime) rfl hE
  rw [e]
  refine .ok ⟨h.of_ok (eGetTags_keeps .tPrime l s) e rfl (.inl rfl) fun b hb => ?_, rfl⟩
  obtain ⟨v, hv, rfl⟩ := List.mem_map.mp hb
  exact (Nat.mod_le ..).trans (hle v hv)

theorem mKnot_yields (hE : s.phaseE = .endOfMessage) :
    Yields (fun t => t.InCommand m ∧ t.phaseE = .endOfMessage) (mKnot s) := by
  obtain ⟨_, _, _, _, _, _, _, hknot, _⟩ := h.built.facts
  refine (eGetTags_yields ((h.emit .mKnot).setTPrime _) hE (List.length_replicate ..) fun v hv => ?_).bind
    fun t ⟨ht, htE⟩ => (eInjColl_yields ht htE rfl false).bind fun u ⟨hu, huE⟩ => .ok ⟨hu.setTPrime _, huE⟩
  exact (List.eq_of_mem_replicate hv).trans_le hknot

theorem knotIf_yields (asked : Bool) (hE : s.phaseE = .endOfMessage) :
    Yields (fun t => t.InCommand m ∧ t.phaseE = .endOfMessage) (knotIf asked s) := by
  cases asked with
  | false => exact .ok ⟨h, hE⟩
  | true => exact mKnot_yields h hE

/-- The end of the tag protocol fails the session exactly when it answers false. -/
theorem settleTag_inCommand (u : Bool) :
    (settleTag u s).2.InCommand (if (settleTag u s).1 then m else .failed) ∧ (settleTag u s).2.phaseE = s.phaseE := by
  unfold settleTag
  split
  · exact ⟨h.setPort .tag _, rfl⟩
  · split
    · exact ⟨h, rfl⟩
    · exact ⟨h.setPhaseM .failed, rfl⟩

theorem mHandleTag_yields (hE : s.phaseE = .endOfMessage) (w u : Bool) :
    Yields (fun r => r.2.InCommand (if r.1 then m else .failed) ∧ r.2.phaseE = .fresh ∧ r.2.tPrime = ByteStream.empty)
      (mHandleTag w u s) := by
  have h' := (h.emit (.mHandleTag w u)).setTPrime ByteStream.empty
  cases w with
  | false =>
    refine (eGetTags_yields h' hE (List.length_replicate ..) fun v hv => ?_).bind
      fun t ⟨ht, htE⟩ => .ok ⟨ht.setTPrime _, htE, rfl⟩
    exact (List.eq_of_mem_replicate hv).trans_le (Nat.zero_le _)
  | true =>
    refine (eGetTags_yields h' hE (by simp [State.tagLens]) h'.built.tagLens_le).bind fun t ⟨ht, htE⟩ => ?_
    obtain ⟨hc, hcE⟩ := settleTag_inCommand ht u
    exact .ok ⟨hc.setTPrime _, hcE.trans htE, rfl⟩

end

/-! The message of `M.WRAP` (43_motorist R175) -/

/-- A stream is left with something to read when there was more than the room there was for it. -/
theorem ByteStream.hasMore_advance_min (x : ByteStream) (room : Nat) :
    (x.advance (min x.unread.length room)).hasMore = true ↔ room < x.unread.length := by
  rw [ByteStream.hasMore_iff, ByteStream.advance_unread, List.length_drop]
  omega

section
variable {m : PhaseM} {s : State} (h : s.InCommand m)
include h

theorem eCrypt_yields (hE : s.phaseE = .fresh) (u : Bool) :
    Yields (fun t => t.InCommand m ∧ t.phaseE = if t.inp.hasMore then .crypted else .endOfCrypt)
      (eCrypt (.port .inp) (.port .out) u s) := by
  have e := eCrypt_ok h.built (src := .port .inp) (dst := .port .out) (u := u) (by decide) rfl rfl hE
  rw [e]
  exact .ok ⟨h.of_ok (eCrypt_keeps ..) e rfl (.inl rfl) h.offsets,
    (if_congr (ByteStream.hasMore_advance_min s.inp _) rfl rfl).symm⟩

theorem eInject_yields (hE : s.phaseE ≠ .endOfMessage) :
    Yields (fun t => t.InCommand m ∧ t.inp = s.inp ∧
        t.phaseE = if s.phaseE = .crypted ∨ t.ad.hasMore = true then .fresh else .endOfMessage)
      (eInject (.port .ad) s) := by
  have e := eInject_ok h.built (src := .port .ad) rfl hE rfl rfl rfl
  have hmore (n : Nat) : injectSparks s.phaseE s.ad.unread.length n = true ↔
      s.phaseE = .crypted ∨ (s.ad.advance (min s.ad.unread.length n)).hasMore = true := by
    rw [ByteStream.hasMore_advance_min, injectSparks_iff]
  rw [e]
  exact .ok ⟨h.of_ok (eInject_keeps ..) e rfl (.inl rfl) (offsets_of_spark h.offsets), rfl, if_congr (hmore _) rfl rfl⟩

end

/-- What the loops of `M.WRAP` keep: the Engine phase is `fresh` while input is left, and `endOfMessage` after. -/
structure State.InMessage (m : PhaseM) (s : State) : Prop where
  inCommand : s.InCommand m
  phaseE : s.phaseE = if s.inp.hasMore = true ∨ s.ad.hasMore = true then .fresh else .endOfMessage

section
variable {m : PhaseM}

theorem State.InMessage.phaseE_fresh {s : State} (h : s.InMessage m) (hmore : s.inp.hasMore = true ∨ s.ad.hasMore = true) :
    s.phaseE = .fresh :=
  h.phaseE.trans (if_pos hmore)

/-- One injection of nothing takes an empty message to its end. -/
theorem wrapEmpty_yields {s : State} (h : s.InCommand m) (hE : s.phaseE = .fresh) :
    Yields (State.InMessage m) (wrapEmpty s) := by
  unfold wrapEmpty
  split
  · rename_i hempty
    obtain ⟨hinp, -⟩ : s.inp.hasMore = false ∧ s.ad.hasMore = false := by simpa using hempty
    refine (eInject_yields h (by simp [hE])).mono fun t ⟨ht, htinp, htE⟩ => ⟨ht, ?_⟩
    simpa [hE, htinp, hinp] using htE
  · rename_i hmore
    refine .ok ⟨h, hE.trans (if_pos ?_).symm⟩
    cases hinp : s.inp.hasMore with
    | true => exact .inl rfl
    | false => exact .inr (by simpa [hinp] using hmore)

theorem wrapBlocks_yields (u : Bool) (n : Nat) {s : State} (h : s.InMessage m) :
    Yields (fun t => t.InMessage m ∧ t.inp.hasMore = false) (wrapBlocks u n s) := by
  induction n generalizing s with
  | zero => exact .endless
  | succ n ih =>
    unfold wrapBlocks
    split
    · rename_i hmore
      refine (eCrypt_yields h.inCommand (h.phaseE_fresh (.inl hmore)) u).bind fun t ⟨ht, htE⟩ => ?_
      have hne : t.phaseE ≠ .endOfMessage := by rw [htE]; split <;> decide
      have hcrypted : t.phaseE = .crypted ↔ t.inp.hasMore = true := by rw [htE]; split <;> simp [*]
      refine (eInject_yields ht hne).bind fun v ⟨hv, hvinp, hvE⟩ => ih ⟨hv, ?_⟩
      exact hvE.trans (if_congr (by rw [hcrypted, hvinp]) rfl rfl)
    · rename_i hdone
      exact .ok ⟨h, by simpa using hdone⟩

theorem wrapRest_yields (n : Nat) {s : State} (h : s.InMessage m) (hinp : s.inp.hasMore = false) :
    Yields (fun t => t.InCommand m ∧ t.phaseE = .endOfMessage) (wrapRest n s) := by
  induction n generalizing s with
  | zero => exact .endless
  | succ n ih =>
    unfold wrapRest
    split
    · rename_i hmore
      have hE := h.phaseE_fresh (.inr hmore)
      refine (eInject_yields h.inCommand (by simp [hE])).bind fun t ⟨ht, htinp, htE⟩ => ?_
      have hdone : t.inp.hasMore = false := by rw [htinp, hinp]
      exact ih ⟨ht, by simpa [hE, hdone] using htE⟩ hdone
    · rename_i hdone
      exact .ok ⟨h.inCommand, h.phaseE.trans (if_neg (by simp [hinp, hdone]))⟩

theorem wrapBody_yields (u : Bool) {s : State} (h : s.InCommand m) (hE : s.phaseE = .fresh) :
    Yields (fun t => t.InCommand m ∧ t.phaseE = .endOfMessage) (wrapBody u s) :=
  (wrapEmpty_yields h hE).bind fun _ ha => (wrapBlocks_yields u _ ha).bind fun _ ⟨hb, hinp⟩ =>
    wrapRest_yields _ hb hinp

end

/-! The commands (43_motorist R173, R175) -/

/-- A command ends in the block the host drives when `RESULT` says whether the session lives. -/
theorem State.InCommand.complete {s : State} {b : Bool} (h : s.InCommand (if b then .riding else .failed))
    (hE : s.phaseE = .fresh) (hT : s.tPrime = ByteStream.empty) : (s.complete b).HostDriven := by
  refine ⟨h.issue, hT, h.xt, fun _ => hE, fun _ => h.offsets, fun hM => ?_, fun hM => ?_⟩
  · cases b with
    | true => rfl
    | false => exact PhaseM.noConfusion (h.phaseM.symm.trans hM)
  · cases b with
    | true => exact PhaseM.noConfusion (h.phaseM.symm.trans hM)
    | false => rfl

theorem finishStart_hostDriven {r : Bool × State} (h : r.2.InCommand (if r.1 then .ready else .failed))
    (hE : r.2.phaseE = .fresh) (hT : r.2.tPrime = ByteStream.empty) : (finishStart r).HostDriven := by
  obtain ⟨b, s⟩ := r
  cases b with
  | true => exact (h.setPhaseM .riding).complete (b := true) hE hT
  | false => exact h.complete (b := false) hE hT

theorem finishWrap_hostDriven {r : Bool × State} (h : r.2.InCommand (if r.1 then .riding else .failed))
    (hE : r.2.phaseE = .fresh) (hT : r.2.tPrime = ByteStream.empty) : (finishWrap r).HostDriven := by
  obtain ⟨b, s⟩ := r
  cases b with
  | true => exact h.complete (b := true) hE hT
  | false => exact (h.setPort .out s.out.clear).complete (b := false) hE hT

theorem mStart_yields (w u g : Bool) {s : State} (h : s.InCommand .ready) (hE : s.phaseE = .fresh) :
    Yields State.HostDriven (mStart w u g s) := by
  unfold mStart
  rw [if_neg (not_not_intro h.phaseM)]
  exact (eInjColl_yields h hE rfl true).bind fun a ⟨ha, haE⟩ => (knotIf_yields ha g haE).bind fun b ⟨hb, hbE⟩ =>
    (mHandleTag_yields hb hbE w u).bind fun r ⟨hr, hrE, hrT⟩ => .ok (finishStart_hostDriven hr hrE hrT)

theorem mWrap_yields (u g : Bool) {s : State} (h : s.InCommand .riding) (hE : s.phaseE = .fresh) :
    Yields State.HostDriven (mWrap u g s) := by
  unfold mWrap
  rw [if_neg (not_not_intro h.phaseM)]
  exact (wrapBody_yields u h hE).bind fun a ⟨ha, haE⟩ => (knotIf_yields ha _ haE).bind fun b ⟨hb, hbE⟩ =>
    (mHandleTag_yields hb hbE true u).bind fun r ⟨hr, hrE, hrT⟩ => .ok (finishWrap_hostDriven hr hrE hrT)

theorem exec_mStart_of_phaseM_ne (w u g : Bool) {s : State} (h : s.phaseM ≠ .ready) :
    exec (.mStart w u g) s = latch (.phaseViolationM (encodeWord (.mStart w u g)) s.phaseM) s :=
  congrArg settle (if_pos h)

theorem exec_mWrap_of_phaseM_ne (u g : Bool) {s : State} (h : s.phaseM ≠ .riding) :
    exec (.mWrap u g) s = latch (.phaseViolationM (encodeWord (.mWrap u g)) s.phaseM) s :=
  congrArg settle (if_pos h)

/-! Between commands -/

/-- The shape does not speak of what the host has yet to do, or of `DONE`, which a command clears first. -/
theorem State.Shape.taken {s : State} (h : s.Shape) (hs : List HostMove) (d : Bool) :
    State.Shape { s with host := hs, done := d } :=
  ⟨h.memory, h.offsets, h.lengths, h.streams, h.latch, h.config⟩

section
variable {s : State} (h : s.HostDriven)
include h

theorem State.HostDriven.taken (hs : List HostMove) (d : Bool) :
    State.HostDriven { s with host := hs, done := d } :=
  ⟨h.issue, h.tPrime, h.xt, h.fresh, h.offsets, h.riding, h.failed⟩

theorem State.HostDriven.enterFault (r : Raise) : (s.enterFault r).HostDriven :=
  ⟨h.issue, h.tPrime, h.xt, nofun, nofun, h.riding, h.failed⟩

theorem State.HostDriven.setPort (p : Port) (x : ByteStream) : (s.setPort p x).HostDriven := by
  cases p <;> exact ⟨h.issue, h.tPrime, h.xt, h.fresh, h.offsets, h.riding, h.failed⟩

/-- A block that has not faulted is ready for a command. -/
theorem State.HostDriven.inCommand (hs : s.Shape) (hf : s.fault = false) : s.InCommand s.phaseM :=
  ⟨⟨hs.config hf, hs.memory⟩, h.issue, rfl, h.xt, h.offsets hf⟩

/-- A command in its phase raises no fault, and in another phase it raises one before anything is changed. -/
theorem State.HostDriven.leaves_exec {op : Instr} {t : State} (hs : s.Shape) (hf : s.fault = false)
    (hop : op.hostIssuable = true) (ht : Leaves (exec op s) t) : t.HostDriven := by
  have hc := h.inCommand hs hf
  cases op with
  | mStart w u g =>
    by_cases hM : s.phaseM = .ready
    · exact (mStart_yields w u g (hM ▸ hc) (h.fresh hf)).of_leaves ht
    · rw [exec_mStart_of_phaseM_ne w u g hM, leaves_latch] at ht
      exact ht ▸ h.enterFault _
  | mWrap u g =>
    by_cases hM : s.phaseM = .riding
    · exact (mWrap_yields u g (hM ▸ hc) (h.fresh hf)).of_leaves ht
    · rw [exec_mWrap_of_phaseM_ne u g hM, leaves_latch] at ht
      exact ht ▸ h.enterFault _
  | _ => cases hop

theorem State.HostDriven.leaves_acceptCommand {w : Byte} {t : State} (hs : s.Shape)
    (ht : Leaves (acceptCommand w s).outcome t) : t.HostDriven := by
  unfold acceptCommand at ht
  split at ht
  · exact (leaves_next s t).mp ht ▸ h
  · rename_i hf
    split at ht
    · split at ht
      · rename_i hop
        exact (h.taken s.host false).leaves_exec (hs.taken s.host false) (by simpa using hf) hop ht
      · exact (leaves_latch _ s t).mp ht ▸ h.enterFault _
    · exact (leaves_latch _ s t).mp ht ▸ h.enterFault _

end

theorem hostDriven_applyReset (s : State) : s.applyReset.HostDriven := by
  unfold State.applyReset
  split
  · exact ⟨rfl, rfl, rfl, fun _ => rfl, fun _ _ => toNat_le_of_mem_replicate_zero, nofun, nofun⟩
  · exact ⟨rfl, rfl, rfl, nofun, nofun, nofun, nofun⟩

theorem State.HostDriven.leaves_hostMove {s t : State} (h : s.HostDriven) (hs : s.Shape) {m : HostMove}
    (ht : Leaves (hostMove m s).outcome t) : t.HostDriven := by
  cases m with
  | config c =>
    obtain rfl := (leaves_next ..).mp ht
    exact ⟨h.issue, h.tPrime, h.xt, h.fresh, h.offsets, h.riding, h.failed⟩
  | reset => exact leaves_resetOutcome ht ▸ hostDriven_applyReset s
  | present p vs => exact (leaves_next ..).mp ht ▸ h.setPort p _
  | append p vs => exact (leaves_next ..).mp ht ▸ h.setPort p _
  | command w => exact h.leaves_acceptCommand hs ht

/-- Settles O54: no word is issued from outside its owner, so a step is idle or a move of the host. -/
theorem everyStepKeepsHostDriven : Obligations.EveryStepKeepsHostDriven := by
  unfold Obligations.EveryStepKeepsHostDriven
  intro s t hs h ht
  rw [step_eq] at ht
  unfold fetch at ht
  split at ht
  · rename_i w hw
    cases h.issue.symm.trans hw
  · split at ht
    · exact (leaves_next s t).mp ht ▸ h
    · rename_i m rest _
      exact (h.taken rest s.done).leaves_hostMove (hs.taken rest s.done) ht

end Sys2Proof.Machine
end

section
/-! The Motorist phase machine (43_motorist R171, 10_state R25): the phase test of the two commands, and every transition
an operation can make, whether it ends normally or in a fault. -/

namespace Sys2Proof.Machine

/-- Settles O41: the phase is tested before anything else is done. -/
theorem motoristPhaseViolation : Obligations.MotoristPhaseViolation := by
  unfold Obligations.MotoristPhaseViolation
  rintro op s (⟨h, t, u, g, rfl⟩ | ⟨h, u, g, rfl⟩)
  · exact exec_mStart_of_phaseM_ne t u g h
  · exact exec_mWrap_of_phaseM_ne u g h

/-- `P` holds of the value an operation gives; a fault it ends in finds the Motorist phase `m`. -/
def RunsInPhase {α : Type} (m : PhaseM) (P : α → Prop) : Result α → Prop
  | .ok a => P a
  | .error (.raised _ t) => t.phaseM = m
  | .error (.stuck _) => True

theorem RunsInPhase.bind {α β : Type} {m : PhaseM} {P : α → Prop} {Q : β → Prop} {r : Result α} {f : α → Result β}
    (h : RunsInPhase m P r) (hf : ∀ a, P a → RunsInPhase m Q (f a)) : RunsInPhase m Q (r >>= f) := by
  cases r with
  | ok a => exact hf a h
  | error e =>
    cases e with
    | raised x t => exact h
    | stuck x => exact trivial

/-- An operation that may write every piece but `phase_M` runs in the phase it is entered in. -/
theorem runsInPhase_of_writes {m : PhaseM} {s : State} {r : Result State} (h : Writes {p | p ≠ .phaseM} id s r)
    (hM : s.phaseM = m) : RunsInPhase m (fun t => t.phaseM = m) r := by
  have keeps {t : State} (k : SameBut {p | p ≠ .phaseM} s t) : t.phaseM = m :=
    (show Piece.Same s t .phaseM from k .phaseM fun hne => hne rfl).trans hM
  cases r with
  | ok t => exact keeps h
  | error e =>
    cases e with
    | raised x t => exact keeps h
    | stuck x => exact trivial

/-- The end of the tag protocol fails the session exactly when it answers false, which it does only when unwrapping. -/
theorem settleTag_phaseM (u : Bool) (s : State) :
    (settleTag u s).2.phaseM = (if (settleTag u s).1 then s.phaseM else .failed) ∧
      ((settleTag u s).1 = false → u = true) := by
  cases u with
  | false => exact ⟨rfl, nofun⟩
  | true =>
    unfold settleTag
    cases tagEqual s.tPrime.buf s.tag.buf with
    | true => exact ⟨rfl, nofun⟩
    | false => exact ⟨rfl, fun _ => rfl⟩

section
variable {m : PhaseM} {s : State} (hM : s.phaseM = m)
include hM

theorem eGetTags_runsInPhase (dst : StreamName) (l : List Nat) :
    RunsInPhase m (fun t => t.phaseM = m) (eGetTags dst l s) :=
  runsInPhase_of_writes (eGetTags_writes (by simp) (by simp) (by simp) dst l s) hM

theorem eInjColl_runsInPhase (src : StreamName) (d : Bool) :
    RunsInPhase m (fun t => t.phaseM = m) (eInjColl src d s) :=
  runsInPhase_of_writes (eInjColl_writes (by simp) (by simp) (by simp) src d s) hM

theorem knotIf_runsInPhase (asked : Bool) : RunsInPhase m (fun t => t.phaseM = m) (knotIf asked s) :=
  runsInPhase_of_writes (knotIf_writes (by simp) (by simp) (by simp) asked s) hM

theorem wrapBody_runsInPhase (u : Bool) : RunsInPhase m (fun t => t.phaseM = m) (wrapBody u s) :=
  runsInPhase_of_writes (wrapBody_writes (by simp) (by simp) (by simp) u s) hM

/-- The tag protocol answers false, in the phase `failed`, only when it unwraps and a tag is wanted. -/
theorem mHandleTag_runsInPhase (w u : Bool) :
    RunsInPhase m (fun r => r.2.phaseM = (if r.1 then m else .failed) ∧ (r.1 = false → w = true ∧ u = true))
      (mHandleTag w u s) := by
  have hM' : ((s.emit (.mHandleTag w u)).setTPrime ByteStream.empty).phaseM = m := hM
  cases w with
  | false => exact (eGetTags_runsInPhase hM' _ _).bind fun t ht => ⟨ht, nofun⟩
  | true =>
    refine (eGetTags_runsInPhase hM' _ _).bind fun t ht => ?_
    obtain ⟨htM, hu⟩ := settleTag_phaseM u t
    exact ⟨htM.trans (by rw [ht]), fun h => ⟨rfl, hu h⟩⟩

end

/-- A start enters `riding` on success, and `failed` only when it unwraps with a tag wanted. -/
theorem mStart_runsInPhase (w u g : Bool) {s : State} (hM : s.phaseM = .ready) :
    RunsInPhase .ready (fun t => t.phaseM = .riding ∨ t.phaseM = .failed ∧ w = true ∧ u = true) (mStart w u g s) := by
  rw [mStart, if_neg (not_not_intro hM)]
  refine (eInjColl_runsInPhase hM _ _).bind fun a ha => (knotIf_runsInPhase ha g).bind fun d hd =>
    (mHandleTag_runsInPhase hd w u).bind ?_
  rintro ⟨ok, t⟩ ⟨htM, hfail⟩
  cases ok with
  | true => exact .inl rfl
  | false => exact .inr ⟨htM, hfail rfl⟩

/-- A wrap stays in `riding`, or ends in `failed`. -/
theorem mWrap_runsInPhase (u g : Bool) {s : State} (hM : s.phaseM = .riding) :
    RunsInPhase .riding (fun t => t.phaseM = .riding ∨ t.phaseM = .failed) (mWrap u g s) := by
  rw [mWrap, if_neg (not_not_intro hM)]
  refine (wrapBody_runsInPhase hM u).bind fun c hc => (knotIf_runsInPhase hc _).bind fun d hd =>
    (mHandleTag_runsInPhase hd true u).bind ?_
  rintro ⟨ok, t⟩ ⟨htM, -⟩
  cases ok with
  | true => exact .inl htM
  | false => exact .inr htM

theorem handleTagAlone_runsInPhase (w u : Bool) (s : State) :
    RunsInPhase s.phaseM (fun t => t.phaseM = s.phaseM ∨ t.phaseM = .failed) (handleTagAlone w u s) := by
  refine (mHandleTag_runsInPhase rfl w u).bind ?_
  rintro ⟨ok, t⟩ ⟨htM, -⟩
  cases ok with
  | true => exact .inl htM
  | false => exact .inr htM

/-- Where such an operation leaves the block: in its fault the phase it ran in stands. -/
theorem RunsInPhase.of_leaves {m : PhaseM} {P : State → Prop} {r : Result State} {t : State} (h : RunsInPhase m P r)
    (ht : Leaves (settle r) t) : P t ∨ t.phaseM = m := by
  rcases leaves_settle ht with rfl | ⟨x, u, rfl, rfl⟩
  · exact .inl h
  · exact .inr h

/-- Settles O50: three operations may write `phase_M` at all, and each writes it as its tag protocol answers. -/
theorem motoristPhaseMachine : Obligations.MotoristPhaseMachine := by
  unfold Obligations.MotoristPhaseMachine
  intro op s t ht
  by_cases hsame : t.phaseM = s.phaseM
  · exact .inl hsame
  obtain ⟨-, -, -, hwriters, -⟩ := writersOfState op s t ht
  rcases hwriters hsame with ⟨w, u, g, rfl⟩ | ⟨g, rfl⟩ | rfl
  · by_cases hM : s.phaseM = .ready
    · rcases (mStart_runsInPhase w u g hM).of_leaves ht with (hrode | ⟨hfailed, rfl, rfl⟩) | hstayed
      · exact .inr (.inl ⟨hM, hrode, w, u, g, rfl⟩)
      · exact .inr (.inr (.inl ⟨hM, hfailed, g, rfl⟩))
      · exact absurd (hstayed.trans hM.symm) hsame
    · rw [exec_mStart_of_phaseM_ne w u g hM, leaves_latch] at ht
      exact absurd (ht ▸ rfl) hsame
  · by_cases hM : s.phaseM = .riding
    · rcases (mWrap_runsInPhase true g hM).of_leaves ht with (hrode | hfailed) | hstayed
      · exact absurd (hrode.trans hM.symm) hsame
      · exact .inr (.inr (.inr (.inl ⟨hM, hfailed, g, rfl⟩)))
      · exact absurd (hstayed.trans hM.symm) hsame
    · rw [exec_mWrap_of_phaseM_ne true g hM, leaves_latch] at ht
      exact absurd (ht ▸ rfl) hsame
  · rcases (handleTagAlone_runsInPhase true true s).of_leaves ht with (hstayed | hfailed) | hstayed
    · exact absurd hstayed hsame
    · exact .inr (.inr (.inr (.inr ⟨hfailed, rfl⟩)))
    · exact absurd hstayed hsame

end Sys2Proof.Machine
end

section
/-! The Motorist's two protocols and the session start (43_motorist R173, R176, R177, R179, R181): the exact state each
leaves on a built block (log 10, 11), and the agreement of the two sides of a session. -/

namespace Sys2Proof.Machine

/-! The tag comparison (43_motorist R179) -/

/-- The differences collected are none exactly when there were none before and the byte strings are equal. -/
theorem tagDiff_eq_zero_iff (d : Byte) {a b : Bytes} (hl : a.length = b.length) :
    tagDiff d a b = 0 ↔ d = 0 ∧ a = b := by
  induction a generalizing d b with
  | nil =>
    obtain rfl := List.length_eq_zero_iff.mp hl.symm
    simp [tagDiff]
  | cons x xs ih =>
    cases b with
    | nil => simp at hl
    | cons y ys =>
      rw [tagDiff, ih _ (Nat.succ.inj hl), List.cons.injEq, ← and_assoc]
      refine and_congr_left fun _ => ?_
      rw [show (0 : Byte) = 0#8 from rfl, BitVec.or_eq_zero_iff, BitVec.xor_eq_zero_iff]

/-- Settles O47: byte strings of one length are compared byte by byte, and others are told apart by their length. -/
theorem tagComparisonIsEquality : Obligations.TagComparisonIsEquality := by
  unfold Obligations.TagComparisonIsEquality
  intro a b
  unfold tagEqual
  split
  · rename_i hne
    exact iff_of_false Bool.false_ne_true fun h => hne (congrArg List.length h)
  · rename_i hl
    rw [beq_iff_eq, tagDiff_eq_zero_iff 0 (not_not.mp hl)]
    exact and_iff_right rfl

/-! What an operation goes on with -/

theorem bind_of_ok {α β : Type} {r : Result α} {a : α} (h : r = .ok a) (f : α → Result β) : (r >>= f) = f a := by
  rw [h]
  rfl

theorem bind_eq_ok {α β : Type} {r : Result α} {f : α → Result β} {b : β} (h : (r >>= f) = .ok b) :
    ∃ a, r = .ok a ∧ f a = .ok b := by
  cases r with
  | ok a => exact ⟨a, rfl, h⟩
  | error e => cases h

/-! The tags squeezed into `T′` (42_engine R153), with which `M.KNOT` and `M.HANDLETAG` begin -/

/-- The block after it has sparked with the lengths `l` and put the tags of those lengths into `T′`. -/
def State.squeezed (s : State) (l : List Nat) : State :=
  { s with
    pistons := sparkAll s.cfg true l s.pistons
    et := l.map (BitVec.ofNat 8)
    phaseE := .fresh
    tPrime := ByteStream.ofBytes (gatherTags (sparkAll s.cfg true l s.pistons) l)
    trace := s.trace ++ (eGetTagsTrace s.cfg).map encodeWord }

theorem mapIdx_const {α β : Type} (f : α → β) (l : List α) : (l.mapIdx fun _ x => f x) = l.map f := by
  apply List.ext_getElem <;> simp

/-- Tags of one length: that many bytes for each Piston. -/
theorem gatherTags_replicate_length {c : Cfg} {ps : List Bytes} (h : Memory.wf c ps = true) {k : Nat}
    (hk : k ≤ c.stateBytes) : (gatherTags ps (List.replicate c.pi k)).length = c.pi * k := by
  obtain ⟨hpi, hS⟩ := (Memory.wf_iff c ps).mp h
  have hlen : ∀ i ∈ List.range c.pi, ((ps.getD i []).take ((List.replicate c.pi k).getD i 0)).length = k := by
    intro i hi
    have hi := List.mem_range.mp hi
    have hlt : i < ps.length := hpi ▸ hi
    simpa [hi, hlt, hS _ (List.getElem_mem hlt)] using hk
  rw [gatherTags, List.length_replicate, List.length_flatMap, List.map_congr_left hlen]
  simp

theorem tagRequest_false (c : Cfg) : tagRequest c false = List.replicate c.pi 0 := by
  apply List.ext_getElem <;> simp [tagRequest]

theorem tagRequest_true (s : State) : tagRequest s.cfg true = s.tagLens := by simp [tagRequest, State.tagLens]

theorem tagRequest_length (c : Cfg) (w : Bool) : (tagRequest c w).length = c.pi := by simp [tagRequest]

/-- With a length for Piston 0 only, the tag is that Piston's (43_motorist R177). -/
theorem gatherTags_tagRequest {c : Cfg} (hpi : 1 ≤ c.pi) (ps : List Bytes) :
    gatherTags ps (tagRequest c true) = squeezedTag c ps := by
  obtain ⟨n, hn⟩ : ∃ n, c.pi = n + 1 := ⟨c.pi - 1, by omega⟩
  have hget : ∀ i < n + 1, (tagRequest c true).getD i 0 = if i = 0 then c.tagBytes else 0 := by
    intro i hi
    simp [tagRequest, hn, hi]
  have hothers : ∀ i ∈ List.range n, (ps.getD (i + 1) []).take ((tagRequest c true).getD (i + 1) 0) = [] := by
    intro i hi
    rw [hget _ (Nat.succ_lt_succ (List.mem_range.mp hi)), if_neg (Nat.succ_ne_zero i), List.take_zero]
  rw [gatherTags, tagRequest_length, hn, List.range_succ_eq_map, List.flatMap_cons, List.flatMap_map,
    List.flatMap_eq_nil_iff.mpr hothers, List.append_nil, hget 0 n.succ_pos, if_pos rfl, squeezedTag]

/-- Both branches of `M.HANDLETAG` squeeze what the request asks for; only a tag that was wanted is settled. -/
theorem mHandleTag_eq (w u : Bool) (s : State) : mHandleTag w u s =
    (eGetTags .tPrime (tagRequest s.cfg w) ((s.emit (.mHandleTag w u)).setTPrime ByteStream.empty) >>= fun t =>
      .ok (if w then ((settleTag u t).1, (settleTag u t).2.setTPrime ByteStream.empty)
        else (true, t.setTPrime ByteStream.empty))) := by
  cases w with
  | false => rw [tagRequest_false]; rfl
  | true => rw [tagRequest_true]; rfl

/-- The settling of the tag in `T′`: it is written when wrapping, and compared with the whole of `T` when unwrapping. -/
theorem settleTag_eq {u ok : Bool} {s : State} (hok : ok = false ↔ u = true ∧ s.tPrime.buf ≠ s.tag.buf) :
    settleTag u s = (ok, { s with
      phaseM := if ok then s.phaseM else .failed
      tag := if u = false then ByteStream.ofBytes s.tPrime.buf else s.tag }) := by
  cases u with
  | false =>
    obtain rfl : ok = true := by simpa using hok
    rfl
  | true =>
    by_cases heq : s.tPrime.buf = s.tag.buf
    · obtain rfl : ok = true := by simpa [heq] using hok
      exact if_pos ((tagComparisonIsEquality _ _).mpr heq)
    · obtain rfl : ok = false := by simpa [heq] using hok
      exact if_neg fun h => heq ((tagComparisonIsEquality _ _).mp h)

section
variable {s : State} (hb : s.Built)
include hb

theorem State.Built.squeezed (l : List Nat) : (s.squeezed l).Built :=
  hb.of_eq rfl (sparkAll_wf hb.facts.1 hb.memory ..)

theorem State.Built.tagRequest_le (w : Bool) : ∀ v ∈ tagRequest s.cfg w, v ≤ s.cfg.rs := by
  cases w with
  | false =>
    rw [tagRequest_false]
    exact fun v hv => (List.eq_of_mem_replicate hv).trans_le (Nat.zero_le _)
  | true =>
    rw [tagRequest_true]
    exact hb.tagLens_le

theorem State.Built.knotTags_length : (knotTags s.cfg s.pistons).length = s.cfg.pi * s.cfg.knotBytes := by
  obtain ⟨hlay, hrs, hra, _, _, _, _, hknot, _⟩ := hb.facts
  exact gatherTags_replicate_length (sparkAll_wf hlay hb.memory ..) (by omega)

variable (hE : s.phaseE = .endOfMessage)
include hE

/-- `E.GETTAGS` into the `T′` that the protocol of the word `i` has created. -/
theorem eGetTags_tPrime_ok (i : Instr) {l : List Nat} (hl : l.length = s.cfg.pi) (hle : ∀ v ∈ l, v ≤ s.cfg.rs) :
    eGetTags .tPrime l ((s.emit i).setTPrime ByteStream.empty) = .ok ((s.emit i).squeezed l) :=
  eGetTags_ok (s := (s.emit i).setTPrime ByteStream.empty) (dst := .tPrime) (hb.of_eq rfl hb.memory) hl hle rfl hE

/-! The ratchet (43_motorist R176) -/

/-- `M.KNOT` on a built block at the end of a message. -/
theorem mKnot_ok : ∃ tr, mKnot s = .ok { s with
    pistons := knotAll s.cfg s.pistons
    et := List.replicate s.cfg.pi
      (if s.cfg.ra < s.cfg.pi * s.cfg.knotBytes then 0 else BitVec.ofNat 8 s.cfg.knotBytes)
    tPrime := ByteStream.empty
    xt := []
    trace := s.trace ++ tr } := by
  obtain ⟨_, _, _, _, _, _, _, hknot, _⟩ := hb.facts
  have hlens : ∀ v ∈ s.knotLens, v ≤ s.cfg.rs := fun v hv => (List.eq_of_mem_replicate hv).trans_le hknot
  have htags := eGetTags_tPrime_ok hb hE .mKnot (List.length_replicate ..) hlens
  have hbk : (s.emit .mKnot).Built := hb.of_eq rfl hb.memory
  obtain ⟨tr, hinj⟩ := eInjColl_ok (d := false) (hbk.squeezed s.knotLens) (src := .tPrime) rfl rfl rfl
  have hlen : collectiveLength false (ByteStream.ofBytes (knotTags s.cfg s.pistons)).unread.length =
      s.cfg.pi * s.cfg.knotBytes := (congrArg List.length (ByteStream.ofBytes_unread _)).trans hb.knotTags_length
  have het : (if s.cfg.ra < s.cfg.pi * s.cfg.knotBytes then List.replicate s.cfg.pi 0
      else s.knotLens.map (BitVec.ofNat 8)) = List.replicate s.cfg.pi
        (if s.cfg.ra < s.cfg.pi * s.cfg.knotBytes then 0 else BitVec.ofNat 8 s.cfg.knotBytes) := by
    split
    · rfl
    · exact List.map_replicate
  refine ⟨encodeWord .mKnot :: ((eGetTagsTrace s.cfg).map encodeWord ++ tr),
    (bind_of_ok htags _).trans ((bind_of_ok hinj _).trans (congrArg Except.ok ?_))⟩
  simp only [State.squeezed, State.emit, State.setTPrime, State.setStream, State.mk.injEq, true_and, and_true]
  refine ⟨by rw [knotAll, ← mapIdx_const]; rfl, ?_, hE.symm, by simp⟩
  rw [← het, ← hlen]
  rfl

/-! The tag protocol (43_motorist R177, R179) -/

/-- The block after the tag protocol has sparked the Pistons and answered `ok` (43_motorist R177; log 10). -/
def State.tagHandled (s : State) (w u ok : Bool) (tr : List Byte) : State :=
  { s with
    pistons := sparkAll s.cfg true (tagRequest s.cfg w) s.pistons
    et := (tagRequest s.cfg w).map (BitVec.ofNat 8)
    phaseE := .fresh
    phaseM := if ok then s.phaseM else .failed
    tag := if w = true ∧ u = false then
        { buf := squeezedTag s.cfg (sparkAll s.cfg true (tagRequest s.cfg w) s.pistons), pos := 0 }
      else s.tag
    tPrime := ByteStream.empty
    trace := tr }

/-- `M.HANDLETAG` on a built block at the end of a message: it fails when it unwraps and the tag wanted is not on `T`. -/
theorem mHandleTag_ok {w u ok : Bool} (hok : ok = false ↔ w = true ∧ u = true ∧
      squeezedTag s.cfg (sparkAll s.cfg true (tagRequest s.cfg w) s.pistons) ≠ s.tag.buf) :
    ∃ tr, mHandleTag w u s = .ok (ok, s.tagHandled w u ok (s.trace ++ tr)) := by
  have htags := eGetTags_tPrime_ok hb hE (.mHandleTag w u) (tagRequest_length ..) (hb.tagRequest_le w)
  refine ⟨encodeWord (.mHandleTag w u) :: (eGetTagsTrace s.cfg).map encodeWord, ?_⟩
  rw [mHandleTag_eq]
  refine (bind_of_ok htags _).trans (congrArg Except.ok ?_)
  cases w with
  | false =>
    obtain rfl : ok = true := by simpa using hok
    simp [State.tagHandled, State.squeezed, State.setTPrime, State.emit]
  | true =>
    obtain ⟨_, _, _, _, _, hpi, _⟩ := hb.facts
    have htag := gatherTags_tagRequest hpi (sparkAll s.cfg true (tagRequest s.cfg true) s.pistons)
    have hsettle := settleTag_eq (u := u) (ok := ok) (s := (s.emit (.mHandleTag true u)).squeezed (tagRequest s.cfg true))
      (by simpa [State.squeezed, State.emit, ByteStream.ofBytes, htag] using hok)
    rw [if_pos rfl, hsettle]
    simp [State.tagHandled, State.squeezed, State.setTPrime, State.emit, ByteStream.ofBytes, htag]

/-! The end of a command: the ratchet when it is asked for, then the tag protocol (43_motorist R173, R175) -/

/-- The ratchet leaves the buffers and what the tag protocol then overwrites; no copy is left where there was none. -/
theorem knotIf_ok (asked : Bool) : ∃ es x xs tr, knotIf asked s = .ok { s with
    pistons := if asked then knotAll s.cfg s.pistons else s.pistons
    et := es
    tPrime := x
    xt := xs
    trace := s.trace ++ tr } ∧ (s.xt = [] → xs = []) := by
  cases asked with
  | false => exact ⟨s.et, s.tPrime, s.xt, [], by rw [List.append_nil]; rfl, id⟩
  | true =>
    obtain ⟨tr, h⟩ := mKnot_ok hb hE
    exact ⟨_, _, _, tr, h, fun _ => rfl⟩

/-- The buffers at the end of a command, from those at the end of its message. -/
def closedPistons (c : Cfg) (asked w : Bool) (ps : List Bytes) : List Bytes :=
  sparkAll c true (tagRequest c w) (if asked then knotAll c ps else ps)

/-- The block at the end of a command, before `RESULT` and `DONE` are written. -/
def State.closed (s : State) (asked w u ok : Bool) (xs : List ByteStream) (tr : List Byte) : State :=
  ({ s with pistons := if asked then knotAll s.cfg s.pistons else s.pistons, xt := xs } : State).tagHandled w u ok tr

/-- The end of a command on a built block at the end of a message. -/
theorem closing_ok (asked : Bool) {w u ok : Bool} (hok : ok = false ↔ w = true ∧ u = true ∧
      squeezedTag s.cfg (closedPistons s.cfg asked w s.pistons) ≠ s.tag.buf) :
    ∃ d xs tr, knotIf asked s = .ok d ∧ mHandleTag w u d = .ok (ok, s.closed asked w u ok xs (s.trace ++ tr)) ∧
      (s.xt = [] → xs = []) := by
  obtain ⟨es, x, xs, tr, hknot, hxs⟩ := knotIf_ok hb hE asked
  obtain ⟨tr', htag⟩ := mHandleTag_ok (hb.of_keeps (knotIf_keeps asked s) hknot) hE hok
  refine ⟨_, xs, tr ++ tr', hknot, htag.trans ?_, hxs⟩
  rw [← List.append_assoc]
  rfl

end

/-- Settles O42: the closed form of the ratchet. -/
theorem knotCompletes : Obligations.KnotCompletes := by
  unfold Obligations.KnotCompletes
  refine ⟨rfl, fun s hb hE => ?_⟩
  obtain ⟨tr, h⟩ := mKnot_ok hb hE
  rw [← hE]
  exact ⟨tr, congrArg settle h⟩

/-- Settles O43: the closed form of the tag protocol, its answer put on the result line. -/
theorem handleTagCompletes : Obligations.HandleTagCompletes := by
  unfold Obligations.HandleTagCompletes
  rintro w u ok s _ hb hE rfl hok
  obtain ⟨tr, h⟩ := mHandleTag_ok hb hE hok
  exact ⟨tr, congrArg settle (bind_of_ok h _)⟩

/-! The session start (43_motorist R173, R181) -/

theorem mStart_of_parts {w u g : Bool} {s a d : State} {r : Bool × State} (hM : s.phaseM = .ready)
    (hinj : eInjColl (.port .suv) true s = .ok a) (hknot : knotIf g a = .ok d) (htag : mHandleTag w u d = .ok r) :
    mStart w u g s = .ok (finishStart r) := by
  rw [mStart, if_neg (not_not_intro hM)]
  exact (bind_of_ok hinj _).trans ((bind_of_ok hknot _).trans (bind_of_ok htag _))

/-- Settles O44: the diversified injection brings the Engine to the end of a message, which the command then closes. -/
theorem startCompletes : Obligations.StartCompletes := by
  unfold Obligations.StartCompletes
  refine ⟨?_, fun w u g s => exec_mStart_of_phaseM_ne w u g⟩
  rintro w u g ok s _ _ _ hb hM hE rfl rfl rfl hok
  obtain ⟨tr, hinj⟩ := eInjColl_ok (d := true) hb (src := .port .suv) rfl rfl hE
  obtain ⟨d, xs, tr', hknot, htag, hxs⟩ :=
    closing_ok (hb.of_keeps (eInjColl_keeps ..) hinj) rfl g (w := w) (u := u) (ok := ok) hok
  obtain rfl := hxs rfl
  have hrun := congrArg settle (mStart_of_parts hM hinj hknot htag)
  refine ⟨tr ++ tr', hrun.trans (congrArg Host.Outcome.next ?_)⟩
  rw [List.append_assoc]
  cases ok <;> rfl

/-- Settles O48: the second block squeezes the tag the first one wrote, so it finds on `T` what it compares with. -/
theorem startSidesAgree : Obligations.StartSidesAgree := by
  unfold Obligations.StartSidesAgree
  intro w g s v t hb hM hE hcfg hps het hvE hvM hsuv hrun htag
  have hbv : v.Built := hb.of_eq hcfg (hps ▸ hb.memory)
  obtain ⟨_, hs⟩ := startCompletes.1 w false g true s _ _ _ hb hM hE rfl rfl rfl (by simp)
  obtain rfl := Host.Outcome.next.inj (hs.symm.trans hrun)
  obtain ⟨_, hv⟩ := startCompletes.1 w true g true v _ _ _ hbv (hvM.trans hM) (hvE.trans hE) rfl rfl rfl (by
    rw [hcfg, hps, hsuv]
    simp only [Bool.true_eq_false, false_iff]
    rintro ⟨rfl, -, hne⟩
    exact hne (htag rfl).symm)
  refine ⟨_, hv, rfl, ?_, ?_, rfl, rfl⟩
  · simp only [hcfg, hps, hsuv]
  · simp only [hcfg]

end Sys2Proof.Machine
end

section
/-! `M.WRAP` (43_motorist R175, R180, 44_host_interface R194): its loops on a built block, and what the command leaves. -/

namespace Sys2Proof.Machine

/-! What the operations of a message leave alone -/

/-- What `E.CRYPT(I, O)` and `E.INJECT(A)` keep: they read `I` and `A`, and append to `O` a byte for each byte of `I`. -/
structure State.Consumes (s t : State) : Prop where
  phaseM : t.phaseM = s.phaseM
  suv : t.suv = s.suv
  tag : t.tag = s.tag
  xt : t.xt = s.xt
  inp : t.inp.buf = s.inp.buf
  ad : t.ad.buf = s.ad.buf
  out : ∃ q, t.out = s.out.putAll q ∧ q.length + t.inp.unread.length = s.inp.unread.length

theorem State.Consumes.refl (s : State) : s.Consumes s :=
  ⟨rfl, rfl, rfl, rfl, rfl, rfl, [], by simp [ByteStream.putAll]⟩

theorem State.Consumes.trans {s t v : State} (h : s.Consumes t) (k : t.Consumes v) : s.Consumes v := by
  obtain ⟨q, hq, hlen⟩ := h.out
  obtain ⟨r, hr, hlen'⟩ := k.out
  refine ⟨k.phaseM.trans h.phaseM, k.suv.trans h.suv, k.tag.trans h.tag, k.xt.trans h.xt, k.inp.trans h.inp,
    k.ad.trans h.ad, q ++ r, ?_, ?_⟩
  · rw [hr, hq, ByteStream.putAll_putAll]
  · rw [List.length_append]
    omega

/-- When `I` is exhausted, `O` has grown by as many bytes as `I` had. -/
theorem State.Consumes.out_of_exhausted {s t : State} (h : s.Consumes t) (hdone : t.inp.hasMore = false) :
    ∃ q, t.out = s.out.putAll q ∧ q.length = s.inp.unread.length := by
  obtain ⟨q, hq, hlen⟩ := h.out
  rw [(ByteStream.hasMore_eq_false_iff _).mp hdone, List.length_nil, Nat.add_zero] at hlen
  exact ⟨q, hq, hlen⟩

/-- The block between two turns: the Engine phase is `fresh` while something is left to read, and `endOfMessage` after. -/
structure State.BetweenTurns (s : State) : Prop where
  built : s.Built
  phaseE : s.phaseE = if s.inp.hasMore = true ∨ s.ad.hasMore = true then .fresh else .endOfMessage

/-! The bytes an `E.CRYPT` emits (42_engine R150) -/

theorem State.cryptSegment_length_le (s : State) (data : Bytes) (i : Nat) :
    (s.cryptSegment data i).length ≤ s.cfg.rs - (s.et.getD i 0).toNat := by
  rw [State.cryptSegment, segment, List.length_take]
  exact Nat.min_le_left ..

/-- The buffer of a Piston that is there. -/
theorem getD_of_getElem? {ps : List Bytes} {i : Nat} {S : Bytes} (h : ps[i]? = some S) : ps.getD i [] = S := by
  rw [List.getD_eq_getElem?_getD, h, Option.getD_some]

section
variable {s : State} (hb : s.Built)
include hb

/-- A Piston emits a byte for each byte of its segment, whose room is inside its buffer. -/
theorem State.Built.cryptSegment_fits {i : Nat} {S : Bytes} (hS : s.pistons[i]? = some S) (data : Bytes) :
    (s.cryptSegment data i).length ≤ S.length - (s.et.getD i 0).toNat :=
  fits_of_pistonBuilt (hb.pistonBuilt hS) (s.cryptSegment_length_le data i)

/-- A byte is emitted for each byte there is room for. -/
theorem State.Built.cryptOut_length (data : Bytes) {k : Nat} (hk : k ≤ s.cfg.pi) :
    (s.cryptOut data k).length = min data.length (s.cryptRoomBefore k) := by
  induction k with
  | zero => simp [State.cryptOut, State.cryptRoomBefore]
  | succ k ih =>
    obtain ⟨S, hS⟩ := hb.get hk
    have hlen := duplexOutput_length_of_fits (hb.cryptSegment_fits hS data)
    rw [State.cryptOut_succ, List.length_append, ih (Nat.le_of_succ_le hk), getD_of_getElem? hS, hlen,
      State.cryptRoomBefore_succ, State.cryptSegment, segment_length]

/-- What an `E.CRYPT(I, O)` in phase `fresh` leaves. -/
theorem eCrypt_consumes (hE : s.phaseE = .fresh) (u : Bool) :
    ∃ t, eCrypt (.port .inp) (.port .out) u s = .ok t ∧ t.Built ∧ s.Consumes t ∧
      t.phaseE = if t.inp.hasMore then .crypted else .endOfCrypt := by
  have e := eCrypt_ok hb (src := .port .inp) (dst := .port .out) (u := u) (by decide) rfl rfl hE
  refine ⟨_, e, hb.of_keeps (eCrypt_keeps ..) e,
    ⟨rfl, rfl, rfl, rfl, rfl, rfl, s.cryptOut s.inp.unread s.cfg.pi, rfl, ?_⟩,
    (if_congr (ByteStream.hasMore_advance_min s.inp _) rfl rfl).symm⟩
  rw [hb.cryptOut_length _ le_rfl]
  show _ + (s.inp.advance (min s.inp.unread.length (s.cryptRoomBefore s.cfg.pi))).unread.length = s.inp.unread.length
  rw [ByteStream.advance_unread, List.length_drop]
  omega

/-- What an `E.INJECT(A)` leaves. -/
theorem eInject_consumes (hE : s.phaseE ≠ .endOfMessage) :
    ∃ t, eInject (.port .ad) s = .ok t ∧ t.Built ∧ s.Consumes t ∧ t.inp = s.inp ∧
      t.phaseE = if s.phaseE = .crypted ∨ t.ad.hasMore = true then .fresh else .endOfMessage := by
  have e := eInject_ok hb (src := .port .ad) rfl hE rfl rfl rfl
  have hmore (n : Nat) : injectSparks s.phaseE s.ad.unread.length n = true ↔
      s.phaseE = .crypted ∨ (s.ad.advance (min s.ad.unread.length n)).hasMore = true := by
    rw [ByteStream.hasMore_advance_min, injectSparks_iff]
  refine ⟨_, e, hb.of_keeps (eInject_keeps ..) e, ⟨rfl, rfl, rfl, rfl, rfl, rfl, [], ?_, ?_⟩, rfl,
    if_congr (hmore _) rfl rfl⟩
  · simp [ByteStream.putAll, State.setStream, State.setPort]
  · simp [State.setStream, State.setPort]

end

/-! The loops of `M.WRAP` (43_motorist R175) -/

theorem State.BetweenTurns.fresh {s : State} (h : s.BetweenTurns) (hmore : s.inp.hasMore = true ∨ s.ad.hasMore = true) :
    s.phaseE = .fresh := h.phaseE.trans (if_pos hmore)

/-- One turn of the first loop: the injection sparks as long as the crypt left something of `I`. -/
theorem blockTurn_ok {s : State} (h : s.BetweenTurns) (hmore : s.inp.hasMore = true) (u : Bool) :
    ∃ s₁ s₂, eCrypt (.port .inp) (.port .out) u s = .ok s₁ ∧ eInject (.port .ad) s₁ = .ok s₂ ∧ s₂.BetweenTurns ∧
      s.Consumes s₂ := by
  obtain ⟨s₁, hcrypt, hb₁, hc₁, hE₁⟩ := eCrypt_consumes h.built (h.fresh (.inl hmore)) u
  have hne : s₁.phaseE ≠ .endOfMessage := by rw [hE₁]; split <;> decide
  have hcrypted : s₁.phaseE = .crypted ↔ s₁.inp.hasMore = true := by rw [hE₁]; split <;> simp [*]
  obtain ⟨s₂, hinject, hb₂, hc₂, hinp, hE₂⟩ := eInject_consumes hb₁ hne
  exact ⟨s₁, s₂, hcrypt, hinject, ⟨hb₂, hE₂.trans (if_congr (by rw [hcrypted, hinp]) rfl rfl)⟩, hc₁.trans hc₂⟩

/-- An injection of `A` when nothing is left of `I`. -/
theorem restTurn_ok {s : State} (hb : s.Built) (hE : s.phaseE = .fresh) (hinp : s.inp.hasMore = false) :
    ∃ t, eInject (.port .ad) s = .ok t ∧ t.BetweenTurns ∧ s.Consumes t ∧ t.inp.hasMore = false := by
  obtain ⟨t, hinject, hbt, hc, hinpt, hEt⟩ := eInject_consumes hb (by simp [hE])
  rw [← hinpt] at hinp
  exact ⟨t, hinject, ⟨hbt, by simpa [hE, hinp] using hEt⟩, hc, hinp⟩

/-- One injection of nothing takes an empty message to its end. -/
theorem wrapEmpty_ok {s : State} (hb : s.Built) (hE : s.phaseE = .fresh) :
    ∃ a, wrapEmpty s = .ok a ∧ a.BetweenTurns ∧ s.Consumes a ∧
      if s.inp.hasMore = false ∧ s.ad.hasMore = false then eInject (.port .ad) s = .ok a else a = s := by
  by_cases hempty : s.inp.hasMore = false ∧ s.ad.hasMore = false
  · obtain ⟨a, hinject, ha, hc, -⟩ := restTurn_ok hb hE hempty.1
    refine ⟨a, ?_, ha, hc, ?_⟩
    · simpa [wrapEmpty, hempty] using hinject
    · simpa [hempty] using hinject
  · refine ⟨s, ?_, ⟨hb, ?_⟩, .refl s, by rw [if_neg hempty]⟩
    · exact if_neg (by simpa using hempty)
    · exact hE.trans (if_pos (by simpa [or_iff_not_imp_left] using hempty)).symm

/-- The first loop of `M.WRAP` as far as its bound lets it run. -/
theorem wrapBlocks_runs (u : Bool) (n : Nat) {s : State} (h : s.BetweenTurns) :
    Yields (fun t => BlockLoop u s t ∧ t.BetweenTurns ∧ s.Consumes t ∧ t.inp.hasMore = false) (wrapBlocks u n s) := by
  induction n generalizing s with
  | zero => exact .endless
  | succ n ih =>
    unfold wrapBlocks
    cases hmore : s.inp.hasMore with
    | false => exact .ok ⟨.stop hmore, h, .refl s, hmore⟩
    | true =>
      obtain ⟨s₁, s₂, hcrypt, hinject, h₂, hc⟩ := blockTurn_ok h hmore u
      rw [if_pos rfl, bind_of_ok hcrypt, bind_of_ok hinject]
      exact (ih h₂).mono fun t ⟨hloop, ht, hct, hdone⟩ => ⟨.turn hmore hcrypt hinject hloop, ht, hc.trans hct, hdone⟩

/-- The second loop of `M.WRAP` as far as its bound lets it run. -/
theorem wrapRest_runs (n : Nat) {s : State} (h : s.BetweenTurns) (hinp : s.inp.hasMore = false) :
    Yields (fun t => RestLoop s t ∧ t.BetweenTurns ∧ s.Consumes t ∧ t.inp.hasMore = false ∧ t.ad.hasMore = false)
      (wrapRest n s) := by
  induction n generalizing s with
  | zero => exact .endless
  | succ n ih =>
    unfold wrapRest
    cases hmore : s.ad.hasMore with
    | false => exact .ok ⟨.stop hmore, h, .refl s, hinp, hmore⟩
    | true =>
      obtain ⟨s₁, hinject, h₁, hc, hinp₁⟩ := restTurn_ok h.built (h.fresh (.inr hmore)) hinp
      rw [if_pos rfl, bind_of_ok hinject]
      exact (ih h₁ hinp₁).mono fun t ⟨hloop, ht, hct, hdone⟩ => ⟨.turn hmore hinject hloop, ht, hc.trans hct, hdone⟩

/-- `c` is the block at the end of the message that `s` began: nothing is left to read, and the tags are due. -/
structure State.MessageEnd (s c : State) : Prop where
  built : c.Built
  phaseE : c.phaseE = .endOfMessage
  consumes : s.Consumes c
  inp : c.inp.hasMore = false
  ad : c.ad.hasMore = false

/-- A value that comes of an operation which raises no fault, and which ends. -/
theorem Yields.ok_of_ends {α : Type} {P : α → Prop} {r : Result α} (h : Yields P r) (he : Ends r) :
    ∃ a, r = .ok a ∧ P a := by
  cases h with
  | ok h => exact ⟨_, rfl, h⟩
  | endless => exact absurd rfl he

/-- The body of `M.WRAP` runs the loops of R175 to the end of the message. -/
theorem wrapBody_ok {s : State} (hb : s.Built) (hE : s.phaseE = .fresh) (u : Bool) :
    ∃ c, wrapBody u s = .ok c ∧ s.MessageEnd c ∧ ∃ a b,
      (if s.inp.hasMore = false ∧ s.ad.hasMore = false then eInject (.port .ad) s = .ok a else a = s) ∧
      BlockLoop u a b ∧ RestLoop b c := by
  obtain ⟨a, hempty, ha, hca, hcond⟩ := wrapEmpty_ok hb hE
  refine Yields.ok_of_ends ?_ (wrapBody_ends u hb)
  rw [wrapBody, bind_of_ok hempty]
  refine (wrapBlocks_runs u _ ha).bind fun b ⟨hblocks, hbt, hcb, hinp⟩ =>
    (wrapRest_runs _ hbt hinp).mono fun c ⟨hrest, hct, hcc, hinp', had⟩ =>
      ⟨⟨hct.built, ?_, hca.trans (hcb.trans hcc), hinp', had⟩, a, b, hcond, hblocks, hrest⟩
  rw [hct.phaseE, if_neg (by simp [hinp', had])]

/-! The command (43_motorist R175) -/

/-- Whether `M.WRAP` ratchets: there is more than one Piston, or it is asked to. -/
def wrapKnots (c : Cfg) (g : Bool) : Bool := decide (1 < c.pi) || g

/-- The buffers `M.WRAP` leaves, from those at the end of its message. -/
def wrapPistons (c : Cfg) (g : Bool) (ps : List Bytes) : List Bytes := closedPistons c (wrapKnots c g) true ps

theorem mWrap_of_parts {u g : Bool} {s c d : State} {r : Bool × State} (hM : s.phaseM = .riding)
    (hbody : wrapBody u s = .ok c) (hknot : knotIf (wrapKnots c.cfg g) c = .ok d)
    (htag : mHandleTag true u d = .ok r) : mWrap u g s = .ok (finishWrap r) := by
  rw [mWrap, if_neg (not_not_intro hM)]
  exact (bind_of_ok hbody _).trans ((bind_of_ok hknot _).trans (bind_of_ok htag _))

theorem exists_bool_eq_false_iff (p : Prop) [Decidable p] : ∃ ok : Bool, ok = false ↔ p := ⟨!decide p, by simp⟩

theorem knotIf_eq_ok_iff (asked : Bool) (s d : State) :
    knotIf asked s = .ok d ↔ if asked = true then mKnot s = .ok d else d = s := by
  cases asked with
  | false => exact Except.ok.injEq s d ▸ eq_comm
  | true => exact Iff.rfl

section
variable {u g ok : Bool} {s c : State} (hM : s.phaseM = .riding) (hbody : wrapBody u s = .ok c) (hc : s.MessageEnd c)
  (hok : ok = false ↔ u = true ∧ squeezedTag c.cfg (wrapPistons c.cfg g c.pistons) ≠ c.tag.buf)
include hc hok

/-- The ratchet and the tag protocol of `M.WRAP`. -/
theorem wrapClosing_ok : ∃ d xs tr, knotIf (wrapKnots c.cfg g) c = .ok d ∧
    mHandleTag true u d = .ok (ok, c.closed (wrapKnots c.cfg g) true u ok xs tr) ∧ (c.xt = [] → xs = []) := by
  obtain ⟨d, xs, tr, h⟩ := closing_ok hc.built hc.phaseE (wrapKnots c.cfg g) (w := true) (hok.trans (and_iff_right rfl).symm)
  exact ⟨d, xs, c.trace ++ tr, h⟩

include hM hbody

/-- `M.WRAP` from the end of its message on. -/
theorem mWrap_of_messageEnd :
    ∃ xs tr, mWrap u g s = .ok { c.closed (wrapKnots c.cfg g) true u ok xs tr with
        out := if ok then c.out else ByteStream.empty
        result := ok
        done := true } ∧ (c.xt = [] → xs = []) := by
  obtain ⟨d, xs, tr, hknot, htag, hxs⟩ := wrapClosing_ok hc hok
  refine ⟨xs, tr, (mWrap_of_parts hM hbody hknot htag).trans ?_, hxs⟩
  cases ok <;> rfl

end

/-- Settles O45: the body runs its loops to the end of the message, and the command's end meets no test that fails. -/
theorem wrapRunsItsSequence : Obligations.WrapRunsItsSequence := by
  unfold Obligations.WrapRunsItsSequence
  refine ⟨fun u g s hb hM hE => ?_, fun u g s => exec_mWrap_of_phaseM_ne u g⟩
  obtain ⟨c, hbody, hc, a, b, hempty, hblocks, hrest⟩ := wrapBody_ok hb hE u
  obtain ⟨ok, hok⟩ := exists_bool_eq_false_iff
    (u = true ∧ squeezedTag c.cfg (wrapPistons c.cfg g c.pistons) ≠ c.tag.buf)
  obtain ⟨d, xs, tr, hknot, htag, -⟩ := wrapClosing_ok hc hok
  have hrun := congrArg settle (mWrap_of_parts hM hbody hknot htag)
  refine ⟨a, b, c, d, _, hempty, hblocks, hrest, hc.phaseE, ?_, htag, hrun.trans ?_⟩
  · simpa [wrapKnots] using (knotIf_eq_ok_iff ..).mp hknot
  · cases ok <;> rfl

/-- A stream with its cursor inside it and nothing left to read has its cursor at the end. -/
theorem ByteStream.eq_of_exhausted {x : ByteStream} {vs : Bytes} (hx : x.ok = true) (h : x.hasMore = false)
    (hbuf : x.buf = vs) : x = { buf := vs, pos := vs.length } := by
  subst hbuf
  have hle : x.pos ≤ x.buf.length := of_decide_eq_true hx
  have hge : ¬ x.pos < x.buf.length := of_decide_eq_false h
  rw [← Nat.le_antisymm hle (Nat.not_lt.mp hge)]

theorem Keeps.kept {s t : State} {r : Result State} (k : KeepsState s r) (h : r = .ok t) : Kept s t := by
  subst h
  exact k

/-- Settles O46: the message consumes `I` and `A`, and the end of the command writes what is left to write. -/
theorem wrapCompletes : Obligations.WrapCompletes := by
  unfold Obligations.WrapCompletes
  intro u g s hb hM hE hstreams
  obtain ⟨c, hbody, hc, -⟩ := wrapBody_ok hb hE u
  obtain ⟨ok, hok⟩ := exists_bool_eq_false_iff
    (u = true ∧ squeezedTag c.cfg (wrapPistons c.cfg g c.pistons) ≠ c.tag.buf)
  obtain ⟨xs, tr, hrun, hxs⟩ := mWrap_of_messageEnd hM hbody hc hok
  have kc := (wrapBody_keeps u s).kept hbody
  have kt := (mWrap_keeps u g s).kept hrun
  obtain ⟨hports, -⟩ := (State.streamsOk_iff c).mp (kc.streams hstreams)
  obtain ⟨q, hout, hlen⟩ := hc.consumes.out_of_exhausted hc.inp
  rw [hc.consumes.tag] at hok
  refine ⟨_, congrArg settle hrun, ?_, ?_, rfl, ?_, rfl, rfl, ?_, ?_, ?_, ?_, ?_, ?_, kt.cfgPort, kt.cfg,
    hc.consumes.suv, kt.fault, kt.cause, kt.lines, kt.issue, kt.host, kt.faultCount⟩
  · exact ByteStream.eq_of_exhausted (hports .inp) hc.inp hc.consumes.inp
  · exact ByteStream.eq_of_exhausted (hports .ad) hc.ad hc.consumes.ad
  · rw [← kc.cfg]
    rfl
  · exact fun h => hxs (hc.consumes.xt.trans h)
  · exact kt.cfg ▸ kt.memory hb.memory
  · rintro rfl
    exact ⟨hc.consumes.phaseM.trans hM, (congrArg ByteStream.pos hout :), q, hlen, (congrArg ByteStream.buf hout :)⟩
  · rintro rfl
    exact ⟨(hok.mp rfl).1, rfl, rfl⟩
  · rintro rfl
    rw [← kc.cfg]
    rfl
  · rintro rfl
    rw [← kc.cfg]
    refine ⟨hc.consumes.tag, ?_⟩
    show ok = true ↔ squeezedTag c.cfg (wrapPistons c.cfg g c.pistons) = s.tag.buf
    rw [← Bool.not_eq_false, hok]
    simp

end Sys2Proof.Machine
end

section
/-! The two sides of a message (43_motorist R181): a block that unwraps what an equal one wraps goes through
equal states. -/

namespace Sys2Proof.Machine

/-- Two blocks in the same state, as far as the Pistons and the Engine go, with the same associated data to read. -/
structure State.Matches (s v : State) : Prop where
  cfg : v.cfg = s.cfg
  pistons : v.pistons = s.pistons
  et : v.et = s.et
  phaseE : v.phaseE = s.phaseE
  ad : v.ad.unread = s.ad.unread

section
variable {s v : State} (hm : s.Matches v)
include hm

theorem State.Matches.built (hb : s.Built) : v.Built := hb.of_eq hm.cfg (hm.pistons ▸ hb.memory)

theorem State.Matches.cryptRoomBefore (i : Nat) : v.cryptRoomBefore i = s.cryptRoomBefore i := by
  have hroom : v.cryptRoom = s.cryptRoom := funext fun i => by rw [State.cryptRoom, State.cryptRoom, hm.cfg, hm.et]
  rw [State.cryptRoomBefore, State.cryptRoomBefore, hroom]

theorem State.Matches.cryptSegment (data : Bytes) (i : Nat) : v.cryptSegment data i = s.cryptSegment data i := by
  simp only [State.cryptSegment, hm.cryptRoomBefore, State.cryptRoom, hm.cfg, hm.et]

theorem State.Matches.cryptOut (data : Bytes) (n : Nat) : v.cryptOut data n = s.cryptOut data n := by
  simp only [State.cryptOut, hm.cryptSegment, hm.et, hm.pistons]

theorem State.Matches.cryptAll (u : Bool) (data : Bytes) : v.cryptAll u data = s.cryptAll u data := by
  simp only [State.cryptAll, hm.cryptSegment, hm.cfg, hm.et, hm.pistons]

end

/-! `E.CRYPT` in the two directions (41_piston R130 b, 42_engine R150) -/

theorem State.cryptOut_prefix (s : State) (data : Bytes) {k n : Nat} (h : k ≤ n) :
    s.cryptOut data k <+: s.cryptOut data n := by
  induction n, h using Nat.le_induction with
  | base => exact List.prefix_rfl
  | succ n _ ih => exact ih.trans (s.cryptOut_succ data n ▸ List.prefix_append ..)

section
variable {s : State} (hb : s.Built) {data emitted : Bytes} (hlen : emitted.length = data.length)
  (hout : s.cryptOut data s.cfg.pi <+: emitted)
include hb hlen hout

/-- Of the bytes a block has emitted, those that go into the room of its first Pistons are what these emitted. -/
theorem State.Built.take_emitted {k : Nat} (hk : k ≤ s.cfg.pi) :
    emitted.take (s.cryptRoomBefore k) = s.cryptOut data k := by
  have hprefix := (s.cryptOut_prefix data hk).trans hout
  rw [List.prefix_iff_eq_take.mp hprefix, hb.cryptOut_length data hk, ← hlen, List.take_eq_take_iff]
  omega

/-- An unwrapping block deals each Piston the bytes that the wrapping one emitted. -/
theorem State.Built.cryptSegment_emitted {k : Nat} {S : Bytes} (hS : s.pistons[k]? = some S) :
    s.cryptSegment emitted k = duplexOutput (s.et.getD k 0).toNat S (s.cryptSegment data k) := by
  have hk : k < s.cfg.pi := hb.length ▸ (List.getElem?_eq_some_iff.mp hS).1
  have h := hb.take_emitted hlen hout (Nat.succ_le_of_lt hk)
  rw [State.cryptRoomBefore_succ, List.take_add, State.cryptOut_succ, hb.take_emitted hlen hout hk.le,
    getD_of_getElem? hS] at h
  exact List.append_cancel_left h

theorem State.Built.cryptAll_emitted : s.cryptAll true emitted = s.cryptAll false data := by
  refine List.ext_getElem? fun i => ?_
  rw [State.cryptAll, State.cryptAll, List.getElem?_mapIdx, List.getElem?_mapIdx]
  refine Option.map_congr fun S hS => ?_
  rw [hb.cryptSegment_emitted hlen hout hS,
    duplexCrypt_duplexOutput (hb.pistonBuilt hS) (s.cryptSegment_length_le data i)]

/-- An unwrapping block emits the bytes that the wrapping one was given, as far as the room goes. -/
theorem State.Built.cryptOut_emitted {k : Nat} (hk : k ≤ s.cfg.pi) :
    s.cryptOut emitted k = data.take (s.cryptRoomBefore k) := by
  induction k with
  | zero => simp [State.cryptOut, State.cryptRoomBefore]
  | succ k ih =>
    obtain ⟨S, hS⟩ := hb.get hk
    rw [State.cryptOut_succ, ih (Nat.le_of_succ_le hk), getD_of_getElem? hS, hb.cryptSegment_emitted hlen hout hS,
      duplexOutput_duplexOutput (hb.cryptSegment_fits hS data), State.cryptRoomBefore_succ, List.take_add]
    rfl

end

/-! The operations of a message on the two sides -/

/-- The streams `I` and `O` are as they were. -/
structure State.SameMessage (s t : State) : Prop where
  inp : t.inp = s.inp
  out : t.out = s.out

theorem State.SameMessage.trans {s t u : State} (h : s.SameMessage t) (k : t.SameMessage u) : s.SameMessage u :=
  ⟨k.inp.trans h.inp, k.out.trans h.out⟩

section
variable {s t : State} (hb : s.Built)
include hb

theorem eInject_sameMessage (h : eInject (.port .ad) s = .ok t) : s.SameMessage t := by
  by_cases hE : s.phaseE = .endOfMessage
  · cases (eInject_of_endOfMessage _ hE).symm.trans h
  · cases (eInject_ok hb (src := .port .ad) rfl hE rfl rfl rfl).symm.trans h
    exact ⟨rfl, rfl⟩

theorem wrapEmpty_sameMessage (h : wrapEmpty s = .ok t) : s.SameMessage t := by
  unfold wrapEmpty at h
  split at h
  · exact eInject_sameMessage hb h
  · cases h
    exact ⟨rfl, rfl⟩

end

theorem wrapRest_sameMessage (n : Nat) {s t : State} (hb : s.Built) (h : wrapRest n s = .ok t) : s.SameMessage t := by
  induction n generalizing s with
  | zero => cases h
  | succ n ih =>
    unfold wrapRest at h
    split at h
    · obtain ⟨s₁, hinject, h⟩ := bind_eq_ok h
      exact (eInject_sameMessage hb hinject).trans (ih (hb.of_keeps (eInject_keeps ..) hinject) h)
    · cases h
      exact ⟨rfl, rfl⟩

/-- `E.INJECT(A)` takes blocks that match to blocks that match. -/
theorem eInject_matches {s s' v : State} (hb : s.Built) (hm : s.Matches v) (h : eInject (.port .ad) s = .ok s') :
    ∃ v', eInject (.port .ad) v = .ok v' ∧ s'.Matches v' := by
  have hE : s.phaseE ≠ .endOfMessage := fun hE => nomatch (eInject_of_endOfMessage _ hE).symm.trans h
  have hs := eInject_ok hb (src := .port .ad) (x := s.ad) rfl hE rfl rfl rfl
  have hv := eInject_ok (hm.built hb) (src := .port .ad) (x := v.ad) rfl (hm.phaseE ▸ hE)
    (congrArg PhaseE.crypting hm.phaseE) (by rw [hm.cfg]) (by rw [hm.phaseE, hm.ad])
  obtain rfl := Except.ok.inj (hs.symm.trans h)
  refine ⟨_, hv, hm.cfg, ?_, ?_, rfl, ?_⟩
  · simp only [hm.ad, hm.cfg, hm.pistons, State.zeroLens]
  · simp only [hm.cfg, hm.et]
  · refine (ByteStream.advance_unread ..).trans (Eq.trans ?_ (ByteStream.advance_unread ..).symm)
    rw [hm.ad]

/-- `E.CRYPT(I, O)`, wrapping on one side: given the bytes this one emits, and as many more as it has left to read, the
block that unwraps emits the bytes this one read. -/
theorem eCrypt_matches {s s' v : State} {q rest : Bytes} (hb : s.Built) (hm : s.Matches v)
    (h : eCrypt (.port .inp) (.port .out) false s = .ok s') (hq : s'.out = s.out.putAll q)
    (hrest : rest.length = s'.inp.unread.length) (hinp : v.inp.unread = q ++ rest) :
    ∃ v', eCrypt (.port .inp) (.port .out) true v = .ok v' ∧ s'.Matches v' ∧ v'.inp.unread = rest ∧
      v'.out.buf ++ s'.inp.unread = v.out.buf ++ s.inp.unread := by
  have hE : s.phaseE = .fresh := by_contra fun hE => nomatch (eCrypt_of_phaseE_ne _ _ _ hE).symm.trans h
  have hne : StreamName.port .inp ≠ .port .out := by decide
  have hs := eCrypt_ok hb (u := false) (x := s.inp) (o := s.out) hne rfl rfl hE
  have hv := eCrypt_ok (hm.built hb) (u := true) (x := v.inp) (o := v.out) hne rfl rfl (hm.phaseE.trans hE)
  obtain rfl := Except.ok.inj (hs.symm.trans h)
  obtain rfl : s.cryptOut s.inp.unread s.cfg.pi = q := List.append_cancel_left (congrArg ByteStream.buf hq)
  have hleft : (s.inp.advance (min s.inp.unread.length (s.cryptRoomBefore s.cfg.pi))).unread =
      s.inp.unread.drop (min s.inp.unread.length (s.cryptRoomBefore s.cfg.pi)) := ByteStream.advance_unread ..
  have hout := hb.cryptOut_length s.inp.unread le_rfl
  have hrest' : rest.length = s.inp.unread.length - min s.inp.unread.length (s.cryptRoomBefore s.cfg.pi) :=
    hrest.trans ((congrArg List.length hleft).trans (List.length_drop ..))
  have hlen : (s.cryptOut s.inp.unread s.cfg.pi ++ rest).length = s.inp.unread.length := by
    rw [List.length_append, hout, hrest']
    omega
  have hprefix := List.prefix_append (s.cryptOut s.inp.unread s.cfg.pi) rest
  refine ⟨_, hv, ⟨hm.cfg, ?_, hm.et, ?_, hm.ad⟩, ?_, ?_⟩
  · exact (hm.cryptAll ..).trans (by rw [hinp, hb.cryptAll_emitted hlen hprefix])
  · simp only [hm.cfg, hm.cryptRoomBefore, hinp, hlen]
  · refine (ByteStream.advance_unread ..).trans ?_
    rw [hm.cfg, hm.cryptRoomBefore, hinp, hlen, ← hout, List.drop_left]
  · show v.out.buf ++ v.cryptOut v.inp.unread v.cfg.pi ++
      (s.inp.advance (min s.inp.unread.length (s.cryptRoomBefore s.cfg.pi))).unread = v.out.buf ++ s.inp.unread
    have htake : s.inp.unread.take (s.cryptRoomBefore s.cfg.pi) =
        s.inp.unread.take (min s.inp.unread.length (s.cryptRoomBefore s.cfg.pi)) := by
      rw [List.take_eq_take_iff]
      omega
    rw [hleft, hm.cryptOut, hm.cfg, hinp, hb.cryptOut_emitted hlen hprefix le_rfl, htake, List.append_assoc,
      List.take_append_drop]

/-! The loops on the two sides -/

theorem Yields.of_ok {α : Type} {P : α → Prop} {r : Result α} {a : α} (h : Yields P r) (hr : r = .ok a) : P a := by
  subst hr
  cases h with
  | ok h => exact h

theorem ByteStream.hasMore_congr {x y : ByteStream} (h : x.unread.length = y.unread.length) : x.hasMore = y.hasMore := by
  rw [Bool.eq_iff_iff, x.hasMore_iff, y.hasMore_iff, h]

/-- One turn of the first loop of `M.WRAP`. -/
theorem blockTurn_matches {s s₁ s₂ v : State} {q rest : Bytes} (hb : s.Built) (hm : s.Matches v)
    (hcrypt : eCrypt (.port .inp) (.port .out) false s = .ok s₁) (hinject : eInject (.port .ad) s₁ = .ok s₂)
    (hq : s₂.out = s.out.putAll q) (hrest : rest.length = s₂.inp.unread.length) (hinp : v.inp.unread = q ++ rest) :
    ∃ v₁ v₂, eCrypt (.port .inp) (.port .out) true v = .ok v₁ ∧ eInject (.port .ad) v₁ = .ok v₂ ∧ s₂.Matches v₂ ∧
      v₂.inp.unread = rest ∧ v₂.out.buf ++ s₂.inp.unread = v.out.buf ++ s.inp.unread := by
  have hb₁ := hb.of_keeps (eCrypt_keeps ..) hcrypt
  have hs := eInject_sameMessage hb₁ hinject
  obtain ⟨v₁, hcrypt', hm₁, hinp₁, hout₁⟩ := eCrypt_matches hb hm hcrypt (hs.out ▸ hq) (hs.inp ▸ hrest) hinp
  obtain ⟨v₂, hinject', hm₂⟩ := eInject_matches hb₁ hm₁ hinject
  have hv := eInject_sameMessage (hm₁.built hb₁) hinject'
  exact ⟨v₁, v₂, hcrypt', hinject', hm₂, hv.inp ▸ hinp₁, by rw [hv.out, hs.inp, hout₁]⟩

/-- The first loop: the unwrapping side reads the bytes the other emitted, and emits those the other read. -/
theorem wrapBlocks_matches (n : Nat) {s t v : State} {q : Bytes} (h : s.BetweenTurns) (hm : s.Matches v)
    (hrun : wrapBlocks false n s = .ok t) (hq : t.out = s.out.putAll q) (hinp : v.inp.unread = q)
    (hlen : q.length = s.inp.unread.length) :
    ∃ v', wrapBlocks true n v = .ok v' ∧ t.Matches v' ∧ v'.out.buf = v.out.buf ++ s.inp.unread := by
  induction n generalizing s v q with
  | zero => cases hrun
  | succ n ih =>
    have hv : v.inp.hasMore = s.inp.hasMore := ByteStream.hasMore_congr (by rw [hinp, hlen])
    unfold wrapBlocks at hrun ⊢
    rw [hv]
    cases hmore : s.inp.hasMore with
    | false =>
      rw [hmore] at hrun
      cases hrun
      rw [(ByteStream.hasMore_eq_false_iff _).mp hmore, List.append_nil]
      exact ⟨v, rfl, hm, rfl⟩
    | true =>
      obtain ⟨s₁, s₂, hcrypt, hinject, h₂, hc⟩ := blockTurn_ok h hmore false
      rw [if_pos hmore, bind_of_ok hcrypt, bind_of_ok hinject] at hrun
      obtain ⟨-, -, hct, hdone⟩ := (wrapBlocks_runs false n h₂).of_ok hrun
      obtain ⟨q₁, hq₁, hlen₁⟩ := hc.out
      obtain ⟨q₂, hq₂, hlen₂⟩ := hct.out_of_exhausted hdone
      have hsplit : q = q₁ ++ q₂ := by
        rw [hq₂, hq₁, ByteStream.putAll_putAll] at hq
        exact (List.append_cancel_left (congrArg ByteStream.buf hq)).symm
      obtain ⟨v₁, v₂, hcrypt', hinject', hm₂, hinp₂, hout₂⟩ :=
        blockTurn_matches h.built hm hcrypt hinject hq₁ hlen₂ (hinp.trans hsplit)
      obtain ⟨v', hrun', hmt, hout⟩ := ih h₂ hm₂ hrun hq₂ hinp₂ hlen₂
      rw [if_pos rfl, bind_of_ok hcrypt', bind_of_ok hinject']
      exact ⟨v', hrun', hmt, hout.trans hout₂⟩

theorem wrapRest_matches (n : Nat) {s t v : State} (hb : s.Built) (hm : s.Matches v) (hrun : wrapRest n s = .ok t) :
    ∃ v', wrapRest n v = .ok v' ∧ t.Matches v' := by
  induction n generalizing s v with
  | zero => cases hrun
  | succ n ih =>
    have hv : v.ad.hasMore = s.ad.hasMore := ByteStream.hasMore_congr (by rw [hm.ad])
    unfold wrapRest at hrun ⊢
    rw [hv]
    cases hmore : s.ad.hasMore with
    | false =>
      rw [hmore] at hrun
      cases hrun
      exact ⟨v, rfl, hm⟩
    | true =>
      rw [if_pos hmore] at hrun
      obtain ⟨s₁, hinject, hrun⟩ := bind_eq_ok hrun
      obtain ⟨v₁, hinject', hm₁⟩ := eInject_matches hb hm hinject
      obtain ⟨v', hrun', hmt⟩ := ih (hb.of_keeps (eInject_keeps ..) hinject) hm₁ hrun
      rw [if_pos rfl, bind_of_ok hinject']
      exact ⟨v', hrun', hmt⟩

theorem wrapEmpty_matches {s t v : State} (hb : s.Built) (hm : s.Matches v) (hinp : v.inp.hasMore = s.inp.hasMore)
    (hrun : wrapEmpty s = .ok t) :
    ∃ v', wrapEmpty v = .ok v' ∧ t.Matches v' := by
  have hv : v.ad.hasMore = s.ad.hasMore := ByteStream.hasMore_congr (by rw [hm.ad])
  unfold wrapEmpty at hrun ⊢
  rw [hv, hinp]
  split at hrun
  · rename_i hempty
    rw [if_pos hempty]
    exact eInject_matches hb hm hrun
  · rename_i hmore
    cases hrun
    exact ⟨v, if_neg hmore, hm⟩

/-- What one side wraps, the other unwraps, from the first injection to the end of the message. -/
theorem wrapBody_matches {s c v : State} {q : Bytes} (hb : s.Built) (hE : s.phaseE = .fresh) (hm : s.Matches v)
    (hrun : wrapBody false s = .ok c) (hq : c.out = s.out.putAll q) (hinp : v.inp.unread = q)
    (hlen : q.length = s.inp.unread.length) :
    ∃ c', wrapBody true v = .ok c' ∧ c.Matches c' ∧ c'.out.buf = v.out.buf ++ s.inp.unread := by
  obtain ⟨a, hempty, ha, -⟩ := wrapEmpty_ok hb hE
  rw [wrapBody, bind_of_ok hempty] at hrun
  obtain ⟨b, hblocks, hrest⟩ := bind_eq_ok hrun
  obtain ⟨-, hbt, -⟩ := (wrapBlocks_runs false _ ha).of_ok hblocks
  obtain ⟨a', hempty', hma⟩ := wrapEmpty_matches hb hm (ByteStream.hasMore_congr (by rw [hinp, hlen])) hempty
  have hsa := wrapEmpty_sameMessage hb hempty
  have hva := wrapEmpty_sameMessage (hm.built hb) hempty'
  have hbc := wrapRest_sameMessage _ hbt.built hrest
  obtain ⟨b', hblocks', hmb, hout⟩ := wrapBlocks_matches _ ha hma hblocks (by rw [hsa.out, ← hbc.out, hq])
    (by rw [hva.inp, hinp]) (by rw [hsa.inp, hlen])
  obtain ⟨c', hrest', hmc⟩ := wrapRest_matches _ hbt.built hmb hrest
  have hbc' := wrapRest_sameMessage _ (hmb.built hbt.built) hrest'
  refine ⟨c', ?_, hmc, by rw [hbc'.out, hout, hva.out, hsa.inp]⟩
  rw [wrapBody, bind_of_ok hempty', hva.inp, hinp, hlen, ← hsa.inp, bind_of_ok hblocks', hmb.ad]
  exact hrest'

/-- Settles O49: the bodies of the two commands match, so the second squeezes the tag the first one wrote. -/
theorem unwrapUndoesWrap : Obligations.UnwrapUndoesWrap := by
  unfold Obligations.UnwrapUndoesWrap
  intro g s v t hb hM hE hcfg hps het hvE hvM hout hvout had hrun hinp htag
  have hm : s.Matches v := ⟨hcfg, hps, het, hvE, had⟩
  obtain ⟨c, hbody, hc, -⟩ := wrapBody_ok hb hE false
  obtain ⟨q, hq, hlen⟩ := hc.consumes.out_of_exhausted hc.inp
  obtain ⟨xs, tr, hs, -⟩ := mWrap_of_messageEnd (u := false) (g := g) (ok := true) hM hbody hc (by simp)
  obtain rfl := Host.Outcome.next.inj ((congrArg settle hs).symm.trans hrun)
  have hwrapped : v.inp.unread = q := hinp.trans ((congrArg ByteStream.buf hq).trans (by rw [hout]; rfl))
  obtain ⟨c', hbody', hm', hout'⟩ := wrapBody_matches hb hE hm hbody hq hwrapped hlen
  obtain ⟨d, hd, hc', -⟩ := wrapBody_ok (hm.built hb) (hvE.trans hE) true
  obtain rfl := Except.ok.inj (hd.symm.trans hbody')
  have htag' : squeezedTag d.cfg (wrapPistons d.cfg g d.pistons) = d.tag.buf := by
    rw [hc'.consumes.tag, htag, hm'.cfg, hm'.pistons]
    rfl
  obtain ⟨ys, tr', hv, -⟩ :=
    mWrap_of_messageEnd (u := true) (g := g) (ok := true) (hvM.trans hM) hbody' hc' (by simp [htag'])
  refine ⟨_, congrArg settle hv, rfl, ?_, ?_, ?_, rfl, ?_⟩
  · exact hout'.trans (by rw [hvout]; rfl)
  · show wrapPistons d.cfg g d.pistons = wrapPistons c.cfg g c.pistons
    rw [hm'.cfg, hm'.pistons]
  · show (tagRequest d.cfg true).map _ = (tagRequest c.cfg true).map _
    rw [hm'.cfg]
  · exact hc'.consumes.phaseM.trans (hvM.trans hc.consumes.phaseM.symm)

end Sys2Proof.Machine
end

section
/-! What one step runs, by what stands on the issue line and in the host's queue (10_state R30, 44_host_interface R190,
R191), and the bytes of the key pack (44_host_interface R192, R193). -/

namespace Sys2Proof.Machine

/-! What a step fetches (10_state R30; log 23) -/

theorem step_of_issue {s : State} {w : Byte} (h : s.issue = some w) :
    step s = (acceptIssue w { s with issue := none }).outcome := by
  rw [step_eq, fetch, h]

theorem step_of_host {s : State} {m : HostMove} {rest : List HostMove} (hissue : s.issue = none)
    (hhost : s.host = m :: rest) : step s = (hostMove m { s with host := rest }).outcome := by
  rw [step_eq, fetch, hissue, hhost]

theorem step_of_nothing {s : State} (hissue : s.issue = none) (hhost : s.host = []) : step s = .next s := by
  rw [step_eq, fetch, hissue, hhost]
  rfl

/-! Acceptance of a word (44_host_interface R191, 30_encoding R85, 10_state R26) -/

theorem acceptCommand_of_fault (w : Byte) {s : State} (h : s.fault = true) : (acceptCommand w s).outcome = .next s :=
  congrArg Fetched.outcome (if_pos h)

theorem acceptIssue_of_fault (w : Byte) {s : State} (h : s.fault = true) : (acceptIssue w s).outcome = .next s :=
  congrArg Fetched.outcome (if_pos h)

section
variable {s : State} {w : Byte} {i : Instr} (hf : s.fault = false) (hw : decode [w] = .ok (i, []))
include hf hw

theorem acceptCommand_of_decode (hi : i.hostIssuable = true) :
    (acceptCommand w s).outcome = exec i { s with done := false } := by
  simp [acceptCommand, Fetched.outcome, hf, hw, hi]

theorem acceptIssue_of_decode : (acceptIssue w s).outcome = exec i s := by
  simp [acceptIssue, Fetched.outcome, hf, hw]

end

/-- Settles O4: the word is accepted in the state it was taken out of, and its operation runs. -/
theorem stepRunsDecoded : Obligations.StepRunsDecoded := by
  unfold Obligations.StepRunsDecoded
  intro s w i hf hw
  exact ⟨fun _ hissue hhost hi => (step_of_host hissue hhost).trans (acceptCommand_of_decode hf hw hi),
    fun hissue => (step_of_issue hissue).trans (acceptIssue_of_decode hf hw)⟩

/-- Settles O6: the latch is tested before the word is decoded. -/
theorem faultedBlockIgnoresWords : Obligations.FaultedBlockIgnoresWords := by
  unfold Obligations.FaultedBlockIgnoresWords
  intro s w hf
  exact ⟨fun _ hissue hhost => (step_of_host hissue hhost).trans (acceptCommand_of_fault w hf),
    fun hissue => (step_of_issue hissue).trans (acceptIssue_of_fault w hf)⟩

/-- Settles O8: each of these moves is answered with one update of the state it is taken from. -/
theorem hostMovesActOnTheirPort : Obligations.HostMovesActOnTheirPort := by
  unfold Obligations.HostMovesActOnTheirPort
  intro s hissue
  exact ⟨fun _ _ => step_of_host hissue, fun _ _ _ => step_of_host hissue,
    fun p _ _ hhost => (step_of_host hissue hhost).trans (by cases p <;> rfl), step_of_nothing hissue⟩

/-! The bytes of joined byte strings -/

theorem byteAt_cons_one_add (v : Byte) (S : Bytes) (k : Nat) : byteAt (v :: S) (1 + k) = byteAt S k := by
  rw [Nat.add_comm]
  rfl

theorem byteAt_append_left {S : Bytes} (T : Bytes) {k : Nat} (h : k < S.length) : byteAt (S ++ T) k = byteAt S k :=
  List.getD_append S T 0 k h

theorem byteAt_append_right (S T : Bytes) (k : Nat) : byteAt (S ++ T) (S.length + k) = byteAt T k := by
  simp [byteAt, List.getElem?_append_right]

theorem byteAt_replicate_zero (n k : Nat) : byteAt (List.replicate n 0) k = 0 := by
  simp only [byteAt, List.getD_eq_getElem?_getD, List.getElem?_replicate]
  split <;> rfl

/-! The key pack (44_host_interface R192, R193) -/

/-- The `lk` bytes of the key pack of `K`: the length, the key, the byte 0x01 and the zeros up to `lk`. -/
def keypackBytes (lk : Nat) (K : Bytes) : Bytes :=
  BitVec.ofNat 8 lk :: (K ++ 0x01 :: List.replicate (lk - K.length - 2) 0)

section
variable {c : Cfg} {K : Bytes}

theorem keypack_of_too_large (h : c.lk < K.length + 2) : keypack c K = .error (.keyPackTooLarge K.length c.lk) :=
  if_pos h

theorem keypack_of_fits (h : K.length + 2 ≤ c.lk) (hlk : c.lk ≤ 255) : keypack c K = .ok (keypackBytes c.lk K) := by
  simp [keypack, keypackBytes, enc8_of_le hlk, Nat.not_lt.mpr h]

theorem keypack_of_no_encoding (h : K.length + 2 ≤ c.lk) (hlk : 255 < c.lk) :
    keypack c K = .error (.encode8Range c.lk) := by
  simp [keypack, enc8_eq_none.mpr hlk, Nat.not_lt.mpr h]

theorem sessionMaterial_of_keypack {pack : Bytes} (h : keypack c K = .ok pack) (N : Bytes) :
    sessionMaterial c K N = .ok (pack ++ N) := by
  rw [sessionMaterial, h]

end

section
variable (lk : Nat) (K : Bytes)

theorem keypackBytes_length (h : K.length + 2 ≤ lk) : (keypackBytes lk K).length = lk := by
  simp only [keypackBytes, List.length_cons, List.length_append, List.length_replicate]
  omega

theorem byteAt_keypackBytes_key {k : Nat} (hk : k < K.length) : byteAt (keypackBytes lk K) (1 + k) = byteAt K k := by
  rw [keypackBytes, byteAt_cons_one_add, byteAt_append_left _ hk]

/-- What stands after the key. -/
theorem byteAt_keypackBytes_padding (j : Nat) :
    byteAt (keypackBytes lk K) (1 + (K.length + j)) = byteAt (0x01 :: List.replicate (lk - K.length - 2) 0) j := by
  rw [keypackBytes, byteAt_cons_one_add, byteAt_append_right]

theorem byteAt_keypackBytes_one : byteAt (keypackBytes lk K) (1 + K.length) = 0x01 :=
  byteAt_keypackBytes_padding lk K 0

theorem byteAt_keypackBytes_zero {k : Nat} (hk : K.length + 2 ≤ k) : byteAt (keypackBytes lk K) k = 0x00 := by
  obtain ⟨j, rfl⟩ : ∃ j, k = 1 + (K.length + (1 + j)) := ⟨k - K.length - 2, by omega⟩
  rw [byteAt_keypackBytes_padding, byteAt_cons_one_add, byteAt_replicate_zero]

end

/-- Settles O58: the pack has one form, and the test of the key's length comes before the encoding of `Lk`. -/
theorem keyPackFormat : Obligations.KeyPackFormat := by
  unfold Obligations.KeyPackFormat
  refine fun c K => ⟨fun h hlk => ?_, keypack_of_too_large, keypack_of_no_encoding⟩
  have hpack := keypack_of_fits h hlk
  exact ⟨_, hpack, keypackBytes_length _ K h, rfl, fun _ => byteAt_keypackBytes_key _ K, byteAt_keypackBytes_one _ K,
    fun _ => byteAt_keypackBytes_zero _ K, sessionMaterial_of_keypack hpack⟩

end Sys2Proof.Machine
end

section
/-! Exceptions (60_exceptions): the order of the admission tests (R224), what a command that raises a fault leaves (R210, R220,
R225), what a faulted block keeps (R227, 10_state R26), and that no run goes past a fault (R226). -/

namespace Sys2Proof.Machine

/-! The order of the admission tests (R224 item 1) -/

/-- Settles O10: each test is reached when those before it pass. `Ra ≤ 255` never decides: the largest state has 200 bytes. -/
theorem admissionOrder : Obligations.AdmissionOrder := by
  unfold Obligations.AdmissionOrder Cfg.refusal Cfg.tagBytes Cfg.knotBytes
  intro c
  rw [← Cfg.hasLayout_iff]
  refine ⟨fun h => if_pos (by simpa using h), fun hlay => ?_⟩
  rw [if_neg (by simp [hlay])]
  refine ⟨fun h => if_pos (by omega), fun hnr => ?_⟩
  rw [if_neg (by omega)]
  refine ⟨fun h => if_pos h, fun hrate => ?_⟩
  rw [if_neg (by omega)]
  refine ⟨fun h => if_pos h, fun hroom => ?_⟩
  rw [if_neg (by omega)]
  refine ⟨fun h => ?_, fun ⟨htau, htag⟩ => ?_⟩
  · by_cases htau : c.tau % 8 ≠ 0
    · exact if_pos htau
    · rw [if_neg htau]
      exact if_pos (h.resolve_left htau)
  rw [if_neg (not_not_intro htau), if_neg (Nat.not_lt.mpr htag)]
  refine ⟨fun h => if_pos h, fun hknot => ?_⟩
  rw [if_neg (Nat.not_lt.mpr hknot)]
  refine ⟨fun h => if_pos h, fun hpi => ?_⟩
  have hra : ¬ 255 < c.ra := by
    obtain ⟨hbytes, -, -, hw⟩ := Cfg.layout_facts hlay
    omega
  rw [if_neg (by omega), if_neg hra]

/-! What a command that raises a fault leaves (R210, R220, R225) -/

/-- The words the host may issue are 0xC0 to 0xCB (30_encoding R84, R85). -/
theorem encodeWord_range_of_hostIssuable {i : Instr} (hi : i.hostIssuable = true) :
    0xC0 ≤ (encodeWord i).toNat ∧ (encodeWord i).toNat ≤ 0xCB := by
  cases i with
  | mStart t u g => revert t u g; decide
  | mWrap u g => revert u g; decide
  | _ => cases hi

/-- A word on `cmd` is that of a command, which runs with `DONE` cleared, or it is illegal. -/
theorem acceptCommand_cases (w : Byte) {s : State} (hf : s.fault = false) :
    (∃ i, i.hostIssuable = true ∧ encodeWord i = w ∧ (acceptCommand w s).outcome = exec i { s with done := false }) ∨
    (acceptCommand w s).outcome = latch (.illegalCommand w) s := by
  cases hw : decodeWord w with
  | none => exact .inr (by simp [acceptCommand, hf, decode_cons_of_none hw, Fetched.outcome])
  | some i =>
    have hdecode := decode_cons_of_some hw []
    cases hi : i.hostIssuable with
    | true => exact .inl ⟨i, hi, encodeWord_of_decodeWord hw, acceptCommand_of_decode hf hdecode hi⟩
    | false => exact .inr (by simp [acceptCommand, hf, hdecode, hi, Fetched.outcome])

theorem latch_eq_latched {x r : Raise} {s t : State} (h : latch x s = .fault (.latched r t)) :
    r = x ∧ t = s.enterFault r := by
  cases h
  exact ⟨rfl, rfl⟩

theorem Yields.settle_ne_latched {P : State → Prop} {o : Result State} (h : Yields P o) (r : Raise) (t : State) :
    settle o ≠ .fault (.latched r t) := by
  cases h <;> nofun

section
variable {s t : State} {r : Raise} (h : s.HostDriven) (hs : s.Shape) (hf : s.fault = false)
include h hs hf

/-- In its phase a command raises no fault, so the only one it can raise is that of its phase test (43_motorist R171). -/
theorem State.HostDriven.latched_exec {op : Instr} (hop : op.hostIssuable = true)
    (he : exec op s = .fault (.latched r t)) :
    r = .phaseViolationM (encodeWord op) s.phaseM ∧ t = s.enterFault r := by
  have hc := h.inCommand hs hf
  cases op with
  | mStart w u g =>
    by_cases hM : s.phaseM = .ready
    · exact absurd he ((mStart_yields w u g (hM ▸ hc) (h.fresh hf)).settle_ne_latched r t)
    · exact latch_eq_latched ((exec_mStart_of_phaseM_ne w u g hM).symm.trans he)
  | mWrap u g =>
    by_cases hM : s.phaseM = .riding
    · exact absurd he ((mWrap_yields u g (hM ▸ hc) (h.fresh hf)).settle_ne_latched r t)
    · exact latch_eq_latched ((exec_mWrap_of_phaseM_ne u g hM).symm.trans he)
  | _ => cases hop

theorem State.HostDriven.latched_acceptCommand {w : Byte} (he : (acceptCommand w s).outcome = .fault (.latched r t)) :
    t = s.enterFault r ∧ (r = .illegalCommand w ∨ r = .phaseViolationM w s.phaseM) := by
  obtain ⟨i, hi, rfl, hrun⟩ | hillegal := acceptCommand_cases w hf
  · obtain ⟨hr, ht⟩ := (h.taken s.host false).latched_exec (hs.taken s.host false) hf hi (hrun.symm.trans he)
    exact ⟨ht, .inr hr⟩
  · obtain ⟨hr, ht⟩ := latch_eq_latched (hillegal.symm.trans he)
    exact ⟨ht, .inl hr⟩

end

/-- Settles O56: the command is accepted in the state its word was taken out of, and that state is the one at the fault. -/
theorem hostFaultsArePrecise : Obligations.HostFaultsArePrecise := by
  unfold Obligations.HostFaultsArePrecise
  intro s t r w rest hs h hf hhost hstep
  rw [step_of_host h.issue hhost] at hstep
  exact (h.taken rest s.done).latched_acceptCommand (hs.taken rest s.done) hf hstep

/-- Settles O5: every command's word is in the range, so a word outside it is illegal. -/
theorem illegalCommandRaises : Obligations.IllegalCommandRaises := by
  unfold Obligations.IllegalCommandRaises
  intro s w rest hf hissue hhost hw
  rw [step_of_host hissue hhost]
  obtain ⟨i, hi, rfl, -⟩ | hillegal := acceptCommand_cases w (s := { s with host := rest }) hf
  · exact absurd (encodeWord_range_of_hostIssuable hi) hw
  · exact hillegal

/-! What a faulted block keeps (R227, 10_state R26) -/

/-- The latch and the pieces of the state that are the block's own, in the order of `OnlyResetLeavesFault`. -/
def State.own (s : State) : Bool × Cause × Cfg × List Bytes × List Byte × PhaseE × PhaseM × Bool × Bool × ByteStream ×
    List ByteStream × List Byte :=
  (s.fault, s.cause, s.cfg, s.pistons, s.et, s.phaseE, s.phaseM, s.result, s.done, s.tPrime, s.xt, s.trace)

theorem State.own_setPort (s : State) (p : Port) (x : ByteStream) : (s.setPort p x).own = s.own := by cases p <;> rfl

/-- A faulted block ignores a command, and the host's other moves, but for a reset, act on its ports only. -/
theorem own_of_hostMove {m : HostMove} {s t : State} (hf : s.fault = true) (hm : m ≠ .reset)
    (h : (hostMove m s).outcome = .next t) : t.own = s.own := by
  cases m with
  | config c => cases h; rfl
  | reset => exact absurd rfl hm
  | present p vs => cases h; exact s.own_setPort p _
  | append p vs => cases h; exact s.own_setPort p _
  | command w => cases (acceptCommand_of_fault w hf).symm.trans h; rfl

theorem own_of_step {s t : State} (hf : s.fault = true) (hnoreset : s.issue ≠ none ∨ ∀ rest, s.host ≠ .reset :: rest)
    (h : step s = .next t) : t.own = s.own := by
  cases hissue : s.issue with
  | some w =>
    have hignored : step s = .next { s with issue := none } := (step_of_issue hissue).trans (acceptIssue_of_fault w hf)
    cases hignored.symm.trans h; rfl
  | none =>
    cases hhost : s.host with
    | nil => cases (step_of_nothing hissue hhost).symm.trans h; rfl
    | cons m rest =>
      have hm : m ≠ .reset := fun hr => hnoreset.elim (· hissue) fun hne => hne rest (hr ▸ hhost)
      exact own_of_hostMove (s := { s with host := rest }) hf hm ((step_of_host hissue hhost).symm.trans h)

/-- Settles O7: a step from a faulted state that is no reset keeps the block's own state. -/
theorem onlyResetLeavesFault : Obligations.OnlyResetLeavesFault := by
  unfold Obligations.OnlyResetLeavesFault
  intro s t hf hnoreset h
  have hown := own_of_step hf hnoreset h
  simpa only [State.own, Prod.mk.injEq, hf] using hown

/-! Runs (R226) -/

theorem run_succ_eq_next {M : Host.Core} {k : Nat} {s t : M.State} :
    M.run (k + 1) s = .next t ↔ ∃ u, M.step s = .next u ∧ M.run k u = .next t := by
  rw [run_succ]
  cases M.step s <;> simp

/-- A reflexive and transitive relation that every step keeps to is kept to by every run. -/
theorem run_induction {M : Host.Core} {R : M.State → M.State → Prop} (hrefl : ∀ s, R s s)
    (htrans : ∀ {s t u}, R s t → R t u → R s u) (hstep : ∀ {s t}, M.step s = .next t → R s t) {k : Nat} {s t : M.State}
    (h : M.run k s = .next t) : R s t := by
  induction k generalizing s with
  | zero => cases h; exact hrefl t
  | succ k ih =>
    obtain ⟨u, hu, hrun⟩ := run_succ_eq_next.mp h
    exact htrans (hstep hu) (ih hrun)

/-- No fault has been entered on the way from `s` to `t`. -/
def NoFaultEntered (s t : State) : Prop := (t.fault = true → s.fault = true) ∧ t.faultCount = s.faultCount

/-- On the way from `s` to `t` the count has not fallen, and if the latch was entered it has risen. -/
def FaultsCounted (s t : State) : Prop :=
  (t.fault = true → s.fault = true ∨ s.faultCount < t.faultCount) ∧ s.faultCount ≤ t.faultCount

theorem noFaultEntered_of_step {s t : State} (h : step s = .next t) : NoFaultEntered s t := by
  have hstepped := step_stepped s
  rwa [h] at hstepped

theorem entered_of_step {s t : State} {r : Raise} (h : step s = .fault (.latched r t)) : Entered s r t := by
  have hstepped := step_stepped s
  rwa [h] at hstepped

/-- A run of the model ends at a fault, so it enters none. -/
theorem noFaultEntered_of_run {k : Nat} {s t : State} (h : Host.Core.run core k s = .next t) : NoFaultEntered s t :=
  run_induction (M := core) (R := NoFaultEntered) (fun _ => ⟨id, rfl⟩)
    (fun ⟨hf, hc⟩ ⟨hf', hc'⟩ => ⟨hf ∘ hf', hc'.trans hc⟩) noFaultEntered_of_step h

theorem FaultsCounted.trans {s t u : State} (h : FaultsCounted s t) (k : FaultsCounted t u) : FaultsCounted s u := by
  obtain ⟨hf, hc⟩ := h
  obtain ⟨hf', hc'⟩ := k
  refine ⟨fun hu => ?_, hc.trans hc'⟩
  rcases hf' hu with ht | hlt
  · exact (hf ht).imp_right (·.trans_le hc')
  · exact .inr (hc.trans_lt hlt)

theorem faultsCounted_of_blockRun {k : Nat} {s t : State} (h : Host.Core.run blockCore k s = .next t) :
    FaultsCounted s t :=
  run_induction (M := blockCore) (R := FaultsCounted) (fun _ => ⟨.inl, le_rfl⟩) FaultsCounted.trans blockStep_faults h

theorem blockStep_of_step {s t : State} (h : step s = .next t) : blockStep s = .next t := by rw [blockStep, h]

/-- The block itself goes the same way as the model while no fault is entered. -/
theorem blockRun_of_run {k : Nat} {s t : State} (h : Host.Core.run core k s = .next t) :
    Host.Core.run blockCore k s = .next t := by
  induction k generalizing s with
  | zero => exact h
  | succ k ih =>
    obtain ⟨u, hu, hrun⟩ := run_succ_eq_next.mp h
    exact run_succ_eq_next.mpr ⟨u, blockStep_of_step hu, ih hrun⟩

theorem final_eq_false_of_faultCount_pos {s : State} (h : 0 < s.faultCount) : s.final = false := by
  simp [State.final, h.ne']

/-- Settles O57: a next state has entered no fault; the block's own run counts the faults it enters and never forgets one. -/
theorem faultsAreTerminal : Obligations.FaultsAreTerminal := by
  unfold Obligations.FaultsAreTerminal
  refine ⟨fun s t r h => ?_, fun k s t hf h => ?_, fun j k s m t hf hm hfault ht => ?_⟩
  · obtain ⟨hfault, hcause, hcount⟩ := entered_of_step h
    exact ⟨hfault, hcause, hcount⟩
  · obtain ⟨hfault, hcount⟩ := noFaultEntered_of_run h
    exact ⟨by simpa [hf] using hfault, hcount, blockRun_of_run h⟩
  · have hentered : s.faultCount < m.faultCount := by
      simpa [hf] using (faultsCounted_of_blockRun hm).1 hfault
    have hkept : m.faultCount ≤ t.faultCount := (faultsCounted_of_blockRun ht).2
    exact final_eq_false_of_faultCount_pos (by omega)

end Sys2Proof.Machine
end

section
/-! Reset and hazards (70_reset): what a reset leaves under an admitted and under a refused configuration (R240, R241), and
the step a block driven by its host alone always takes (R252). -/

namespace Sys2Proof.Machine

/-! The outcome of a reset (R240) -/

theorem step_of_reset {s : State} {rest : List HostMove} (hissue : s.issue = none) (hhost : s.host = .reset :: rest) :
    step s = resetOutcome { s with host := rest } :=
  step_of_host hissue hhost

/-- The block after a reset that refuses its configuration (R240 item 3): cleared, but for the latch and, with it, the
model's count of fault entries (log 8). -/
def State.refused (s : State) (r : Raise) : State :=
  { s.cleared with fault := true, cause := r.cause, faultCount := s.faultCount + 1 }

theorem resetOutcome_of_admitted {s : State} (h : s.cfgPort.admitted = true) : resetOutcome s = .next s.cleared := by
  rw [resetOutcome, State.applyReset, Option.isNone_iff_eq_none.mp h]

theorem resetOutcome_of_refusal {s : State} {r : Raise} (h : s.cfgPort.refusal = some r) :
    resetOutcome s = .fault (.latched r (s.refused r)) := by
  rw [resetOutcome, State.applyReset, h]
  rfl

theorem exists_leaves_resetOutcome (s : State) : ∃ t, Leaves (resetOutcome s) t := by
  cases hr : s.cfgPort.refusal with
  | none => exact ⟨_, .inl (resetOutcome_of_admitted (Option.isNone_iff_eq_none.mpr hr))⟩
  | some r => exact ⟨_, .inr ⟨r, resetOutcome_of_refusal hr⟩⟩

/-- Settles O12: an admitted configuration is sampled and the block cleared, whose values these are. -/
theorem resetClearsEverything : Obligations.ResetClearsEverything := by
  unfold Obligations.ResetClearsEverything
  intro s rest hissue hhost hadm
  exact (step_of_reset hissue hhost).trans (resetOutcome_of_admitted (s := { s with host := rest }) hadm)

/-- A cause that admission records (60_exceptions R213, R214, R221). -/
def Cause.OfAdmission (c : Cause) : Prop := c = .rateOrder ∨ c = .absorbRateTooLarge ∨ c = .configUnsupported

/-- One admission test in front of the others. -/
theorem ofAdmission_of_test {p : Prop} [Decidable p] {x r : Raise} {o : Option Raise}
    (h : (if p then some x else o) = some r) (hx : x.cause.OfAdmission) (ho : o = some r → r.cause.OfAdmission) :
    r.cause.OfAdmission := by
  split at h
  · exact Option.some.inj h ▸ hx
  · exact ho h

theorem ofAdmission_of_refusal {c : Cfg} {r : Raise} (h : c.refusal = some r) : r.cause.OfAdmission := by
  have unsupported (x : CfgParam) : (Raise.configUnsupported x).cause.OfAdmission := .inr (.inr rfl)
  refine ofAdmission_of_test h (unsupported .b) fun h => ofAdmission_of_test h (unsupported .nr) fun h => ?_
  refine ofAdmission_of_test h (.inl rfl) fun h => ofAdmission_of_test h (.inr (.inl rfl)) fun h => ?_
  refine ofAdmission_of_test h (unsupported .tau) fun h => ofAdmission_of_test h (unsupported .tau) fun h => ?_
  refine ofAdmission_of_test h (unsupported .c) fun h => ofAdmission_of_test h (unsupported .pi) fun h => ?_
  exact ofAdmission_of_test h (unsupported .ra) fun h => ofAdmission_of_test h (unsupported .c) nofun

/-- Settles O13: the refused reset ends in its fault with the block cleared but for the latch, which ignores every word. -/
theorem resetRefusesConfiguration : Obligations.ResetRefusesConfiguration := by
  unfold Obligations.ResetRefusesConfiguration
  intro s rest r hissue hhost hrefusal
  have hstep := (step_of_reset hissue hhost).trans (resetOutcome_of_refusal (s := { s with host := rest }) hrefusal)
  refine ⟨_, hstep, rfl, rfl, ofAdmission_of_refusal hrefusal, rfl, rfl, rfl, rfl, rfl, rfl, rfl, rfl, rfl, rfl, rfl,
    rfl, fun w more => ?_⟩
  exact (faultedBlockIgnoresWords _ w rfl).1 more rfl rfl

/-! What a reset erases (R241) -/

section
variable {s v : State} (hport : v.cfgPort = s.cfgPort) (hhost : v.host = s.host) (hcount : v.faultCount = s.faultCount)
include hport hhost hcount

/-- Of the state before it, a cleared block has what the host drives, the host's moves and the model's own counter alone. -/
theorem State.cleared_congr : v.cleared = s.cleared := by
  unfold State.cleared
  rw [hport, hhost, hcount]

theorem State.applyReset_congr : v.applyReset = s.applyReset := by
  unfold State.applyReset
  rw [hport, State.cleared_congr hport hhost hcount, hcount]

end

/-- Settles O14: admitted or refused, a reset leaves what is made of the host's side and the counter alone. -/
theorem resetErasesTheSession : Obligations.ResetErasesTheSession := by
  unfold Obligations.ResetErasesTheSession
  rintro s v t u hs hv ⟨rest, hhost⟩ hhosts hport hcount ht hu
  rw [step_of_reset hs hhost] at ht
  rw [step_of_reset hv (hhosts.trans hhost)] at hu
  rw [leaves_resetOutcome ht, leaves_resetOutcome hu]
  exact State.applyReset_congr hport.symm rfl hcount.symm

/-! A block driven by its host alone (R252, 42_engine R159) -/

theorem Yields.exists_leaves_of_ends {P : State → Prop} {o : Result State} (h : Yields P o) (he : Ends o) :
    ∃ t, Leaves (settle o) t := by
  obtain ⟨t, rfl, -⟩ := h.ok_of_ends he
  exact ⟨t, .inl rfl⟩

theorem exists_leaves_latch (r : Raise) (s : State) : ∃ t, Leaves (latch r s) t := ⟨_, (leaves_latch r s _).mpr rfl⟩

section
variable {s : State} (h : s.HostDriven) (hs : s.Shape)
include h hs

/-- In its phase a command completes: its operations raise no fault and its loops end. In another it raises its fault. -/
theorem State.HostDriven.exists_leaves_exec (hf : s.fault = false) {op : Instr} (hop : op.hostIssuable = true) :
    ∃ t, Leaves (exec op s) t := by
  have hc := h.inCommand hs hf
  cases op with
  | mStart w u g =>
    by_cases hM : s.phaseM = .ready
    · exact (mStart_yields w u g (hM ▸ hc) (h.fresh hf)).exists_leaves_of_ends (mStart_ends w u g hc.built)
    · rw [exec_mStart_of_phaseM_ne w u g hM]
      exact exists_leaves_latch ..
  | mWrap u g =>
    by_cases hM : s.phaseM = .riding
    · exact (mWrap_yields u g (hM ▸ hc) (h.fresh hf)).exists_leaves_of_ends (mWrap_ends u g hc.built)
    · rw [exec_mWrap_of_phaseM_ne u g hM]
      exact exists_leaves_latch ..
  | _ => cases hop

theorem State.HostDriven.exists_leaves_acceptCommand (w : Byte) : ∃ t, Leaves (acceptCommand w s).outcome t := by
  cases hf : s.fault with
  | true => exact ⟨s, .inl (acceptCommand_of_fault w hf)⟩
  | false =>
    obtain ⟨i, hi, -, hrun⟩ | hillegal := acceptCommand_cases w hf
    · rw [hrun]
      exact (h.taken s.host false).exists_leaves_exec (hs.taken s.host false) hf hi
    · rw [hillegal]
      exact exists_leaves_latch ..

theorem State.HostDriven.exists_leaves_hostMove (m : HostMove) : ∃ t, Leaves (hostMove m s).outcome t := by
  cases m with
  | config c => exact ⟨_, .inl rfl⟩
  | reset => exact exists_leaves_resetOutcome s
  | present p vs => exact ⟨_, .inl rfl⟩
  | append p vs => exact ⟨_, .inl rfl⟩
  | command w => exact h.exists_leaves_acceptCommand hs w

theorem State.HostDriven.exists_leaves_step : ∃ t, Leaves (step s) t := by
  cases hhost : s.host with
  | nil => exact ⟨s, .inl (step_of_nothing h.issue hhost)⟩
  | cons m rest =>
    rw [step_of_host h.issue hhost]
    exact (h.taken rest s.done).exists_leaves_hostMove (hs.taken rest s.done) m

end

/-- Of the host's moves but a reset, only a command can end in a fault. -/
theorem command_of_latched {s t : State} {r : Raise} (hissue : s.issue = none) (hnoreset : ∀ rest, s.host ≠ .reset :: rest)
    (hstep : step s = .fault (.latched r t)) : ∃ w rest, s.host = .command w :: rest := by
  cases hhost : s.host with
  | nil => cases (step_of_nothing hissue hhost).symm.trans hstep
  | cons m rest =>
    rw [step_of_host hissue hhost] at hstep
    cases m with
    | config c => cases hstep
    | reset => exact absurd hhost (hnoreset rest)
    | present p vs => cases hstep
    | append p vs => cases hstep
    | command w => exact ⟨w, rest, rfl⟩

/-- A next state of a block that has not faulted has entered no fault, so by its shape it records no cause. -/
theorem State.Shape.cause_of_next {s t : State} (hs : s.Shape) (hf : s.fault = false) (hstep : step s = .next t) :
    t.cause = .none := by
  obtain ⟨hentered, -⟩ := noFaultEntered_of_step hstep
  have ht : t.Shape := everyStepKeepsTheShape s t hs (.inl hstep)
  by_contra hcause
  simpa [hf] using hentered (ht.latch.mpr hcause)

/-- The causes a step without a reset can record, from a block that has not faulted (42_engine R159). -/
theorem State.HostDriven.cause_of_leaves {s t : State} (h : s.HostDriven) (hs : s.Shape) (hf : s.fault = false)
    (hnoreset : ∀ rest, s.host ≠ .reset :: rest) (ht : Leaves (step s) t) :
    t.cause = .none ∨ t.cause = .phaseViolation ∨ t.cause = .illegalCommand := by
  rcases ht with hnext | ⟨r, hfault⟩
  · exact .inl (hs.cause_of_next hf hnext)
  · obtain ⟨w, rest, hhost⟩ := command_of_latched h.issue hnoreset hfault
    obtain ⟨rfl, rfl | rfl⟩ := hostFaultsArePrecise s t r w rest hs h hf hhost hfault
    · exact .inr (.inr rfl)
    · exact .inr (.inl rfl)

/-- Settles O55: a step leaves the block somewhere, and where it does the cause is none or one of the two. -/
theorem hostDrivenBlockNeverSticks : Obligations.HostDrivenBlockNeverSticks := by
  unfold Obligations.HostDrivenBlockNeverSticks
  intro s hs h
  obtain ⟨t, ht⟩ := h.exists_leaves_step hs
  exact ⟨t, ht, fun hf hnoreset => h.cause_of_leaves hs hf hnoreset ht⟩

end Sys2Proof.Machine
end
